-- ==== Sys2Proof/Word.lean ====
section
/-! DEFINITION. Word.lean: the widths the spec gives its values (00_scope.md R9, R10, R14). Every value of the block is
unsigned; a register word is 32 bits, a counter or a node weight is 64 bits, an arena index is 9 bits. -/

namespace Sys2Proof

/-- A host-visible register word, 32 bits (R9 REG_WIDTH). -/
abbrev Word := BitVec 32

/-- A byte of the source or the sink, and a symbol (R10, R15). -/
abbrev Byte := BitVec 8

/-- A WIDE value: node weights, TOTAL, SYMCNT, SRC_POS, OUT_COUNT (R9, R14). -/
abbrev Wide := BitVec 64

/-- A node index, 0 to 510 (R14, R36). 511 names no node (R38). -/
abbrev NodeIx := BitVec 9

/-- A code: the bits of a root-to-leaf path in the order they go onto the stream, `c0` first (R11). -/
abbrev Code := List Bool

end Sys2Proof
end

