-- ==== Sys2Proof/Config.lean ====
section
/-! DEFINITION. Config.lean: the constants of the block (00_scope.md R8, 10_state.md R27) and the values the spec leaves
open and nothing in the model may fix (opaque constants: Lean can evaluate none of them). The platform's parameters
BASE, OUT_CAP, SRC_FAULT and SINK_FAULT (R9) are fields of `Machine.State`, so that every statement about all states
holds for every choice of them (log entries 1, 2 and 3). -/

namespace Sys2Proof.Config

/-- What ID always reads: the bytes "HUF1" (R27). -/
def idValue : Word := 0x48554631#32

/-- 2^32 - 1, the one frequency no size class carries (R8 FREQ_MAX, R130). -/
def unrepresentable : Word := 0xFFFFFFFF#32

/-- The largest admitted field width of WR_BITS and RD_BITS (R8 WR_MAX_N, R92). -/
def maxCount : Nat := 32

/-- The arena's entries, 2 * 256 - 1 (R9 NODE_MAX, R36). -/
def nodeMax : Nat := 511

/-- The register window's length in bytes (R23). -/
def windowBytes : Nat := 0x800

/-- The sink capacity the spec's vectors use where they name none (R73); the platform may set any other. -/
def defaultOutCap : Nat := 2 ^ 20

/-- One more than the largest index of an input byte: IN_LEN is 32 bits, so IN has at most 2^32 - 1 bytes (R29, R70). -/
def inMax : Nat := 2 ^ 32 - 1

/-- FREE VALUE (log entry 4): what `IN[i]` is at an index the platform has never loaded. The spec takes IN as an argument
(R51) and says nothing of such a byte; the value is the same at every read of `i`, since the source is re-readable (R70). -/
opaque unloadedByte : Nat → Byte

/-- FREE VALUE (log entry 5): what a host read of a register other than ID and STATUS returns while BUSY = 1, one draw for
each such read (R48). -/
opaque busyRead : Nat → Word

end Sys2Proof.Config
end

