-- ==== Sys2Proof/Syntax.lean ====
section
/-! DEFINITION. Syntax.lean: the block's 15 commands (30_encoding.md R94), one constructor per row of
spec/opcode_table.json. Only WR_BITS and RD_BITS have an operand in the command word, the 6-bit count N (R91, R92); every
other operand is implicit (R93). -/

namespace Sys2Proof

/-- A command of the block (R94). -/
inductive Instr where
  /-- 0x01: start a fresh session (R202). -/
  | clear
  /-- 0x02: write the low `n` bits of VALUE to the stream (R116). -/
  | wrBits (n : BitVec 6)
  /-- 0x03: pad and emit the partial byte (R117). -/
  | flush
  /-- 0x04: construct the bit reader at the start of the source (R118). -/
  | rdInit
  /-- 0x05: read one bit into VALUE (R119). -/
  | rdBit
  /-- 0x06: read an `n`-bit field into VALUE (R120). -/
  | rdBits (n : BitVec 6)
  /-- 0x07: count the input bytes into FREQ (R132). -/
  | count
  /-- 0x08: serialize FREQ into the stream (R133). -/
  | hdrWrite
  /-- 0x09: parse a header from the stream into FREQ (R134). -/
  | hdrRead
  /-- 0x0A: build the Huffman tree from FREQ (R150). -/
  | build
  /-- 0x0B: derive every symbol's code from the tree (R170). -/
  | gencodes
  /-- 0x0C: encode every input byte with its code (R180). -/
  | encPayload
  /-- 0x0D: walk the tree on input bits and emit TOTAL symbols (R190). -/
  | decPayload
  /-- 0x0E: the full encode pipeline (R181). -/
  | encode
  /-- 0x0F: the full decode pipeline (R192). -/
  | decode
deriving DecidableEq, Repr

/-- Why a command word is illegal (R95, R96). The block aborts such a word with IllegalCommand (R101, R228). -/
inductive DecodeError where
  /-- OP is 0x00 or 0x10 to 0xFF (R95). -/
  | reservedOp (op : BitVec 8)
  /-- WR_BITS or RD_BITS with N above 32 (R96). -/
  | countTooLarge (n : BitVec 6)
deriving DecidableEq, Repr

/-- What a command word decodes to: a command, or the reason it is illegal (R101). -/
inductive Decoded where
  | command (i : Instr)
  | illegal (e : DecodeError)
deriving DecidableEq, Repr

end Sys2Proof
end

