-- ==== Sys2Proof/Machine/State.lean ====
section
/-! DEFINITION. Machine/State.lean: everything the spec gives the machine, as plain data (10_state.md): the host-visible
registers, the session state, the transient state of a running command (R43 to R46), the two buffers and the platform's
open parameters (R51, R9), and the host agent (R20). INVENTORY.md lists each field with its rule and its reset value. -/

namespace Sys2Proof.Machine

/-- The error kinds of STATUS.ERRCODE (60_exceptions.md R220). `corruptHeader` is reserved and never raised (R225). -/
inductive ErrorKind where
  | ioError
  | emptyInput
  | frequencyRange
  | truncatedStream
  | corruptHeader
  | illegalCommand
  | uncodedSymbol
deriving DecidableEq, Repr

/-- Why the machine stops with a fault. -/
inductive Fault where
  /-- Raised by GENCODES (and by ENCODE through it) when the walk of R170 is still descending after 511 nodes on one path,
  which an arena of 511 entries allows only if a path meets a node twice. The spec gives such a walk no effect: its arena is
  always a tree of depth at most 255 (R157, R158), and no run reaches another. SAFE (log entry 6). -/
  | treeWalkUnbounded
deriving DecidableEq, Repr

/-- Why the model makes no move. -/
inductive Refusal where
  /-- An instruction exec has no meaning for yet. No arm of exec answers it now. SAFE. -/
  | notModelled (mnemonic : String)
  /-- A host access of a width other than 4 bytes, at an offset that is not a multiple of 4, or outside the window: "not
  admitted: the model refuses it" (R76). Raised by the host access operations, by no command. SAFE. -/
  | hostAccessNotAdmitted (addr width : Nat)
  /-- The platform loads IN while a command runs: "A model gives the host no move that changes IN while BUSY = 1" (R85).
  Raised by the load operation, by no command. SAFE. -/
  | inputChangedWhileBusy
  /-- The platform loads a byte of IN at an index above 2^32 - 2, which does not exist (R70). Raised by the load operation, by
  no command. SAFE. -/
  | inputIndexTooLarge
deriving DecidableEq, Repr

/-- What a step of a command's pseudocode answers, over the part of the state it acts on (R13, R226, R230): it goes on, it
raises an error kind (the state as it stands then: aborts are precise), or its walk does not end. -/
inductive Res (σ α : Type) where
  | ok (a : α) (s : σ)
  | err (k : ErrorKind) (s : σ)
  | stuck (f : Fault)
deriving DecidableEq, Repr

/-- A byte buffer outside the register window: the (index, byte) pairs written so far, indices strictly rising. An index
with no pair holds no value the model knows (log entries 4 and 7). -/
abbrev Memory := List Host.Cell

/-- STATUS (R25). -/
structure Status where
  busy : Bool
  done : Bool
  err : Bool
  rej : Bool
  errCode : BitVec 4
  errOp : BitVec 8
  errStage : BitVec 8
deriving DecidableEq, Repr

/-- The source side: the input buffer and its length (R29, R51, R70), SRC_POS (R31), the bit reader (R42), and the source
faults still to be drawn, one Bool for each source read below IN_LEN (R71 SRC_FAULT; log entry 2). -/
structure Source where
  inBuf : Memory
  inLen : BitVec 32
  srcPos : Wide
  rbuf : Byte
  rcnt : BitVec 4
  reof : Bool
  rdValid : Bool
  faults : List Bool
deriving DecidableEq, Repr

/-- The sink side: the bit writer (R41), OUT_COUNT (R30), the output buffer and its capacity (R51, R72), and the sink faults
still to be drawn, one Bool for each sink write below OUT_CAP (R73 SINK_FAULT; log entry 2). -/
structure Sink where
  wacc : Byte
  wcnt : BitVec 3
  outCount : Wide
  outBuf : Memory
  outCap : Nat
  faults : List Bool
deriving DecidableEq, Repr

/-- An arena entry (R36). -/
structure Node where
  w : Wide
  leaf : Bool
  sym : Byte
  left : NodeIx
  right : NodeIx
deriving DecidableEq, Repr

/-- A pair of the priority structure: a node's weight and its arena index (R43). -/
structure PqEntry where
  w : Wide
  ix : NodeIx
deriving DecidableEq, Repr

/-- The node arena (R36), the tree registers (R37), and the priority structure PQ, which exists only while BUILD runs (R43)
and is held in the order of R152, least pair first. -/
structure Tree where
  nodes : Vector Node 511
  treeValid : Bool
  nLeaves : BitVec 9
  nNodes : BitVec 9
  root : NodeIx
  pq : Option (List PqEntry)
deriving DecidableEq, Repr

/-- FREQ, 256 entries of 32 bits indexed by symbol (R34). -/
abbrev FreqTable := Vector Word 256

/-- CODE, 256 bit sequences indexed by symbol (R39). -/
abbrev CodeMap := Vector Code 256

/-- What the host agent and the platform can do (R20, R76, R99, R250). -/
inductive HostOp where
  /-- `MemWrite(addr, width, v)`. -/
  | memWrite (addr width : Nat) (v : Word)
  /-- `MemRead(addr, width)`. -/
  | memRead (addr width : Nat)
  /-- Read STATUS until BUSY = 0 (R99 WAIT). -/
  | wait
  /-- The platform puts bytes into IN from index `start` on (R99 LOAD IN; R85 lets it do so between commands). -/
  | loadIn (start : Nat) (bytes : List Byte)
  /-- The platform asserts and releases the reset input (R250). -/
  | reset
deriving DecidableEq, Repr

/-- The host agent (R20) and what belongs to the platform: the accesses it will still make, oldest first; the values its
reads have returned, newest first; BASE (R81; log entry 3); and how many reads made while BUSY have drawn a value (R48;
the model's own counter, log entry 5). -/
structure HostSide where
  script : List HostOp
  readLog : List Word
  base : Nat
  busyReads : Nat
deriving DecidableEq, Repr

/-- The state of the machine. -/
structure State where
  -- the command register: OP and N of the last accepted word; bits 31:14 read as 0 (R28)
  cmd : BitVec 14
  -- STATUS (R25)
  status : Status
  -- the data register VALUE (R22)
  value : Word
  -- the readout selectors (R38, R40)
  nodeSel : NodeIx
  codeSel : Byte
  -- the symbol counter SYMCNT (R32)
  symCnt : Wide
  -- the frequency table (R34)
  freq : FreqTable
  -- the arena, the tree registers and PQ (R36, R37, R43)
  tree : Tree
  -- the code table and its valid bit (R39)
  codes : CodeMap
  codesValid : Bool
  -- the source side: IN, IN_LEN, SRC_POS, the bit reader (R29, R31, R42, R51)
  src : Source
  -- the sink side: OUT, OUT_COUNT, the bit writer (R30, R41, R51)
  snk : Sink
  -- the walk register CUR, which exists only while DEC_PAYLOAD runs (R44)
  cur : Option NodeIx
  -- the class buffer CLS, which exists only while HDR_READ runs: the classes read so far, symbol 0's first (R45)
  cls : Option (List (BitVec 2))
  -- the stage register STAGE, which exists only while a command runs (R46)
  stage : Option (BitVec 8)
  -- the host agent and the platform (R20, R81)
  host : HostSide
deriving DecidableEq, Repr

/-- An arena entry with every field 0 (R36, R49). -/
def Node.zero : Node := { w := 0, leaf := false, sym := 0, left := 0, right := 0 }

/-- FREQ with every entry 0 (R49). -/
def FreqTable.zero : FreqTable := Vector.replicate 256 0#32

/-- The code table with every entry [] (R39, R49). -/
def CodeMap.empty : CodeMap := Vector.replicate 256 []

/-- STATUS = 0 (R250). -/
def Status.reset : Status :=
  { busy := false, done := false, err := false, rej := false, errCode := 0, errOp := 0, errStage := 0 }

/-- The arena and tree registers after reset, every field 0 (R49). -/
def Tree.reset : Tree :=
  { nodes := Vector.replicate 511 Node.zero, treeValid := false, nLeaves := 0, nNodes := 0, root := 0, pq := none }

/-- The source side after reset (R49). IN is configuration and holds nothing the model knows (log entry 4); no source fault
is drawn unless the platform's plan says so (R71). -/
def Source.reset : Source :=
  { inBuf := [], inLen := 0, srcPos := 0, rbuf := 0, rcnt := 0, reof := false, rdValid := false, faults := [] }

/-- The sink side after reset (R49). OUT's contents are unspecified (R51; log entry 7); OUT_CAP and the fault plan are the
platform's (R73; log entries 1 and 2). -/
def Sink.reset : Sink :=
  { wacc := 0, wcnt := 0, outCount := 0, outBuf := [], outCap := Config.defaultOutCap, faults := [] }

/-- The machine right after reset (R49, R250), with a host that has nothing to do and BASE = 0 (log entry 3). -/
def State.reset : State :=
  { cmd := 0
    status := Status.reset
    value := 0
    nodeSel := 0
    codeSel := 0
    symCnt := 0
    freq := FreqTable.zero
    tree := Tree.reset
    codes := CodeMap.empty
    codesValid := false
    src := Source.reset
    snk := Sink.reset
    cur := none
    cls := none
    stage := none
    host := { script := [], readLog := [], base := 0, busyReads := 0 } }

end Sys2Proof.Machine
end

