-- ==== Sys2Proof/Machine/Flags.lean ====
section
/-! DEFINITION. Machine/Flags.lean: STATUS and the valid bits, the block's only flags (10_state.md R25, R26, R35, R37, R39;
60_exceptions.md R220). The block computes no arithmetic condition flag. -/

namespace Sys2Proof.Machine

/-- The code of an error kind (R220). -/
def ErrorKind.code : ErrorKind → BitVec 4
  | .ioError => 1#4
  | .emptyInput => 2#4
  | .frequencyRange => 3#4
  | .truncatedStream => 4#4
  | .corruptHeader => 5#4
  | .illegalCommand => 6#4
  | .uncodedSymbol => 7#4

/-- STATUS as the host reads it (R23): BUSY[0], DONE[1], ERR[2], REJ[3], ERRCODE[7:4], ERROP[15:8], ERRSTAGE[23:16]. -/
def Status.word (st : Status) : Word :=
  0#8 ++ st.errStage ++ st.errOp ++ st.errCode ++ BitVec.ofBool st.rej ++ BitVec.ofBool st.err
    ++ BitVec.ofBool st.done ++ BitVec.ofBool st.busy

/-- A command is accepted: BUSY <- 1, DONE <- 0, REJ <- 0 (R26). -/
def Status.accept (st : Status) : Status := { st with busy := true, done := false, rej := false }

/-- A command completes: BUSY <- 0, DONE <- 1 (R26, R205). -/
def Status.complete (st : Status) : Status := { st with busy := false, done := true }

/-- A CMD write is rejected: REJ <- 1, and nothing else changes (R26, R201). -/
def Status.reject (st : Status) : Status := { st with rej := true }

/-- A command aborts: ERRCODE, ERROP, ERRSTAGE, ERR <- 1, BUSY <- 0; DONE is left as acceptance set it (R226). -/
def Status.abort (st : Status) (k : ErrorKind) (op stg : BitVec 8) : Status :=
  { st with errCode := k.code, errOp := op, errStage := stg, err := true, busy := false }

/-- CLEAR leaves the error state: ERR, ERRCODE, ERROP and ERRSTAGE <- 0 (R202, R233). -/
def Status.leaveError (st : Status) : Status := { st with err := false, errCode := 0, errOp := 0, errStage := 0 }

/-- TREE_VALID <- 0 and CODES_VALID <- 0, nothing else: what any FREQ write does (R35, R37, R39). -/
def State.invalidate (s : State) : State :=
  { s with tree := { s.tree with treeValid := false }, codesValid := false }

end Sys2Proof.Machine
end

