-- ==== Sys2Proof/WellFormed.lean ====
section
/-! DEFINITION. WellFormed.lean: which commands the encoding admits. WR_BITS and RD_BITS admit N = 0 to 32 (30_encoding.md
R92, R96); no other command has a field to check. -/

namespace Sys2Proof

/-- The bit count of WR_BITS and RD_BITS is admitted (R92). -/
def countOk (n : BitVec 6) : Bool := decide (n.toNat ≤ Config.maxCount)

/-- The command is one a legal word stands for. -/
def Instr.wellFormed : Instr → Bool
  | .clear => true
  | .wrBits n => countOk n
  | .flush => true
  | .rdInit => true
  | .rdBit => true
  | .rdBits n => countOk n
  | .count => true
  | .hdrWrite => true
  | .hdrRead => true
  | .build => true
  | .gencodes => true
  | .encPayload => true
  | .decPayload => true
  | .encode => true
  | .decode => true

end Sys2Proof
end

