-- ==== Sys2Proof/Machine/Operands.lean ====
section
/-! DEFINITION. Machine/Operands.lean: the operand forms (30_encoding.md R92, R93; 41_frequency_header.md R130, R131): the
count N, the field VALUE[n-1:0], and the size class that selects the width of a header value. -/

namespace Sys2Proof.Machine

/-- `n = zext_32(w[13:8])`: not scaled, shifted or sign-extended (R92). -/
def countOperand (n : BitVec 6) : Nat := n.toNat

/-- VALUE[n-1:0]: VALUE & (2^n - 1); VALUE's bits at n and above are ignored (R93, R116). -/
def valueOperand (n : Nat) (value : Word) : Word := value &&& BitVec.ofNat 32 (2 ^ n - 1)

/-- The bits a field of width `n` puts on the stream, in stream order: v[n-1] first, v[0] last (R12, R75). -/
def fieldBits (n : Nat) (v : Word) : List Bool := (List.range n).map fun j => v.getLsbD (n - 1 - j)

/-- The size class of a frequency, or none for 2^32 - 1, which has no class (R130). -/
def sizeClass (f : Word) : Option (BitVec 2) :=
  if f.toNat = 0 then some 0#2
  else if f.toNat < 256 then some 1#2
  else if f.toNat < 65536 then some 2#2
  else if f.toNat < 2 ^ 32 - 1 then some 3#2
  else none

/-- The width of the value a class selects: 0, 8, 16 or 32 bits (R131). -/
def classWidth (c : BitVec 2) : Nat :=
  match c.toNat with
  | 0 => 0
  | 1 => 8
  | 2 => 16
  | _ => 32

end Sys2Proof.Machine
end

