-- ==== Sys2Proof/Machine/Ops.lean ====
section
/-! DEFINITION. Machine/Ops.lean: the named operations every meaning is written over: sequencing of pseudocode steps (R13),
the two buffers (R51), the two ports (R71, R73), FREQ and arena access (R35, R36, R38), and the end of a command, by
completion (R205) or by an abort (R226), with the way out of the error state (R233). -/

namespace Sys2Proof.Machine

-- Sequencing of pseudocode steps

/-- The next step of a pseudocode; a raised error performs no further step (R226, R230). -/
def Res.bind {σ α β : Type} (r : Res σ α) (f : α → σ → Res σ β) : Res σ β :=
  match r with
  | .ok a s => f a s
  | .err k s => .err k s
  | .stuck x => .stuck x

/-- A step over one part of the state, placed in the whole: `put` stores the part back, at an abort too (R230). -/
def Res.within {σ τ α : Type} (r : Res σ α) (put : σ → τ) : Res τ α :=
  match r with
  | .ok a s => .ok a (put s)
  | .err k s => .err k (put s)
  | .stuck x => .stuck x

-- The two buffers

/-- What a buffer holds at an index; none where nothing has been written. -/
def Memory.read : Memory → Nat → Option Byte
  | [], _ => none
  | (x, y) :: m, a => if a = x then some y else Memory.read m a

/-- The buffer after a byte is written, its indices still strictly rising. -/
def Memory.write : Memory → Nat → Byte → Memory
  | [], a, b => [(a, b)]
  | (x, y) :: m, a, b =>
    if a < x then (a, b) :: (x, y) :: m
    else if a = x then (a, b) :: m
    else (x, y) :: Memory.write m a b

/-- The buffer after a run of bytes is written from index `a` on. -/
def Memory.writeAll : Memory → Nat → List Byte → Memory
  | m, _, [] => m
  | m, a, b :: bs => Memory.writeAll (Memory.write m a b) (a + 1) bs

/-- The canonical form: indices strictly rising. -/
abbrev Memory.wf (m : Memory) : Prop := m.Pairwise fun x y => x.1 < y.1

-- The source port

/-- The answer of the source (R71). -/
inductive SrcAnswer where
  | ok (b : Byte)
  | eof
  | err
deriving DecidableEq, Repr

/-- IN[i]: the byte the platform loaded, or the free value of an index it never loaded (R51; log entry 4). -/
def Source.inByte (q : Source) (i : Nat) : Byte := (q.inBuf.read i).getD (Config.unloadedByte i)

/-- SrcRead(i) (R71): `eof` at IN_LEN and above, where no fault is drawn (R231); else the next draw says whether the read
fails. Nothing but the draw is used up. -/
def srcRead (i : Wide) (q : Source) : SrcAnswer × Source :=
  if q.inLen.toNat ≤ i.toNat then (.eof, q)
  else if q.faults.headD false then (.err, { q with faults := q.faults.tail })
  else (.ok (q.inByte i.toNat), { q with faults := q.faults.tail })

/-- RBUF, RCNT, REOF and RD_VALID <- 0 (R42). -/
def Source.resetReader (q : Source) : Source := { q with rbuf := 0, rcnt := 0, reof := false, rdValid := false }

/-- The start of COUNT and ENC_PAYLOAD: the reader reset, and SRC_POS <- 0 (R31, R42). -/
def Source.rewind (q : Source) : Source := { q.resetReader with srcPos := 0 }

-- The sink port

/-- SinkWrite(b) (R73): a full sink and a drawn fault are IoErrors that leave OUT and OUT_COUNT unchanged; no fault is drawn
at a full sink (log entry 2). -/
def sinkWrite (b : Byte) (k : Sink) : Res Sink Unit :=
  if k.outCap ≤ k.outCount.toNat then .err .ioError k
  else if k.faults.headD false then .err .ioError { k with faults := k.faults.tail }
  else
    .ok ()
      { k with
        faults := k.faults.tail
        outBuf := k.outBuf.write k.outCount.toNat b
        outCount := k.outCount + 1 }

-- FREQ

/-- FREQ[b] (R34). -/
def FreqTable.entry (f : FreqTable) (b : Byte) : Word := f[b.toNat]'(b.isLt)

/-- FREQ[b] <- v (R34). -/
def FreqTable.setEntry (f : FreqTable) (b : Byte) (v : Word) : FreqTable := f.set b.toNat v b.isLt

/-- The whole of FREQ written, which clears TREE_VALID and CODES_VALID (R35). -/
def State.withFreq (s : State) (f : FreqTable) : State := { s.invalidate with freq := f }

/-- The sum of 64-bit values (R10: arithmetic on WIDE values is on 64-bit unsigned numbers). -/
def sumWide : List Wide → Wide
  | [] => 0
  | x :: xs => x + sumWide xs

/-- TOTAL, the sum of all 256 FREQ entries, computed where it is read (R33). -/
def FreqTable.total (f : FreqTable) : Wide := sumWide (f.toList.map fun x => x.setWidth 64)

-- The code table

/-- CODE[b] (R39). -/
def CodeMap.code (m : CodeMap) (b : Byte) : Code := m[b.toNat]'(b.isLt)

/-- CODE[b] <- p (R39). -/
def CodeMap.setCode (m : CodeMap) (b : Byte) (p : Code) : CodeMap := m.set b.toNat p b.isLt

-- The arena

/-- NODE[i]. There is no entry 511, and it reads as zero (R36, R38). -/
def Tree.node (t : Tree) (i : NodeIx) : Node := t.nodes[i.toNat]?.getD Node.zero

/-- NODE[i] <- n. -/
def Tree.putNode (t : Tree) (i : NodeIx) (n : Node) : Tree := { t with nodes := t.nodes.setIfInBounds i.toNat n }

-- The part of the state that the two payload commands run over

/-- The ports, SYMCNT and CUR: what the loops of ENC_PAYLOAD and DEC_PAYLOAD change (R180, R190). -/
structure Stream where
  src : Source
  snk : Sink
  symCnt : Wide
  cur : Option NodeIx
deriving DecidableEq, Repr

/-- The state's ports, SYMCNT and CUR. -/
def State.stream (s : State) : Stream := { src := s.src, snk := s.snk, symCnt := s.symCnt, cur := s.cur }

/-- The state with its ports, SYMCNT and CUR replaced. -/
def State.withStream (s : State) (x : Stream) : State :=
  { s with src := x.src, snk := x.snk, symCnt := x.symCnt, cur := x.cur }

-- The end of a command

/-- PQ, CUR, CLS and STAGE stop to exist (R21, R49, R226). -/
def State.discardTransient (s : State) : State :=
  { s with tree := { s.tree with pq := none }, cur := none, cls := none, stage := none }

/-- A command reaches the end of its pseudocode: BUSY <- 0, DONE <- 1 (R205); its transient state does not survive it (R21). -/
def complete (s : State) : State := { s with status := s.status.complete }.discardTransient

/-- TAKING AN EXCEPTION, `abort(K)` (R226, R227): ERRCODE gives the kind, ERROP the OP of CMD, ERRSTAGE the stage that was
running; ERR <- 1 and BUSY <- 0. Control goes nowhere: the block is idle in the error state. -/
def abort (k : ErrorKind) (s : State) : State :=
  { s with status := s.status.abort k (s.cmd.extractLsb' 0 8) (s.stage.getD 0) }.discardTransient

/-- THE RETURN FROM IT, which CLEAR performs (R202, R233): ERR, ERRCODE, ERROP and ERRSTAGE <- 0. No saved state comes back. -/
def leaveError (s : State) : State := { s with status := s.status.leaveError }

/-- The stage that runs from here on (R46). -/
def State.enterStage (s : State) (op : BitVec 8) : State := { s with stage := some op }

/-- What a command answers once its pseudocode has run: it completes (R205), it aborts (R226), or its walk does not end. -/
def finish (r : Res State Unit) : Host.Outcome State Fault Refusal :=
  match r with
  | .ok _ s => .next (complete s)
  | .err k s => .next (abort k s)
  | .stuck f => .fault f

end Sys2Proof.Machine
end

