-- ==== Sys2Proof/Machine/BitPack.lean ====
section
/-! DEFINITION. Machine/BitPack.lean: the bit writer and the bit reader (40_bitpack.md): the primitives every other family
uses (R110 to R115) and the commands WR_BITS, FLUSH, RD_INIT, RD_BIT and RD_BITS (R116 to R120). -/

namespace Sys2Proof.Machine

-- The bit writer

/-- writeBit(b) (R110): the eighth bit emits the byte; if the sink fails then, the byte is lost. -/
def writeBit (b : Bool) (k : Sink) : Res Sink Unit :=
  if k.wcnt = 7 then sinkWrite ((k.wacc <<< 1) ||| (BitVec.ofBool b).setWidth 8) { k with wacc := 0, wcnt := 0 }
  else .ok () { k with wacc := (k.wacc <<< 1) ||| (BitVec.ofBool b).setWidth 8, wcnt := k.wcnt + 1 }

/-- A bit sequence, c0 first (R11): each bit by writeBit; an abort leaves the bits before it written (R111). -/
def writeSeq : List Bool → Sink → Res Sink Unit
  | [], k => .ok () k
  | b :: bs, k => (writeBit b k).bind fun _ k' => writeSeq bs k'

/-- writeBits(n, v) (R111): the low n bits of v, v[n-1] first. -/
def writeBits (n : Nat) (v : Word) (k : Sink) : Res Sink Unit := writeSeq (fieldBits n v) k

/-- flushBits() (R112): 8 - WCNT zero pad bits, if any bit is pending. -/
def flushBits (k : Sink) : Res Sink Unit :=
  if k.wcnt = 0 then .ok () k else sinkWrite (k.wacc <<< (8 - k.wcnt.toNat)) { k with wacc := 0, wcnt := 0 }

-- The bit reader

/-- fetch() (R113): end-of-input is recorded in REOF and is no error. -/
def fetch (q : Source) : Res Source Unit :=
  match srcRead q.srcPos q with
  | (.ok b, q') => .ok () { q' with rbuf := b, rcnt := 8, srcPos := q'.srcPos + 1 }
  | (.eof, q') => .ok () { q' with reof := true, rcnt := 0 }
  | (.err, q') => .err .ioError q'

/-- readBit() (R114): the top bit of RBUF; the eighth bit of a byte is followed by the eager refill, whose failure loses it. -/
def readBit (q : Source) : Res Source Bool :=
  if q.rcnt = 0 then .err .truncatedStream q
  else if q.rcnt = 1 then
    (fetch { q with rbuf := q.rbuf <<< 1, rcnt := 0 }).bind fun _ q' => .ok q.rbuf.msb q'
  else .ok q.rbuf.msb { q with rbuf := q.rbuf <<< 1, rcnt := q.rcnt - 1 }

/-- The loop of readBits(n), from the bits `v` read so far (R115). -/
def readBitsFrom : Nat → Word → Source → Res Source Word
  | 0, v, q => .ok v q
  | n + 1, v, q => (readBit q).bind fun b q' => readBitsFrom n ((v <<< 1) ||| (BitVec.ofBool b).setWidth 32) q'

/-- readBits(n) (R115): n bits, most-significant first. -/
def readBits (n : Nat) (q : Source) : Res Source Word := readBitsFrom n 0 q

-- The commands

/-- The body of WR_BITS (R116; N > 32 is R96). -/
def bodyWrBits (n : BitVec 6) (s : State) : Res State Unit :=
  if countOk n then
    (writeBits (countOperand n) (valueOperand (countOperand n) s.value) s.snk).within fun k => { s with snk := k }
  else .err .illegalCommand s

/-- The body of FLUSH (R117). -/
def bodyFlush (s : State) : Res State Unit := (flushBits s.snk).within fun k => { s with snk := k }

/-- The body of RD_INIT (R118). -/
def bodyRdInit (s : State) : Res State Unit :=
  (fetch { s.src with srcPos := 0, rbuf := 0, rcnt := 0, reof := false, rdValid := true }).within
    fun q => { s with src := q }

/-- The body of RD_BIT (R119). -/
def bodyRdBit (s : State) : Res State Unit :=
  if s.src.rdValid then
    ((readBit s.src).within fun q => { s with src := q }).bind fun b s' =>
      .ok () { s' with value := (BitVec.ofBool b).setWidth 32 }
  else .err .illegalCommand s

/-- The body of RD_BITS (R120; N > 32, R96, is checked first, R101). -/
def bodyRdBits (n : BitVec 6) (s : State) : Res State Unit :=
  if countOk n then
    if s.src.rdValid then
      ((readBits (countOperand n) s.src).within fun q => { s with src := q }).bind fun v s' =>
        .ok () { s' with value := v }
    else .err .illegalCommand s
  else .err .illegalCommand s

/-- WR_BITS (R116). -/
def execWrBits (n : BitVec 6) (s : State) : Host.Outcome State Fault Refusal := finish (bodyWrBits n s)

/-- FLUSH (R117). -/
def execFlush (s : State) : Host.Outcome State Fault Refusal := finish (bodyFlush s)

/-- RD_INIT (R118). -/
def execRdInit (s : State) : Host.Outcome State Fault Refusal := finish (bodyRdInit s)

/-- RD_BIT (R119). -/
def execRdBit (s : State) : Host.Outcome State Fault Refusal := finish (bodyRdBit s)

/-- RD_BITS (R120). -/
def execRdBits (n : BitVec 6) (s : State) : Host.Outcome State Fault Refusal := finish (bodyRdBits n s)

end Sys2Proof.Machine
end

