-- ==== Sys2Proof/Machine/CodeTable.lean ====
section
/-! DEFINITION. Machine/CodeTable.lean: the code-table generator (43_code_table.md): GENCODES. -/

namespace Sys2Proof.Machine

/-- visit(i, p) of R170, with at most `n` nodes on a path: every leaf under node i takes the bits of the path to it, 0 for a
left edge and 1 for a right edge. none: a path goes on past `n` nodes. -/
def visit (t : Tree) : Nat → NodeIx → Code → CodeMap → Option CodeMap
  | 0, _, _, _ => none
  | n + 1, i, p, c =>
    if (t.node i).leaf then some (c.setCode (t.node i).sym p)
    else
      match visit t n (t.node i).left (p ++ [false]) c with
      | some c' => visit t n (t.node i).right (p ++ [true]) c'
      | none => none

/-- The code table of a tree (R170): a tree of one leaf gives its symbol the one-bit code 0 (R171). -/
def Tree.genCodes (t : Tree) : Option CodeMap :=
  if (t.node t.root).leaf then some (CodeMap.empty.setCode (t.node t.root).sym [false])
  else visit t Config.nodeMax t.root [] CodeMap.empty

/-- The body of GENCODES (R170). -/
def bodyGencodes (s : State) : Res State Unit :=
  if s.tree.treeValid then
    match s.tree.genCodes with
    | some c => .ok () { s with codes := c, codesValid := true }
    | none => .stuck .treeWalkUnbounded
  else .err .illegalCommand s

/-- GENCODES (R170). -/
def execGencodes (s : State) : Host.Outcome State Fault Refusal := finish (bodyGencodes s)

end Sys2Proof.Machine
end

