-- ==== Sys2Proof/Machine/Control.lean ====
section
/-! DEFINITION. Machine/Control.lean: CLEAR, the only system command (46_session_control.md R202, R207). -/

namespace Sys2Proof.Machine

/-- The tree side of CLEAR: the arena and the tree registers <- 0 (R202). -/
def Tree.clear (t : Tree) : Tree :=
  { t with nodes := Vector.replicate 511 Node.zero, treeValid := false, nLeaves := 0, nNodes := 0, root := 0 }

/-- The body of CLEAR (R202), the error state left last (R26). -/
def bodyClear (s : State) : Res State Unit :=
  .ok ()
    (leaveError
      { s with
        freq := FreqTable.zero
        tree := s.tree.clear
        codes := CodeMap.empty
        codesValid := false
        snk := { s.snk with wacc := 0, wcnt := 0, outCount := 0 }
        src := s.src.rewind
        symCnt := 0 })

/-- CLEAR (R202). -/
def execClear (s : State) : Host.Outcome State Fault Refusal := finish (bodyClear s)

end Sys2Proof.Machine
end

