-- ==== Sys2Proof/Machine/FreqHeader.lean ====
section
/-! DEFINITION. Machine/FreqHeader.lean: frequency counting and the header codec (41_frequency_header.md): COUNT, HDR_WRITE
and HDR_READ. -/

namespace Sys2Proof.Machine

-- COUNT

/-- The loop of COUNT (R132), with `n` input bytes left before the source answers `eof`. -/
def countLoop : Nat → Source × FreqTable → Res (Source × FreqTable) Unit
  | 0, (q, f) => .ok () (q, f)
  | n + 1, (q, f) =>
    match srcRead q.srcPos q with
    | (.eof, q') => .ok () (q', f)
    | (.err, q') => .err .ioError (q', f)
    | (.ok b, q') => countLoop n ({ q' with srcPos := q'.srcPos + 1 }, f.setEntry b (f.entry b + 1))

/-- The body of COUNT (R132): FREQ cleared (and with it the valid bits, R35), the reader reset, then one scan of IN. -/
def bodyCount (s : State) : Res State Unit :=
  (countLoop s.src.inLen.toNat (s.src.rewind, FreqTable.zero)).within
    fun p => { s.withFreq p.2 with src := p.1 }

-- HDR_WRITE

/-- Pass 1 of HDR_WRITE: the 2-bit classes, in symbol order. -/
def writeClasses : List Word → Sink → Res Sink Unit
  | [], k => .ok () k
  | f :: fs, k =>
    match sizeClass f with
    | some c => (writeBits 2 (c.setWidth 32) k).bind fun _ k' => writeClasses fs k'
    | none => .err .frequencyRange k

/-- Pass 2 of HDR_WRITE: the values of every nonzero class, in symbol order. -/
def writeValues : List Word → Sink → Res Sink Unit
  | [], k => .ok () k
  | f :: fs, k =>
    match sizeClass f with
    | some c => (writeBits (classWidth c) f k).bind fun _ k' => writeValues fs k'
    | none => .err .frequencyRange k

/-- Some FREQ entry is 2^32 - 1 (R133, R182, R223). -/
def FreqTable.outOfRange (f : FreqTable) : Bool := f.toList.any fun x => x == Config.unrepresentable

/-- The body of HDR_WRITE (R133): the range check before any bit, then two passes. -/
def bodyHdrWrite (s : State) : Res State Unit :=
  if s.freq.outOfRange then .err .frequencyRange s
  else
    ((writeClasses s.freq.toList s.snk).bind fun _ k => writeValues s.freq.toList k).within
      fun k => { s with snk := k }

-- HDR_READ

/-- Pass 1 of HDR_READ: `n` more 2-bit classes into CLS, `acc` those read so far (R45, R134). -/
def readClasses : Nat → List (BitVec 2) → Source → Res (Source × List (BitVec 2)) Unit
  | 0, acc, q => .ok () (q, acc)
  | n + 1, acc, q =>
    match readBits 2 q with
    | .ok v q' => readClasses n (acc ++ [v.setWidth 2]) q'
    | .err k q' => .err k (q', acc)
    | .stuck x => .stuck x

/-- Pass 2 of HDR_READ: the value of every nonzero class, from symbol `b` on. A value is stored as read, with no check that
its class is the smallest (R134). -/
def readValues : List (BitVec 2) → Nat → Source × FreqTable → Res (Source × FreqTable) Unit
  | [], _, p => .ok () p
  | c :: cs, b, (q, f) =>
    if c = 0 then readValues cs (b + 1) (q, f)
    else
      match readBits (classWidth c) q with
      | .ok v q' => readValues cs (b + 1) (q', f.setEntry (BitVec.ofNat 8 b) v)
      | .err k q' => .err k (q', f)
      | .stuck x => .stuck x

/-- Pass 1 over the state: CLS is the buffer of the classes read (R45). -/
def hdrClasses (s : State) : Res State Unit :=
  (readClasses 256 [] s.src).within fun p => { s with src := p.1, cls := some p.2 }

/-- Pass 2 over the state: FREQ takes the values CLS calls for, and CLS is used up (R45). -/
def hdrValues (s : State) : Res State Unit :=
  (readValues (s.cls.getD []) 0 (s.src, s.freq)).within fun p => { s with src := p.1, freq := p.2, cls := none }

/-- The body of HDR_READ (R134): FREQ cleared (and with it the valid bits, R35), then two passes. -/
def bodyHdrRead (s : State) : Res State Unit :=
  if s.src.rdValid then (hdrClasses (s.withFreq FreqTable.zero)).bind fun _ s' => hdrValues s'
  else .err .illegalCommand s

-- The commands

/-- COUNT (R132). -/
def execCount (s : State) : Host.Outcome State Fault Refusal := finish (bodyCount s)

/-- HDR_WRITE (R133). -/
def execHdrWrite (s : State) : Host.Outcome State Fault Refusal := finish (bodyHdrWrite s)

/-- HDR_READ (R134). -/
def execHdrRead (s : State) : Host.Outcome State Fault Refusal := finish (bodyHdrRead s)

end Sys2Proof.Machine
end

