-- ==== Sys2Proof/Machine/TreeBuild.lean ====
section
/-! DEFINITION. Machine/TreeBuild.lean: the tree builder (42_tree_builder.md): BUILD, its merge order and its tie-break. -/

namespace Sys2Proof.Machine

/-- `(w1, i1) < (w2, i2)` iff w1 < w2, or w1 = w2 and i1 < i2 (R152). -/
def PqEntry.lt (x y : PqEntry) : Bool := decide (x.w.toNat < y.w.toNat ∨ (x.w = y.w ∧ x.ix.toNat < y.ix.toNat))

/-- PQ with one more pair, kept in the order of R152 so that extractMin takes the head. -/
def pqInsert (e : PqEntry) : List PqEntry → List PqEntry
  | [] => [e]
  | x :: q => if e.lt x then e :: x :: q else x :: pqInsert e q

/-- The next new node: NODE[NNODES] <- n, its pair goes into PQ, and NNODES counts it. While BUILD runs, NNODES is the
pseudocode's `i` and then its `next` (R150): the number of arena entries in use (R37). -/
def Tree.addNode (t : Tree) (q : List PqEntry) (n : Node) : Tree :=
  { t.putNode t.nNodes n with pq := some (pqInsert { w := n.w, ix := t.nNodes } q), nNodes := t.nNodes + 1 }

/-- A leaf of symbol `b` and frequency `f` (R150, R160). -/
def leafNode (b : Nat) (f : Word) : Node :=
  { w := f.setWidth 64, leaf := true, sym := BitVec.ofNat 8 b, left := 0, right := 0 }

/-- The leaves of the symbols from `b` on, in ascending symbol order (R150, R151). -/
def addLeaves : List Word → Nat → Tree → Tree
  | [], _, t => t
  | f :: fs, b, t => addLeaves fs (b + 1) (if f = 0 then t else t.addNode (t.pq.getD []) (leafNode b f))

/-- The arena with every entry 0, no node in use, and PQ empty (R150). -/
def Tree.blank : Tree :=
  { nodes := Vector.replicate 511 Node.zero, treeValid := false, nLeaves := 0, nNodes := 0, root := 0, pq := some [] }

/-- BUILD up to the last leaf: TREE_VALID is 0, the arena holds the k leaves and nothing else, and PQ holds their pairs
(R150). -/
def Tree.start (f : FreqTable) : Tree :=
  let t := addLeaves f.toList 0 Tree.blank
  { t with nLeaves := t.nNodes }

/-- The internal node over `x` and `y`, the first and the second pair extracted: left child and right child (R150, R153). -/
def Tree.innerNode (t : Tree) (x y : PqEntry) : Node :=
  { w := (t.node x.ix).w + (t.node y.ix).w, leaf := false, sym := 0, left := x.ix, right := y.ix }

/-- One round of `while |PQ| > 1` (R150): the two least pairs are extracted and merged. With fewer than two, nothing. -/
def Tree.merge (t : Tree) : Tree :=
  match t.pq with
  | some (x :: y :: q) => t.addNode q (t.innerNode x y)
  | _ => t

/-- `n` rounds. Each takes one pair off PQ, so as many rounds as PQ has pairs run the loop to its end. -/
def Tree.mergeRounds : Nat → Tree → Tree
  | 0, t => t
  | n + 1, t => Tree.mergeRounds n t.merge

/-- The end of BUILD: ROOT is the index of the one pair left, which is then discarded (R43, R150). -/
def Tree.finishBuild (t : Tree) : Tree :=
  { t with root := ((t.pq.getD []).head?.map PqEntry.ix).getD 0, treeValid := true, pq := none }

/-- The tree BUILD makes, a function of FREQ alone (R150, R156). -/
def Tree.build (f : FreqTable) : Tree :=
  let t := Tree.start f
  (Tree.mergeRounds (t.pq.getD []).length t).finishBuild

/-- Some FREQ entry is nonzero (R150: k > 0). -/
def FreqTable.nonzero (f : FreqTable) : Bool := f.toList.any fun x => x != 0

/-- The body of BUILD (R150). -/
def bodyBuild (s : State) : Res State Unit :=
  if s.freq.nonzero then .ok () { s with tree := Tree.build s.freq, codesValid := false }
  else .err .emptyInput s

/-- BUILD (R150). -/
def execBuild (s : State) : Host.Outcome State Fault Refusal := finish (bodyBuild s)

end Sys2Proof.Machine
end

