-- ==== Sys2Proof/Machine/Encoder.lean ====
section
/-! DEFINITION. Machine/Encoder.lean: the encoder (44_encoder.md): ENC_PAYLOAD and the pipeline ENCODE. -/

namespace Sys2Proof.Machine

/-- One byte the source delivered (R180): SRC_POS advances first (90_conflicts.md C10), then a byte with no code raises
UncodedSymbol, then its code is written and SYMCNT counts it. -/
def encodeByte (c : CodeMap) (b : Byte) (x : Stream) : Res Stream Unit :=
  let x1 : Stream := { x with src := { x.src with srcPos := x.src.srcPos + 1 } }
  if c.code b = [] then .err .uncodedSymbol x1
  else
    ((writeSeq (c.code b) x1.snk).within fun k => { x1 with snk := k }).bind fun _ x2 =>
      .ok () { x2 with symCnt := x2.symCnt + 1 }

/-- The loop of ENC_PAYLOAD (R180), with `n` input bytes left before the source answers `eof`. -/
def encodeLoop (c : CodeMap) : Nat → Stream → Res Stream Unit
  | 0, x => .ok () x
  | n + 1, x =>
    match srcRead x.src.srcPos x.src with
    | (.eof, q) => .ok () { x with src := q }
    | (.err, q) => .err .ioError { x with src := q }
    | (.ok b, q) => (encodeByte c b { x with src := q }).bind fun _ x' => encodeLoop c n x'

/-- The body of ENC_PAYLOAD (R180). -/
def bodyEncPayload (s : State) : Res State Unit :=
  if s.codesValid then
    (encodeLoop s.codes s.src.inLen.toNat { s.stream with src := s.src.rewind, symCnt := 0 }).within s.withStream
  else .err .illegalCommand s

/-- The first line of ENCODE and of DECODE: WACC, WCNT, OUT_COUNT and SYMCNT <- 0 (R181, R192). -/
def State.freshSession (s : State) : State :=
  { s with snk := { s.snk with wacc := 0, wcnt := 0, outCount := 0 }, symCnt := 0 }

/-- ENCODE's checks (R182): EmptyInput first, then FrequencyRange. -/
def encodeChecks (s : State) : Res State Unit :=
  if s.freq.total = 0 then .err .emptyInput s
  else if s.freq.outOfRange then .err .frequencyRange s
  else .ok () s

/-- The body of ENCODE (R181): the stages in order, each named in STAGE while it runs. -/
def bodyEncode (s : State) : Res State Unit :=
  (bodyCount (s.freshSession.enterStage 0x07)).bind fun _ s1 =>
  (encodeChecks (s1.enterStage 0x0E)).bind fun _ s2 =>
  (bodyHdrWrite (s2.enterStage 0x08)).bind fun _ s3 =>
  (bodyBuild (s3.enterStage 0x0A)).bind fun _ s4 =>
  (bodyGencodes (s4.enterStage 0x0B)).bind fun _ s5 =>
  (bodyEncPayload (s5.enterStage 0x0C)).bind fun _ s6 =>
  bodyFlush (s6.enterStage 0x03)

/-- ENC_PAYLOAD (R180). -/
def execEncPayload (s : State) : Host.Outcome State Fault Refusal := finish (bodyEncPayload s)

/-- ENCODE (R181). -/
def execEncode (s : State) : Host.Outcome State Fault Refusal := finish (bodyEncode s)

end Sys2Proof.Machine
end

