-- ==== Sys2Proof/Machine/Decoder.lean ====
section
/-! DEFINITION. Machine/Decoder.lean: the decoder (45_decoder.md): DEC_PAYLOAD and the pipeline DECODE. -/

namespace Sys2Proof.Machine

/-- One symbol goes straight to the sink, and SYMCNT counts it (R190). -/
def emitSymbol (b : Byte) (x : Stream) : Res Stream Unit :=
  ((sinkWrite b x.snk).within fun k => { x with snk := k }).bind fun _ x' => .ok () { x' with symCnt := x'.symCnt + 1 }

/-- What one bit of the walk does (R190). A tree of one leaf emits its symbol whatever the bit (R191). -/
def walkBit (t : Tree) (b : Bool) (x : Stream) : Res Stream Unit :=
  if (t.node t.root).leaf then emitSymbol (t.node t.root).sym x
  else
    let here := t.node (x.cur.getD t.root)
    let next := if b then here.right else here.left
    if (t.node next).leaf then
      (emitSymbol (t.node next).sym { x with cur := some next }).bind fun _ x' => .ok () { x' with cur := some t.root }
    else .ok () { x with cur := some next }

/-- The loop of DEC_PAYLOAD (R190): `while SYMCNT < T`, with `n` bits left in the reader and the source together. With none
left, the bit the walk demands is past the end of the stream (R195). -/
def walkLoop (t : Tree) (total : Wide) : Nat → Stream → Res Stream Unit
  | 0, x => if total.toNat ≤ x.symCnt.toNat then .ok () x else .err .truncatedStream x
  | n + 1, x =>
    if total.toNat ≤ x.symCnt.toNat then .ok () x
    else
      ((readBit x.src).within fun q => { x with src := q }).bind fun b x1 =>
        (walkBit t b x1).bind fun _ x2 => walkLoop t total n x2

/-- The bits the reader can still deliver: its own, and those of the bytes it has not fetched. -/
def Source.bitsAhead (q : Source) : Nat := q.rcnt.toNat + 8 * (q.inLen.toNat - q.srcPos.toNat)

/-- The walk of DEC_PAYLOAD from ROOT, where CUR starts; CUR does not outlive it (R44). -/
def decodeWalk (s : State) : Res State Unit :=
  (walkLoop s.tree s.freq.total s.src.bitsAhead { s.stream with cur := some s.tree.root }).within
    fun x => s.withStream { x with cur := none }

/-- The body of DEC_PAYLOAD (R190): a zero total ends it before the reader and the tree are checked (R193); the check comes before
the first change of state, so a missing reader or tree changes nothing but STATUS (R228, ruling D33; log entry 10); then
SYMCNT <- 0 and the walk. -/
def bodyDecPayload (s : State) : Res State Unit :=
  if s.freq.total = 0 then .ok () { s with symCnt := 0 }
  else if s.src.rdValid && s.tree.treeValid then decodeWalk { s with symCnt := 0 }
  else .err .illegalCommand s

/-- The body of DECODE (R192): a zero total ends it before BUILD (R193). -/
def bodyDecode (s : State) : Res State Unit :=
  (bodyRdInit (s.freshSession.enterStage 0x04)).bind fun _ s1 =>
  (bodyHdrRead (s1.enterStage 0x09)).bind fun _ s2 =>
  if s2.freq.total = 0 then .ok () s2
  else
    (bodyBuild (s2.enterStage 0x0A)).bind fun _ s3 =>
    bodyDecPayload (s3.enterStage 0x0D)

/-- DEC_PAYLOAD (R190). -/
def execDecPayload (s : State) : Host.Outcome State Fault Refusal := finish (bodyDecPayload s)

/-- DECODE (R192). -/
def execDecode (s : State) : Host.Outcome State Fault Refusal := finish (bodyDecode s)

end Sys2Proof.Machine
end

