-- ==== Sys2Proof/Machine/Dispatch.lean ====
section
/-! DEFINITION. Machine/Dispatch.lean: one arm per command, each one call of its meaning. -/

namespace Sys2Proof.Machine

/-- The meaning of an accepted command (30_encoding.md R94, R101). -/
def exec (i : Instr) (s : State) : Host.Outcome State Fault Refusal :=
  match i with
  | .clear => Sys2Proof.Machine.execClear s
  | .wrBits n => Sys2Proof.Machine.execWrBits n s
  | .flush => Sys2Proof.Machine.execFlush s
  | .rdInit => Sys2Proof.Machine.execRdInit s
  | .rdBit => Sys2Proof.Machine.execRdBit s
  | .rdBits n => Sys2Proof.Machine.execRdBits n s
  | .count => Sys2Proof.Machine.execCount s
  | .hdrWrite => Sys2Proof.Machine.execHdrWrite s
  | .hdrRead => Sys2Proof.Machine.execHdrRead s
  | .build => Sys2Proof.Machine.execBuild s
  | .gencodes => Sys2Proof.Machine.execGencodes s
  | .encPayload => Sys2Proof.Machine.execEncPayload s
  | .decPayload => Sys2Proof.Machine.execDecPayload s
  | .encode => Sys2Proof.Machine.execEncode s
  | .decode => Sys2Proof.Machine.execDecode s

end Sys2Proof.Machine
end

