-- ==== Sys2Proof/Decode.lean ====
section
/-! DEFINITION. Decode.lean: the command word (30_encoding.md R90 to R101) and its decoder, total on every 32-bit word, then
the encoder. -/

namespace Sys2Proof

/-- OP, bits 7:0 of a command word (R91). -/
def wordOp (w : Word) : BitVec 8 := w.extractLsb' 0 8

/-- N, bits 13:8 of a command word (R91, R92). -/
def wordCount (w : Word) : BitVec 6 := w.extractLsb' 8 6

/-- A command whose word carries a count, or the reason its word is illegal (R96). -/
def decodeCounted (f : BitVec 6 → Instr) (n : BitVec 6) : Decoded :=
  if countOk n then .command (f n) else .illegal (.countTooLarge n)

/-- The command a word stands for (R94, R101): OP alone selects it, then N is read for WR_BITS and RD_BITS. Bits 31:14,
and N of every other command, are ignored (R97). -/
def decode (w : Word) : Decoded :=
  match (wordOp w).toNat with
  | 0x01 => .command .clear
  | 0x02 => decodeCounted .wrBits (wordCount w)
  | 0x03 => .command .flush
  | 0x04 => .command .rdInit
  | 0x05 => .command .rdBit
  | 0x06 => decodeCounted .rdBits (wordCount w)
  | 0x07 => .command .count
  | 0x08 => .command .hdrWrite
  | 0x09 => .command .hdrRead
  | 0x0A => .command .build
  | 0x0B => .command .gencodes
  | 0x0C => .command .encPayload
  | 0x0D => .command .decPayload
  | 0x0E => .command .encode
  | 0x0F => .command .decode
  | _ => .illegal (.reservedOp (wordOp w))

/-- The OP of a command (R94). -/
def Instr.op : Instr → BitVec 8
  | .clear => 0x01#8
  | .wrBits _ => 0x02#8
  | .flush => 0x03#8
  | .rdInit => 0x04#8
  | .rdBit => 0x05#8
  | .rdBits _ => 0x06#8
  | .count => 0x07#8
  | .hdrWrite => 0x08#8
  | .hdrRead => 0x09#8
  | .build => 0x0A#8
  | .gencodes => 0x0B#8
  | .encPayload => 0x0C#8
  | .decPayload => 0x0D#8
  | .encode => 0x0E#8
  | .decode => 0x0F#8

/-- The N field an encoder writes: the count of WR_BITS and RD_BITS, and 0 where N is ignored (R97). -/
def Instr.countField : Instr → BitVec 6
  | .wrBits n => n
  | .rdBits n => n
  | .clear => 0
  | .flush => 0
  | .rdInit => 0
  | .rdBit => 0
  | .count => 0
  | .hdrWrite => 0
  | .hdrRead => 0
  | .build => 0
  | .gencodes => 0
  | .encPayload => 0
  | .decPayload => 0
  | .encode => 0
  | .decode => 0

/-- The word a host writes to CMD for a command: `(n << 8) | OP`, the ignored bits 0 (R91, R99). -/
def encode (i : Instr) : Word := 0#18 ++ i.countField ++ i.op

/-- The bits of a command word that its decoding reads: OP, and N for WR_BITS and RD_BITS (R91, R97). -/
def Instr.wordMask : Instr → Word
  | .wrBits _ => 0x3FFF#32
  | .rdBits _ => 0x3FFF#32
  | .clear => 0xFF#32
  | .flush => 0xFF#32
  | .rdInit => 0xFF#32
  | .rdBit => 0xFF#32
  | .count => 0xFF#32
  | .hdrWrite => 0xFF#32
  | .hdrRead => 0xFF#32
  | .build => 0xFF#32
  | .gencodes => 0xFF#32
  | .encPayload => 0xFF#32
  | .decPayload => 0xFF#32
  | .encode => 0xFF#32
  | .decode => 0xFF#32

/-- The 32-bit command word whose low `nbits` bits are those of `w` and whose other bits are 0 (the table's numbering:
bit 0 is the word's least significant bit, R10; a command is one word, R90). -/
def tableWord (nbits w : Nat) : Word := BitVec.ofNat 32 (w % 2 ^ nbits)

/-- What the decoder reads from a row's word as spec/opcode_table.json numbers its bits. -/
def decodeTableWord (nbits w : Nat) : Option Instr :=
  match decode (tableWord nbits w) with
  | .command i => some i
  | .illegal _ => none

end Sys2Proof
end

