-- ==== Sys2Proof/Machine/Window.lean ====
section
/-! DEFINITION. Machine/Window.lean: the register window (10_state.md R23): which register stands at which offset, how a
register is laid out when the host reads it (R204), and what a host write does to it while the block is idle (R203). -/

namespace Sys2Proof.Machine

/-- A register of the window (R23). -/
inductive Reg where
  | id
  | cmd
  | status
  | value
  | inLen
  | outCountLo
  | outCountHi
  | srcPosLo
  | srcPosHi
  | symCntLo
  | symCntHi
  | totalLo
  | totalHi
  | wstate
  | rstate
  | tstate
  | tree
  | nodeSel
  | nodeInfo
  | nodeWLo
  | nodeWHi
  | codeSel
  | codeLen
  | codeW (j : BitVec 3)
  | freq (s : Byte)
deriving DecidableEq, Repr

/-- A register's offset from BASE (R23). -/
def Reg.offset : Reg → Nat
  | .id => 0x000
  | .cmd => 0x004
  | .status => 0x008
  | .value => 0x00C
  | .inLen => 0x010
  | .outCountLo => 0x014
  | .outCountHi => 0x018
  | .srcPosLo => 0x01C
  | .srcPosHi => 0x020
  | .symCntLo => 0x024
  | .symCntHi => 0x028
  | .totalLo => 0x02C
  | .totalHi => 0x030
  | .wstate => 0x034
  | .rstate => 0x038
  | .tstate => 0x03C
  | .tree => 0x040
  | .nodeSel => 0x044
  | .nodeInfo => 0x048
  | .nodeWLo => 0x04C
  | .nodeWHi => 0x050
  | .codeSel => 0x054
  | .codeLen => 0x058
  | .codeW j => 0x05C + 4 * j.toNat
  | .freq s => 0x400 + 4 * s.toNat

/-- The registers below 0x05C, by word number (R23). -/
def lowReg : Nat → Option Reg
  | 0 => some .id
  | 1 => some .cmd
  | 2 => some .status
  | 3 => some .value
  | 4 => some .inLen
  | 5 => some .outCountLo
  | 6 => some .outCountHi
  | 7 => some .srcPosLo
  | 8 => some .srcPosHi
  | 9 => some .symCntLo
  | 10 => some .symCntHi
  | 11 => some .totalLo
  | 12 => some .totalHi
  | 13 => some .wstate
  | 14 => some .rstate
  | 15 => some .tstate
  | 16 => some .tree
  | 17 => some .nodeSel
  | 18 => some .nodeInfo
  | 19 => some .nodeWLo
  | 20 => some .nodeWHi
  | 21 => some .codeSel
  | 22 => some .codeLen
  | _ => none

/-- The register at an offset of the window that is a multiple of 4; none at the reserved ones, 0x07C to 0x3FC (R23). -/
def regAt (off : Nat) : Option Reg :=
  if off < 0x05C then lowReg (off / 4)
  else if off < 0x07C then some (.codeW (BitVec.ofNat 3 ((off - 0x05C) / 4)))
  else if off < 0x400 then none
  else some (.freq (BitVec.ofNat 8 ((off - 0x400) / 4)))

/-- Bits 31:0 of a 64-bit value (R77 LO). -/
def loWord (v : Wide) : Word := v.extractLsb' 0 32

/-- Bits 63:32 of a 64-bit value (R77 HI). -/
def hiWord (v : Wide) : Word := v.extractLsb' 32 32

/-- WSTATE: WACC[7:0], WCNT[10:8] (R23). -/
def Sink.wstate (k : Sink) : Word := 0#21 ++ k.wcnt ++ k.wacc

/-- RSTATE: RBUF[7:0], RCNT[11:8], REOF[12], RD_VALID[13] (R23). -/
def Source.rstate (q : Source) : Word := 0#18 ++ BitVec.ofBool q.rdValid ++ BitVec.ofBool q.reof ++ q.rcnt ++ q.rbuf

/-- TSTATE: TREE_VALID[0], CODES_VALID[1], NLEAVES[24:16] (R23). -/
def State.tstate (s : State) : Word :=
  0#7 ++ s.tree.nLeaves ++ 0#14 ++ BitVec.ofBool s.codesValid ++ BitVec.ofBool s.tree.treeValid

/-- TREE: NNODES[8:0], ROOT[24:16] (R23). -/
def Tree.word (t : Tree) : Word := 0#7 ++ t.root ++ 0#7 ++ t.nNodes

/-- NODE_INFO: LEFT[8:0], RIGHT[17:9], SYM[25:18], LEAF[31] (R23, R38). -/
def Node.info (n : Node) : Word := BitVec.ofBool n.leaf ++ 0#5 ++ n.sym ++ n.right ++ n.left

/-- A word whose bits from 31 down are the given ones, at most 32 of them. -/
def packBits (bs : List Bool) : Word :=
  bs.foldl (fun v b => (v <<< 1) ||| (BitVec.ofBool b).setWidth 32) 0

/-- CODE_Wj: bit 31 - i is c(32j + i) of the code, and 0 past its end (R40). -/
def codeWord (c : Code) (j : Nat) : Word := packBits ((List.range 32).map fun i => c.getD (32 * j + i) false)

/-- What a host read of a register returns while the block is idle (R204): the current value, laid out as R23 says. -/
def readReg (s : State) : Reg → Word
  | .id => Config.idValue
  | .cmd => s.cmd.setWidth 32
  | .status => s.status.word
  | .value => s.value
  | .inLen => s.src.inLen
  | .outCountLo => loWord s.snk.outCount
  | .outCountHi => hiWord s.snk.outCount
  | .srcPosLo => loWord s.src.srcPos
  | .srcPosHi => hiWord s.src.srcPos
  | .symCntLo => loWord s.symCnt
  | .symCntHi => hiWord s.symCnt
  | .totalLo => loWord s.freq.total
  | .totalHi => hiWord s.freq.total
  | .wstate => s.snk.wstate
  | .rstate => s.src.rstate
  | .tstate => s.tstate
  | .tree => s.tree.word
  | .nodeSel => s.nodeSel.setWidth 32
  | .nodeInfo => (s.tree.node s.nodeSel).info
  | .nodeWLo => loWord (s.tree.node s.nodeSel).w
  | .nodeWHi => hiWord (s.tree.node s.nodeSel).w
  | .codeSel => s.codeSel.setWidth 32
  | .codeLen => (BitVec.ofNat 8 (s.codes.code s.codeSel).length).setWidth 32
  | .codeW j => codeWord (s.codes.code s.codeSel) j.toNat
  | .freq b => s.freq.entry b

/-- What a host write of a register other than CMD does while the block is idle (R203): a FREQ write clears the valid bits
(R35), a write to a read-only register is ignored (R47). A CMD write is `hostWrite`'s. -/
def writeReg (s : State) (v : Word) : Reg → State
  | .value => { s with value := v }
  | .inLen => { s with src := { s.src with inLen := v } }
  | .nodeSel => { s with nodeSel := v.extractLsb' 0 9 }
  | .codeSel => { s with codeSel := v.extractLsb' 0 8 }
  | .freq b => s.withFreq (s.freq.setEntry b v)
  | .id => s
  | .cmd => s
  | .status => s
  | .outCountLo => s
  | .outCountHi => s
  | .srcPosLo => s
  | .srcPosHi => s
  | .symCntLo => s
  | .symCntHi => s
  | .totalLo => s
  | .totalHi => s
  | .wstate => s
  | .rstate => s
  | .tstate => s
  | .tree => s
  | .nodeInfo => s
  | .nodeWLo => s
  | .nodeWHi => s
  | .codeLen => s
  | .codeW _ => s

end Sys2Proof.Machine
end

