-- ==== Sys2Proof/Machine/Session.lean ====
section
/-! DEFINITION. Machine/Session.lean: session control and host access (46_session_control.md): how a CMD write is accepted or
rejected (R200, R201), what the host's other accesses do, idle (R203, R204) and busy (R48), the platform's load of IN (R85)
and the reset input (R250), and the step made of them. -/

namespace Sys2Proof.Machine

/-- Acceptance of a command word (R200): CMD <- w & 0x3FFF, BUSY <- 1, DONE <- 0, REJ <- 0, STAGE <- w[7:0]. -/
def accept (w : Word) (s : State) : State :=
  { s with cmd := w.setWidth 14, status := s.status.accept, stage := some (wordOp w) }

/-- A CMD write is rejected while BUSY = 1, and while ERR = 1 unless its OP is CLEAR's (R200, R201). -/
def rejects (s : State) (w : Word) : Bool := s.status.busy || (s.status.err && wordOp w != 0x01#8)

/-- Rejection: STATUS.REJ <- 1, nothing else (R201). -/
def reject (s : State) : State := { s with status := s.status.reject }

/-- A host access the block admits: one aligned word inside the window (R76). -/
def admitted (base addr width : Nat) : Bool :=
  width == 4 && decide (base ≤ addr) && decide (addr - base < Config.windowBytes) && (addr - base) % 4 == 0

/-- What a host operation comes to: it is over, the model makes no such move, or it starts the command of an accepted word. -/
inductive HostAct where
  | done (s : State)
  | refuse (r : Refusal)
  | issue (w : Word) (s : State)
deriving DecidableEq, Repr

/-- A write at an offset of the window (R200, R201, R203; ignored while BUSY = 1, R48, and at a reserved offset, R47). -/
def hostWrite (s : State) (off : Nat) (v : Word) : HostAct :=
  match regAt off with
  | some .cmd => if rejects s v then .done (reject s) else .issue v (accept v s)
  | some r => if s.status.busy then .done s else .done (writeReg s v r)
  | none => .done s

/-- The value a read returns while the block is idle: a reserved offset reads 0 (R47). -/
def idleRead (s : State) (off : Nat) : Word :=
  match regAt off with
  | some r => readReg s r
  | none => 0

/-- A value returned to the host. -/
def State.logRead (s : State) (v : Word) : State := { s with host := { s.host with readLog := v :: s.host.readLog } }

/-- A read while BUSY = 1 that draws its value (R48). -/
def State.busyDraw (s : State) : State :=
  { s.logRead (Config.busyRead s.host.busyReads) with
    host := { (s.logRead (Config.busyRead s.host.busyReads)).host with busyReads := s.host.busyReads + 1 } }

/-- A read at an offset of the window (R204; while BUSY = 1 only ID and STATUS return their values, R48). It changes nothing
but what the host has learnt (R47, R78). -/
def hostRead (s : State) (off : Nat) : State :=
  if s.status.busy then
    match regAt off with
    | some .id => s.logRead (readReg s .id)
    | some .status => s.logRead (readReg s .status)
    | some _ => s.busyDraw
    | none => s.logRead 0
  else s.logRead (idleRead s off)

/-- The platform's load of IN (R99 LOAD IN): IN's other bytes keep what they held. -/
def State.loadInput (s : State) (start : Nat) (bytes : List Byte) : State :=
  { s with src := { s.src with inBuf := s.src.inBuf.writeAll start bytes } }

/-- The reset input (R250): every piece of the block's state at its reset value; IN, OUT, the platform's parameters and the
host agent are not the block's, and stay. -/
def State.assertReset (s : State) : State :=
  { State.reset with
    src := { Source.reset with inBuf := s.src.inBuf, faults := s.src.faults }
    snk := { Sink.reset with outBuf := s.snk.outBuf, outCap := s.snk.outCap, faults := s.snk.faults }
    host := s.host }

/-- One operation of the host or the platform, already taken off the script. -/
def hostAct (op : HostOp) (s : State) : HostAct :=
  match op with
  | .memWrite addr width v =>
    if admitted s.host.base addr width then hostWrite s (addr - s.host.base) v
    else .refuse (.hostAccessNotAdmitted addr width)
  | .memRead addr width =>
    if admitted s.host.base addr width then .done (hostRead s (addr - s.host.base))
    else .refuse (.hostAccessNotAdmitted addr width)
  | .wait =>
    if s.status.busy then .done { s with host := { s.host with script := .wait :: s.host.script } } else .done s
  | .loadIn start bytes =>
    if s.status.busy then .refuse .inputChangedWhileBusy
    else if Config.inMax < start + bytes.length then .refuse .inputIndexTooLarge
    else .done (s.loadInput start bytes)
  | .reset => .done s.assertReset

/-- The command of an accepted word, run whole (R101, R262): `run` gives each command its meaning; an illegal word aborts with
IllegalCommand before any other change (R95, R96). -/
def runWord (run : Instr → State → Host.Outcome State Fault Refusal) (w : Word) (s : State) :
    Host.Outcome State Fault Refusal :=
  match decode w with
  | .command i => run i s
  | .illegal _ => .next (abort .illegalCommand s)

/-- What a host operation's result means for the step. -/
def settleAct (run : Instr → State → Host.Outcome State Fault Refusal) (a : HostAct) :
    Host.Outcome State Fault Refusal :=
  match a with
  | .done s => .next s
  | .refuse r => .refused r
  | .issue w s => runWord run w s

/-- The state once the host's next operation is taken off the script. -/
def State.dropOp (s : State) : State := { s with host := { s.host with script := s.host.script.tail } }

/-- One step of the two agents (R20, R262): the host's next operation, and with it the whole of the command it starts. With no
operation left the block waits, unchanged (R251). -/
def hostStep (run : Instr → State → Host.Outcome State Fault Refusal) (s : State) : Host.Outcome State Fault Refusal :=
  match s.host.script with
  | [] => .next s
  | op :: _ => settleAct run (hostAct op s.dropOp)

/-- The host writes `w` to CMD next. -/
def State.issueNext (s : State) (w : Word) : State :=
  { s with host := { s.host with script := .memWrite (s.host.base + Reg.cmd.offset) 4 w :: s.host.script } }

end Sys2Proof.Machine
end

