-- ==== Sys2Proof/Machine/Script.lean ====
section
/-! DEFINITION. Machine/Script.lean: host scripts (30_encoding.md R99) and the pseudo-operations, whose expansion is their
meaning (R100). -/

namespace Sys2Proof.Machine

/-- A line of a host script (R99). -/
inductive ScriptLine where
  /-- `W <reg>, <v>` -/
  | w (reg : Reg) (v : Word)
  /-- `R <reg>` -/
  | r (reg : Reg)
  /-- `CMD <mnemonic>` and `CMD <mnemonic>, <n>` -/
  | cmd (i : Instr)
  /-- `WAIT` -/
  | wait
  /-- `LOAD IN, <bytes>` -/
  | loadIn (bytes : List Byte)
deriving DecidableEq, Repr

/-- What a line does, with the window at `base` (R99). -/
def ScriptLine.op (base : Nat) : ScriptLine → HostOp
  | .w reg v => .memWrite (base + reg.offset) 4 v
  | .r reg => .memRead (base + reg.offset) 4
  | .cmd i => .memWrite (base + Reg.cmd.offset) 4 (encode i)
  | .wait => .wait
  | .loadIn bytes => .loadIn 0 bytes

/-- `RUN <mnemonic>[, <n>]` (R100). -/
def scriptRun (i : Instr) : List ScriptLine := [.cmd i, .wait]

/-- `WRBITS <n>, <v>` (R100). -/
def scriptWrBits (n : BitVec 6) (v : Word) : List ScriptLine := [.w .value v, .cmd (.wrBits n), .wait]

/-- `RDBIT` (R100). -/
def scriptRdBit : List ScriptLine := [.cmd .rdBit, .wait, .r .value]

/-- `RDBITS <n>` (R100). -/
def scriptRdBits (n : BitVec 6) : List ScriptLine := [.cmd (.rdBits n), .wait, .r .value]

/-- `LDFREQ <s>, <v>` (R100). -/
def scriptLdFreq (b : Byte) (v : Word) : List ScriptLine := [.w (.freq b) v]

/-- `INPUT <bytes>` (R100). -/
def scriptInput (bytes : List Byte) : List ScriptLine :=
  [.loadIn bytes, .w .inLen (BitVec.ofNat 32 bytes.length)]

/-- `CHECK` (R100), the read; what it expects of the value is `checkPasses`. -/
def scriptCheck : List ScriptLine := [.r .status]

/-- CHECK expects ERR = 0 and DONE = 1 of the STATUS word it read (R100). -/
def checkPasses (status : Word) : Bool := status.getLsbD 1 && !status.getLsbD 2

/-- The state whose host runs a script next, and then what it still had to do. -/
def State.withScript (s : State) (lines : List ScriptLine) : State :=
  { s with host := { s.host with script := lines.map (ScriptLine.op s.host.base) ++ s.host.script } }

end Sys2Proof.Machine
end

