-- ==== Sys2Proof/Machine/Step.lean ====
section
/-! DEFINITION. Machine/Step.lean: one step of the machine (70_reset_and_hazards.md R262). The block fetches no instructions
(10_state.md R24): a command comes as a word the host writes to CMD, so the next instruction is the next such write in the
host's script. -/

namespace Sys2Proof.Machine

/-- One step: the host's next operation, a CMD write together with the whole command it starts (R262). -/
def step (s : State) : Host.Outcome State Fault Refusal := hostStep exec s

/-- The state whose next step writes the word to CMD. -/
def State.withFetchWord (s : State) (nbits w : Nat) : State := s.issueNext (tableWord nbits w)

end Sys2Proof.Machine
end

