-- ==== Sys2Proof/Safety.lean ====
section
/-! DEFINITION. Safety.lean: the terms claims are made in: the bits a stream holds, what appending to it and taking from it
means, the shape of a tree, and the invariants of an idle block (10_state.md R50). Nothing here is used by the machine. -/

namespace Sys2Proof.Machine

-- Bits

/-- A byte's bits in stream order, b[7] first (R12, R74). -/
def byteBits (b : Byte) : List Bool :=
  [b.getLsbD 7, b.getLsbD 6, b.getLsbD 5, b.getLsbD 4, b.getLsbD 3, b.getLsbD 2, b.getLsbD 1, b.getLsbD 0]

/-- The unsigned number a bit sequence spells, most-significant bit first (R115). -/
def bitsValue (bs : List Bool) : Nat := bs.foldl (fun v b => 2 * v + b.toNat) 0

-- The bit writer

/-- The bits the writer holds back: WACC[WCNT-1:0], the oldest in WACC[WCNT-1] (R41). -/
def Sink.pending (k : Sink) : List Bool := (byteBits k.wacc).drop (8 - k.wcnt.toNat)

/-- WACC's bits at and above WCNT are 0 (R41). -/
def Sink.Clean (k : Sink) : Prop := k.wacc.toNat < 2 ^ k.wcnt.toNat

/-- The next `m` sink writes succeed: OUT has room for them, OUT_COUNT does not pass 64 bits, and no fault is drawn (R73). -/
def Sink.Ready (k : Sink) (m : Nat) : Prop :=
  k.outCount.toNat + m ≤ k.outCap ∧ k.outCount.toNat + m < 2 ^ 64 ∧ ∀ f ∈ k.faults.take m, f = false

/-- The sink after the bytes `xs` went straight to it, each by a SinkWrite that succeeded (R73, R190). -/
def Sink.emitted (k : Sink) (xs : List Byte) : Sink :=
  { k with
    outBuf := k.outBuf.writeAll k.outCount.toNat xs
    outCount := k.outCount + BitVec.ofNat 64 xs.length
    faults := k.faults.drop xs.length }

/-- The next `m` sink writes succeed and the one after them fails: OUT is full, or a fault is drawn (R73). -/
structure Sink.FailsAt (k : Sink) (m : Nat) : Prop where
  ready : k.Ready m
  fails : k.outCap ≤ k.outCount.toNat + m ∨ k.faults.getD m false = true

/-- The sink faults still to be drawn once `m` sink writes have succeeded and the next has failed; a full sink draws none (log
entry 2). -/
def Sink.faultsFailed (k : Sink) (m : Nat) : List Bool :=
  if k.outCap ≤ k.outCount.toNat + m then k.faults.drop m else k.faults.drop (m + 1)

/-- The sink's bytes from index `a` up to OUT_COUNT are `xs` (R30). -/
def Sink.Holds (k : Sink) (a : Nat) (xs : List Byte) : Prop :=
  k.outCount.toNat = a + xs.length ∧ ∀ j, (h : j < xs.length) → k.outBuf.read (a + j) = some xs[j]

/-- The sink as ENCODE and DECODE start it: WACC, WCNT and OUT_COUNT 0 (R181, R192). -/
def Sink.fresh (k : Sink) : Sink := { k with wacc := 0, wcnt := 0, outCount := 0 }

/-- `k'` is `k` after the bits `bs` are appended to its stream (R74, R110, R111): of the pending bits and `bs` together, every
full eight go to OUT as a byte, most-significant bit first, from OUT_COUNT on; the rest stay pending; nothing else of OUT, and
no parameter of the platform, changes. -/
structure Sink.Appended (k : Sink) (bs : List Bool) (k' : Sink) : Prop where
  count : k'.outCount.toNat = k.outCount.toNat + (k.pending ++ bs).length / 8
  bytes : ∀ j, j < (k.pending ++ bs).length / 8 →
    (k'.outBuf.read (k.outCount.toNat + j)).map byteBits = some (((k.pending ++ bs).drop (8 * j)).take 8)
  others : ∀ a, a < k.outCount.toNat ∨ k.outCount.toNat + (k.pending ++ bs).length / 8 ≤ a →
    k'.outBuf.read a = k.outBuf.read a
  rest : k'.pending = (k.pending ++ bs).drop (8 * ((k.pending ++ bs).length / 8))
  clean : k.Clean → k'.Clean
  wf : k.outBuf.wf → k'.outBuf.wf
  cap : k'.outCap = k.outCap
  faults : k'.faults = k.faults.drop ((k.pending ++ bs).length / 8)

/-- `k'` is `k` after the bits `bs` were to be appended and the write of byte `m` of them, pending bits included, failed (R110,
R111, R112, R230): the `m` bytes before it are in OUT, that byte is lost with the writer left at WACC = 0 and WCNT = 0, and
nothing else of OUT, and no parameter of the platform, changes. -/
structure Sink.Lost (k : Sink) (bs : List Bool) (m : Nat) (k' : Sink) : Prop where
  count : k'.outCount.toNat = k.outCount.toNat + m
  bytes : ∀ j, j < m →
    (k'.outBuf.read (k.outCount.toNat + j)).map byteBits = some (((k.pending ++ bs).drop (8 * j)).take 8)
  others : ∀ a, a < k.outCount.toNat ∨ k.outCount.toNat + m ≤ a → k'.outBuf.read a = k.outBuf.read a
  wacc : k'.wacc = 0
  wcnt : k'.wcnt = 0
  cap : k'.outCap = k.outCap
  faults : k'.faults = k.faultsFailed m

-- The source

/-- Every byte of the input, IN[0..IN_LEN-1] (R70). -/
def Source.input (q : Source) : List Byte := (List.range q.inLen.toNat).map q.inByte

/-- The input bytes the block has not yet asked for (R31). -/
def Source.unfetched (q : Source) : List Byte := q.input.drop q.srcPos.toNat

/-- The bits the reader can still deliver, in order: RBUF[7:8-RCNT], then the unfetched bytes (R42). A reader with no bit
left delivers none: it found the end of the input (R114, R224). -/
def Source.ahead (q : Source) : List Bool :=
  if q.rcnt = 0 then [] else (byteBits q.rbuf).take q.rcnt.toNat ++ q.unfetched.flatMap byteBits

/-- No source read still to come fails (R71). -/
def Source.NoFault (q : Source) : Prop := ∀ f ∈ q.faults, f = false

/-- The source once a scan has read its first `n` bytes (R132, R180): the reader reset, SRC_POS at `n`. -/
def Source.scanned (q : Source) (n : Nat) : Source :=
  { q.rewind with srcPos := BitVec.ofNat 64 n, faults := q.faults.drop n }

/-- `q'` is `q` after the reader has delivered `n` bits (R113 to R115): the same stream with its first `n` bits gone; SRC_POS
stands where the bits left say it stands; IN, IN_LEN and RD_VALID are untouched. -/
structure Source.Consumed (q : Source) (n : Nat) (q' : Source) : Prop where
  enough : n ≤ q.ahead.length
  zero : n = 0 → q' = q
  ahead : q'.ahead = q.ahead.drop n
  left : q'.bitsAhead = q.bitsAhead - n
  forward : q.srcPos.toNat ≤ q'.srcPos.toNat
  ended : n ≠ 0 → q'.rcnt = 0 → q.inLen.toNat ≤ q'.srcPos.toNat
  eof : q'.reof = (q.reof || (decide (n ≠ 0) && decide (q'.rcnt = 0)))
  short : q'.rcnt.toNat ≤ 8
  inBuf : q'.inBuf = q.inBuf
  inLen : q'.inLen = q.inLen
  rdValid : q'.rdValid = q.rdValid
  faults : q'.faults = q.faults.drop (q'.srcPos.toNat - q.srcPos.toNat)

/-- A reader with a bit left whose next `m` refills succeed, and whose refill after them asks for a byte below IN_LEN and fails
(R71, R113, R114). -/
structure Source.FailsAt (q : Source) (m : Nat) : Prop where
  unread : q.rcnt ≠ 0
  short : q.rcnt.toNat ≤ 8
  inside : q.srcPos.toNat + m < q.inLen.toNat
  before : ∀ f ∈ q.faults.take m, f = false
  fails : q.faults.getD m false = true

/-- How many bits the reader takes up to that refill, the bit the refill loses among them (R114, R230). -/
def Source.bitsTo (q : Source) (m : Nat) : Nat := q.rcnt.toNat + 8 * m

/-- The source once that refill has failed: no bit is left, and SRC_POS is the index whose read failed (R114, R227). -/
def Source.refillFailed (q : Source) (m : Nat) : Source :=
  { q with
    rbuf := if m = 0 then q.rbuf <<< q.rcnt.toNat else 0
    rcnt := 0
    srcPos := q.srcPos + BitVec.ofNat 64 m
    faults := q.faults.drop (m + 1) }

-- Headers, codes and trees

/-- The bits of a header (R79, R133): all 256 classes, then all the values, both in symbol order. -/
def headerBits (f : FreqTable) : List Bool :=
  (f.toList.flatMap fun x => fieldBits 2 (((sizeClass x).getD 0).setWidth 32))
    ++ f.toList.flatMap fun x => fieldBits (classWidth ((sizeClass x).getD 0)) x

/-- The bits of a header whose classes are `cs`, canonical or not (R134): all the classes, then the value of every symbol in
the width its class selects. -/
def headerWith (cs : List (BitVec 2)) (f : FreqTable) : List Bool :=
  (cs.flatMap fun c => fieldBits 2 (c.setWidth 32)) ++ (List.zipWith (fun c x => fieldBits (classWidth c) x) cs f.toList).flatten

/-- Classes `cs` can carry the table `f`: one for each symbol, and every value fits the width its class selects (R131). -/
def ClassesFit (cs : List (BitVec 2)) (f : FreqTable) : Prop :=
  cs.length = 256 ∧ ∀ b : Byte, (f.entry b).toNat < 2 ^ classWidth (cs.getD b.toNat 0)

/-- Where the value of symbol `b` ends in the bits of a header whose classes are `cs` (R79, R134). -/
def valueEnd (cs : List (BitVec 2)) (b : Byte) : Nat := 512 + ((cs.take (b.toNat + 1)).map classWidth).sum

/-- A header's length in bytes: 64 + Σ width/8 (R80). -/
def headerBytes (f : FreqTable) : Nat := 64 + (f.toList.map fun x => classWidth ((sizeClass x).getD 0) / 8).sum

/-- The payload: the code of every byte, in order, back to back (R79). -/
def payloadBits (c : CodeMap) (bytes : List Byte) : List Bool := bytes.flatMap c.code

/-- Σ_s FREQ[s] × |CODE[s]| (R176). -/
def payloadLength (f : FreqTable) (c : CodeMap) : Nat :=
  ((List.range 256).map fun b => (f.entry (BitVec.ofNat 8 b)).toNat * (c.code (BitVec.ofNat 8 b)).length).sum

/-- How often each byte value occurs, as FREQ holds it (R34). -/
def FreqTable.Counts (f : FreqTable) (bytes : List Byte) : Prop := ∀ b, (f.entry b).toNat = bytes.count b

/-- The exact sum of all FREQ entries (R33). -/
def FreqTable.sum (f : FreqTable) : Nat := (f.toList.map BitVec.toNat).sum

/-- k, how many FREQ entries are nonzero (R150). -/
def FreqTable.leaves (f : FreqTable) : Nat := (f.toList.filter fun x => x != 0).length

/-- The node a path leads to: 0 is a left edge, 1 a right edge (R11, R153). -/
def Tree.follow (t : Tree) : NodeIx → Code → NodeIx
  | i, [] => i
  | i, b :: p => t.follow (if b then (t.node i).right else (t.node i).left) p

/-- Node `i` is a child of an internal node below index `j` (the internal nodes start at `k`). -/
def Tree.Taken (t : Tree) (k i j : Nat) : Prop :=
  ∃ m : NodeIx, k ≤ m.toNat ∧ m.toNat < j ∧ ((t.node m).left.toNat = i ∨ (t.node m).right.toNat = i)

/-- `(weight, index)` order on nodes (R152). -/
def Tree.Before (t : Tree) (i j : NodeIx) : Prop :=
  (t.node i).w.toNat < (t.node j).w.toNat ∨ ((t.node i).w = (t.node j).w ∧ i.toNat < j.toNat)

-- Commands and host operations

/-- A register whose host write is ignored (R23). -/
def Reg.readOnly : Reg → Bool
  | .cmd | .value | .inLen | .nodeSel | .codeSel | .freq _ => false
  | .id | .status | .outCountLo | .outCountHi | .srcPosLo | .srcPosHi | .symCntLo | .symCntHi | .totalLo | .totalHi
  | .wstate | .rstate | .tstate | .tree | .nodeInfo | .nodeWLo | .nodeWHi | .codeLen | .codeW _ => true

/-- The state whose host, or platform, does `op` next, and then what it still had to do. -/
def State.issue (s : State) (op : HostOp) : State := { s with host := { s.host with script := op :: s.host.script } }

/-- The host writes `v` at an offset of the window next. -/
def State.issueWrite (s : State) (off : Nat) (v : Word) : State := s.issue (.memWrite (s.host.base + off) 4 v)

/-- The host reads at an offset of the window next. -/
def State.issueRead (s : State) (off : Nat) : State := s.issue (.memRead (s.host.base + off) 4)

/-- The aborts a command can end in, each the stage that was running and the kind it raised (R220, R227): the stage is the
command's own OP, except inside ENCODE and DECODE, where it names the primitive stage, or ENCODE itself for its own checks
(R181, R182, R192). The prerequisite checks inside the two pipelines always pass (R228), and so do BUILD's and HDR_WRITE's. -/
def abortsOf : Instr → List (BitVec 8 × ErrorKind)
  | .clear => []
  | .wrBits _ => [(0x02, .ioError), (0x02, .illegalCommand)]
  | .flush => [(0x03, .ioError)]
  | .rdInit => [(0x04, .ioError)]
  | .rdBit => [(0x05, .ioError), (0x05, .truncatedStream), (0x05, .illegalCommand)]
  | .rdBits _ => [(0x06, .ioError), (0x06, .truncatedStream), (0x06, .illegalCommand)]
  | .count => [(0x07, .ioError)]
  | .hdrWrite => [(0x08, .ioError), (0x08, .frequencyRange)]
  | .hdrRead => [(0x09, .ioError), (0x09, .truncatedStream), (0x09, .illegalCommand)]
  | .build => [(0x0A, .emptyInput)]
  | .gencodes => [(0x0B, .illegalCommand)]
  | .encPayload => [(0x0C, .ioError), (0x0C, .illegalCommand), (0x0C, .uncodedSymbol)]
  | .decPayload => [(0x0D, .ioError), (0x0D, .truncatedStream), (0x0D, .illegalCommand)]
  | .encode =>
    [(0x07, .ioError), (0x0E, .emptyInput), (0x0E, .frequencyRange), (0x08, .ioError), (0x0C, .ioError),
      (0x0C, .uncodedSymbol), (0x03, .ioError)]
  | .decode => [(0x04, .ioError), (0x09, .ioError), (0x09, .truncatedStream), (0x0D, .ioError), (0x0D, .truncatedStream)]

/-- How far ENCODE had come from `s` where it aborted in stage `stg` and left `t` (R181, R182, R230): in COUNT and at its own
checks nothing is written, in COUNT the scan is not over; in HDR_WRITE there is no tree; in ENC_PAYLOAD the tree and the codes
are those of FREQ and not every byte is encoded; in FLUSH every byte is. -/
structure EncodeStoppedIn (stg : BitVec 8) (s t : State) : Prop where
  count : stg = 0x07 → t.snk = s.snk.fresh ∧ t.symCnt = 0 ∧ t.src.srcPos.toNat < s.src.inLen.toNat
  checks : stg = 0x0E → t.snk = s.snk.fresh ∧ t.symCnt = 0 ∧ t.src.srcPos.toNat = s.src.inLen.toNat
  header : stg = 0x08 → t.tree.treeValid = false ∧ t.codesValid = false ∧ t.symCnt = 0 ∧
    t.src.srcPos.toNat = s.src.inLen.toNat
  payload : stg = 0x0C → t.tree = Tree.build t.freq ∧ t.codesValid = true ∧ t.symCnt.toNat < s.src.inLen.toNat
  flush : stg = 0x03 → t.tree = Tree.build t.freq ∧ t.codesValid = true ∧ t.symCnt.toNat = s.src.inLen.toNat

/-- How far DECODE had come from `s` where it aborted in stage `stg` and left `t` (R192, R230): in RD_INIT FREQ is untouched; in
HDR_READ there is no tree and nothing is written; in DEC_PAYLOAD the tree is that of FREQ and not every symbol is emitted. -/
structure DecodeStoppedIn (stg : BitVec 8) (s t : State) : Prop where
  init : stg = 0x04 → t.snk = s.snk.fresh ∧ t.symCnt = 0 ∧ t.freq = s.freq ∧ t.src.srcPos = 0
  header : stg = 0x09 → t.snk = s.snk.fresh ∧ t.symCnt = 0 ∧ t.tree.treeValid = false ∧ t.codesValid = false
  payload : stg = 0x0D → t.tree = Tree.build t.freq ∧ t.codesValid = false ∧ t.symCnt.toNat < t.freq.sum

/-- WR_BITS of each field in turn, its value put into VALUE before it (R93, R123). -/
def State.writeFields (s : State) : List (BitVec 6 × Word) → Host.Outcome State Fault Refusal
  | [] => .next s
  | (n, v) :: fs =>
    match exec (.wrBits n) { s with value := v } with
    | .next s' => s'.writeFields fs
    | o => o

/-- RD_BITS of each width in turn, with the list of what VALUE then holds (R123). -/
def State.readFields (s : State) : List (BitVec 6) → Option (List Word × State)
  | [] => some ([], s)
  | n :: ns =>
    match exec (.rdBits n) s with
    | .next s' => (s'.readFields ns).map fun r => (s'.value :: r.1, r.2)
    | _ => none

-- Invariants of an idle block

/-- The block is idle, and the state that exists only while a command runs does not exist (R49). -/
structure State.Idle (s : State) : Prop where
  busy : s.status.busy = false
  stage : s.stage = none
  cur : s.cur = none
  cls : s.cls = none
  pq : s.tree.pq = none

/-- DONE and ERR are never both 1; the error fields are 0 unless ERR = 1 (R25), and then ERRCODE is one of the six kinds that
are ever raised (R220, R225). -/
structure Status.Ok (st : Status) : Prop where
  exclusive : ¬(st.done = true ∧ st.err = true)
  clear : st.err = false → st.errCode = 0 ∧ st.errOp = 0 ∧ st.errStage = 0
  kinds : st.err = true → st.errCode ∈ [1#4, 2#4, 3#4, 4#4, 6#4, 7#4]

/-- The reader of an idle block (R50 items 3 to 5). -/
structure Source.ReaderOk (q : Source) : Prop where
  short : q.rcnt.toNat ≤ 8
  atEnd : q.reof = true → q.rcnt = 0
  invalid : q.rdValid = false → q.rbuf = 0 ∧ q.rcnt = 0 ∧ q.reof = false

/-- The writer and the sink of an idle block: WACC is clean (R41), and every byte below OUT_COUNT is one the block has written
(R30, R84). -/
structure Sink.Ok (k : Sink) : Prop where
  clean : k.Clean
  count : k.outCount.toNat ≤ k.outCap
  written : ∀ a, a < k.outCount.toNat → (k.outBuf.read a).isSome = true

/-- The tree and the code table are those of FREQ when their valid bits say so (R50 items 1 and 2), and the arena is zero above
NNODES (R36). -/
structure State.TreeOk (s : State) : Prop where
  tree : s.tree.treeValid = true → s.freq.nonzero = true ∧ s.tree = Tree.build s.freq
  codes : s.codesValid = true → s.tree.treeValid = true ∧ s.tree.genCodes = some s.codes
  unused : ∀ i : NodeIx, s.tree.nNodes.toNat ≤ i.toNat → s.tree.node i = Node.zero

/-- The invariants of a block between two steps. -/
structure State.Inv (s : State) : Prop where
  idle : s.Idle
  status : s.status.Ok
  reader : s.src.ReaderOk
  drained : s.src.rdValid = true → s.src.rcnt = 0 → s.src.reof = true ∨ s.status.err = true
  sink : s.snk.Ok
  tree : s.TreeOk
  inBuf : s.src.inBuf.wf
  outBuf : s.snk.outBuf.wf

-- Runs

/-- A run of `k` steps that no fault and no refusal stops. -/
def SafeRun (k : Nat) (s s' : State) : Prop := Host.Core.run core k s = .next s'

/-- A run that ends so is a successful one (R206). -/
def State.Successful (s : State) : Prop := s.status.busy = false ∧ s.status.err = false

end Sys2Proof.Machine
end

