-- ==== Sys2Proof/Certificates/Slice0/Obligations.lean ====
section
/-! DEFINITION. Certificates/Slice0/Obligations.lean: the statements for the provers. A statement about a command speaks of
`exec` at any state, reached or not, and where it says `exec i s = .next (complete { s with … })` it says the whole of the next
state: every field not named stands as it was, and `complete` and `abort` are spelled out in `TheTwoEndsOfACommand`. -/

open Sys2Proof Sys2Proof.Machine

-- Encoding

/-- R90, R91, R92, R97: a well-formed command is what its word decodes to, and of all words exactly those decode to it that
agree with its encoding in OP and, for WR_BITS and RD_BITS, in N. -/
def Obligations.DecodeOfEncodeIsTheCommand : Prop :=
  ∀ i : Instr, i.wellFormed = true →
    decode (encode i) = .command i ∧ ∀ w : Word, decode w = .command i ↔ w &&& i.wordMask = encode i

/-- R94, R95, R96, R101: the illegal words are those with a reserved OP and those of WR_BITS and RD_BITS with N above 32; every
other word is a well-formed command with that OP. -/
def Obligations.IllegalWordsAreTheReservedOnes : Prop :=
  ∀ w : Word,
    (decode w = .illegal (.reservedOp (wordOp w)) ↔ wordOp w = 0x00#8 ∨ 0x10 ≤ (wordOp w).toNat) ∧
    (decode w = .illegal (.countTooLarge (wordCount w)) ↔
      (wordOp w = 0x02#8 ∨ wordOp w = 0x06#8) ∧ 32 < (wordCount w).toNat) ∧
    (∀ e, decode w = .illegal e → e = .reservedOp (wordOp w) ∨ e = .countTooLarge (wordCount w)) ∧
    ∀ i, decode w = .command i → i.wellFormed = true ∧ i.op = wordOp w

/-- The opcode map R94, and the CMD words the programs P1 to P6 and the vectors B8 and B28 of 95_test_vectors.md write. -/
def Obligations.OpcodeMapWordsDecode : Prop :=
  decode 0x00000001#32 = .command .clear ∧ decode 0x00000302#32 = .command (.wrBits 3) ∧
  decode 0x00000502#32 = .command (.wrBits 5) ∧ decode 0x00000402#32 = .command (.wrBits 4) ∧
  decode 0x00000506#32 = .command (.rdBits 5) ∧ decode 0x00000406#32 = .command (.rdBits 4) ∧
  decode 0x00002002#32 = .command (.wrBits 32) ∧ decode 0x00000003#32 = .command .flush ∧
  decode 0x00000004#32 = .command .rdInit ∧ decode 0x00000005#32 = .command .rdBit ∧
  decode 0x00000306#32 = .command (.rdBits 3) ∧ decode 0x00002006#32 = .command (.rdBits 32) ∧
  decode 0x00000007#32 = .command .count ∧ decode 0x00000008#32 = .command .hdrWrite ∧
  decode 0x00000009#32 = .command .hdrRead ∧ decode 0x0000000A#32 = .command .build ∧
  decode 0x0000000B#32 = .command .gencodes ∧ decode 0x0000000C#32 = .command .encPayload ∧
  decode 0x0000000D#32 = .command .decPayload ∧ decode 0x0000000E#32 = .command .encode ∧
  decode 0x0000000F#32 = .command .decode ∧ decode 0x00002102#32 = .illegal (.countTooLarge 33) ∧
  decode 0x00002806#32 = .illegal (.countTooLarge 40) ∧ decode 0x00000000#32 = .illegal (.reservedOp 0x00) ∧
  decode 0x00000010#32 = .illegal (.reservedOp 0x10) ∧ decode 0x000000FF#32 = .illegal (.reservedOp 0xFF)

-- Issuing a command

/-- R200, R101, R262: a word written to CMD of an idle block, or CLEAR's written to one in the error state, is accepted, and the
step is the whole command it decodes to, run on the accepted state. -/
def Obligations.StepRunsTheDecodedCommand : Prop :=
  ∀ (s : State) (w : Word) (i : Instr), s.status.busy = false → (s.status.err = false ∨ wordOp w = 0x01#8) →
    decode w = .command i →
    step (s.issueWrite 0x004 w) =
      exec i
        { s with
          cmd := w.setWidth 14
          status := { s.status with busy := true, done := false, rej := false }
          stage := some (wordOp w) }

/-- R95, R96, R228: an accepted illegal word changes CMD and STATUS and nothing else. -/
def Obligations.IllegalWordAborts : Prop :=
  ∀ (s : State) (w : Word), s.Idle → s.status.err = false →
    (wordOp w = 0x00#8 ∨ 0x10 ≤ (wordOp w).toNat ∨
      ((wordOp w = 0x02#8 ∨ wordOp w = 0x06#8) ∧ 32 < (wordCount w).toNat)) →
    step (s.issueWrite 0x004 w) =
      .next
        { s with
          cmd := w.setWidth 14
          status :=
            { busy := false, done := false, err := true, rej := false
              errCode := 6#4, errOp := wordOp w, errStage := wordOp w } }

/-- R201: a rejected CMD write sets REJ and changes nothing else. -/
def Obligations.RejectedCmdWriteSetsOnlyRej : Prop :=
  ∀ (s : State) (w : Word), (s.status.busy = true ∨ (s.status.err = true ∧ wordOp w ≠ 0x01#8)) →
    step (s.issueWrite 0x004 w) = .next { s with status := { s.status with rej := true } }

/-- R232, R233: in the error state every step but a reset and the acceptance of a CLEAR leaves STATUS as it was, REJ apart; those
two leave it with ERR and the error fields 0. -/
def Obligations.OnlyClearAndResetLeaveTheErrorState : Prop :=
  ∀ (s t : State) (op : HostOp), s.status.busy = false → s.status.err = true → step (s.issue op) = .next t →
    (op ≠ .reset → (∀ w, op = .memWrite (s.host.base + 0x004) 4 w → wordOp w ≠ 0x01#8) →
      t.status = { s.status with rej := t.status.rej }) ∧
    ((op = .reset ∨ ∃ w, op = .memWrite (s.host.base + 0x004) 4 w ∧ wordOp w = 0x01#8) →
      t.status.err = false ∧ t.status.errCode = 0 ∧ t.status.errOp = 0 ∧ t.status.errStage = 0)

/-- R205 and R226: what completion and an abort change. Nothing but STATUS and the state that exists only while a command runs. -/
def Obligations.TheTwoEndsOfACommand : Prop :=
  ∀ (k : ErrorKind) (s : State),
    complete s =
      { s with
        status := { s.status with busy := false, done := true }
        tree := { s.tree with pq := none }, cur := none, cls := none, stage := none } ∧
    abort k s =
      { s with
        status :=
          { s.status with
            errCode := k.code, errOp := s.cmd.extractLsb' 0 8, errStage := s.stage.getD 0, err := true, busy := false }
        tree := { s.tree with pq := none }, cur := none, cls := none, stage := none }

/-- R205, R220, R225, R226, R227: a command ends idle: either it completes and writes BUSY and DONE alone (CLEAR the error fields
too), or it aborts, with a kind the table of R220 lets it raise in the stage that was running, recorded with the OP of CMD.
Inside ENCODE and DECODE (R181, R182, R192) the stage goes with how far the pipeline had come. -/
def Obligations.EveryCommandCompletesOrAbortsWithItsKinds : Prop :=
  ∀ (i : Instr) (s t : State), s.stage = some i.op → exec i s = .next t →
    t.status.busy = false ∧ t.stage = none ∧ t.cur = none ∧ t.cls = none ∧ t.tree.pq = none ∧
    ((i ≠ .clear ∧ t.status = { s.status with busy := false, done := true }) ∨
     (i = .clear ∧ t.status = { Status.reset with done := true, rej := s.status.rej }) ∨
     ∃ e ∈ abortsOf i,
       e.2 ≠ .corruptHeader ∧
       t.status =
         { s.status with
           busy := false, err := true, errCode := e.2.code, errOp := s.cmd.extractLsb' 0 8, errStage := e.1 } ∧
       (i = .encode → EncodeStoppedIn e.1 s t) ∧ (i = .decode → DecodeStoppedIn e.1 s t))

/-- R202, R251: CLEAR leaves the state of a reset, but for CMD, VALUE, IN_LEN, the selectors and REJ, which it keeps, and DONE; IN,
OUT and the platform's parameters stand. -/
def Obligations.ClearStartsAFreshSession : Prop :=
  ∀ s : State,
    exec .clear s =
      .next
        { State.reset with
          cmd := s.cmd, value := s.value, nodeSel := s.nodeSel, codeSel := s.codeSel
          status := { Status.reset with done := true, rej := s.status.rej }
          src := { Source.reset with inBuf := s.src.inBuf, inLen := s.src.inLen, faults := s.src.faults }
          snk := { Sink.reset with outBuf := s.snk.outBuf, outCap := s.snk.outCap, faults := s.snk.faults }
          host := s.host }

-- Host access

/-- R204: an idle read returns the register at the offset and changes nothing of the block. -/
def Obligations.IdleReadReturnsTheRegister : Prop :=
  ∀ (s : State) (r : Reg), s.status.busy = false →
    step (s.issueRead r.offset) = .next { s with host := { s.host with readLog := readReg s r :: s.host.readLog } }

/-- R23, R25, R27, R28, R37, R38, R77: R34: the fields of every register but TOTAL
(`TotalReadsTheExactSum`) and the code readout (`CodeReadoutShowsTheSelectedCode`). -/
def Obligations.RegistersShowTheirFields : Prop :=
  ∀ s : State,
    readReg s .id = 0x48554631#32 ∧ (readReg s .cmd).toNat = s.cmd.toNat ∧ readReg s .value = s.value ∧
    readReg s .inLen = s.src.inLen ∧
    (readReg s .status).toNat =
      s.status.busy.toNat + 2 * s.status.done.toNat + 4 * s.status.err.toNat + 8 * s.status.rej.toNat
        + 2 ^ 4 * s.status.errCode.toNat + 2 ^ 8 * s.status.errOp.toNat + 2 ^ 16 * s.status.errStage.toNat ∧
    (readReg s .outCountLo).toNat + 2 ^ 32 * (readReg s .outCountHi).toNat = s.snk.outCount.toNat ∧
    (readReg s .srcPosLo).toNat + 2 ^ 32 * (readReg s .srcPosHi).toNat = s.src.srcPos.toNat ∧
    (readReg s .symCntLo).toNat + 2 ^ 32 * (readReg s .symCntHi).toNat = s.symCnt.toNat ∧
    (readReg s .wstate).toNat = s.snk.wacc.toNat + 2 ^ 8 * s.snk.wcnt.toNat ∧
    (readReg s .rstate).toNat =
      s.src.rbuf.toNat + 2 ^ 8 * s.src.rcnt.toNat + 2 ^ 12 * s.src.reof.toNat + 2 ^ 13 * s.src.rdValid.toNat ∧
    (readReg s .tstate).toNat = s.tree.treeValid.toNat + 2 * s.codesValid.toNat + 2 ^ 16 * s.tree.nLeaves.toNat ∧
    (readReg s .tree).toNat = s.tree.nNodes.toNat + 2 ^ 16 * s.tree.root.toNat ∧
    (readReg s .nodeSel).toNat = s.nodeSel.toNat ∧
    (readReg s .nodeInfo).toNat =
      (s.tree.node s.nodeSel).left.toNat + 2 ^ 9 * (s.tree.node s.nodeSel).right.toNat
        + 2 ^ 18 * (s.tree.node s.nodeSel).sym.toNat + 2 ^ 31 * (s.tree.node s.nodeSel).leaf.toNat ∧
    (readReg s .nodeWLo).toNat + 2 ^ 32 * (readReg s .nodeWHi).toNat = (s.tree.node s.nodeSel).w.toNat ∧
    (s.nodeSel.toNat = 511 → readReg s .nodeInfo = 0 ∧ readReg s .nodeWLo = 0 ∧ readReg s .nodeWHi = 0) ∧
    (readReg s .codeSel).toNat = s.codeSel.toNat ∧
    ∀ b : Byte, readReg s (.freq b) = s.freq.entry b

/-- R33: TOTAL reads as the sum of all 256 FREQ entries, and the sum does not wrap. -/
def Obligations.TotalReadsTheExactSum : Prop :=
  ∀ s : State,
    (readReg s .totalLo).toNat + 2 ^ 32 * (readReg s .totalHi).toNat =
      ((List.range 256).map fun b => (s.freq.entry (BitVec.ofNat 8 b)).toNat).sum ∧
    ((List.range 256).map fun b => (s.freq.entry (BitVec.ofNat 8 b)).toNat).sum ≤ 256 * (2 ^ 32 - 1) ∧
    s.freq.total.toNat = s.freq.sum

/-- R40: CODE_SEL selects a symbol; CODE_LEN reads its code's length (of a code the table can hold) and CODE_Wj its bits; the
readout has no side effect. -/
def Obligations.CodeReadoutShowsTheSelectedCode : Prop :=
  ∀ s : State, s.status.busy = false →
    (∀ v : Word, step (s.issueWrite 0x054 v) = .next { s with codeSel := v.setWidth 8 }) ∧
    ((s.codes.code s.codeSel).length ≤ 255 →
      step (s.issueRead 0x058) =
        .next
          { s with
            host := { s.host with
              readLog := BitVec.ofNat 32 (s.codes.code s.codeSel).length :: s.host.readLog } }) ∧
    ∀ j, j < 8 →
      ∃ v : Word,
        step (s.issueRead (0x05C + 4 * j)) = .next { s with host := { s.host with readLog := v :: s.host.readLog } } ∧
        ∀ i, i < 32 → v.getLsbD (31 - i) = (s.codes.code s.codeSel).getD (32 * j + i) false

/-- R47: reserved offsets read 0 (also while BUSY = 1, where log entry 5 reads R48 so), writes to them and to read-only registers
are ignored, and no host read, of any admitted offset, idle or busy, changes any state of the block. -/
def Obligations.ReservedAndReadOnlyAccesses : Prop :=
  ∀ s : State,
    (∀ off, off % 4 = 0 → 0x07C ≤ off → off ≤ 0x3FC →
      step (s.issueRead off) = .next { s with host := { s.host with readLog := 0 :: s.host.readLog } } ∧
      ∀ v, step (s.issueWrite off v) = .next s) ∧
    (∀ (r : Reg) (v : Word), r.readOnly = true → step (s.issueWrite r.offset v) = .next s) ∧
    ∀ off, off % 4 = 0 → off < 0x800 →
      ∃ (v : Word) (n : Nat),
        step (s.issueRead off) =
          .next { s with host := { s.host with readLog := v :: s.host.readLog, busyReads := n } }

/-- R48: host accesses while BUSY = 1. A read of a register other than ID and STATUS draws the free value `Config.busyRead` (log
entry 5), of which nothing is said. -/
def Obligations.AccessesWhileBusy : Prop :=
  ∀ s : State, s.status.busy = true →
    (∀ w : Word, step (s.issueWrite 0x004 w) = .next { s with status := { s.status with rej := true } }) ∧
    (∀ (r : Reg) (v : Word), r ≠ .cmd → step (s.issueWrite r.offset v) = .next s) ∧
    (∀ r : Reg, r = .id ∨ r = .status →
      step (s.issueRead r.offset) = .next { s with host := { s.host with readLog := readReg s r :: s.host.readLog } }) ∧
    ∀ r : Reg, r ≠ .id → r ≠ .status →
      step (s.issueRead r.offset) =
        .next
          { s with
            host := { s.host with
              readLog := Config.busyRead s.host.busyReads :: s.host.readLog
              busyReads := s.host.busyReads + 1 } }

/-- R203: what a host write of each writable register but CMD does while the block is idle, ERR 0 or 1. -/
def Obligations.IdleWriteStoresTheRegister : Prop :=
  ∀ (s : State) (v : Word), s.status.busy = false →
    step (s.issueWrite 0x00C v) = .next { s with value := v } ∧
    step (s.issueWrite 0x010 v) = .next { s with src := { s.src with inLen := v } } ∧
    step (s.issueWrite 0x044 v) = .next { s with nodeSel := v.setWidth 9 } ∧
    step (s.issueWrite 0x054 v) = .next { s with codeSel := v.setWidth 8 } ∧
    ∀ b : Byte,
      ∃ f : FreqTable,
        step (s.issueWrite (0x400 + 4 * b.toNat) v) =
          .next { s with freq := f, tree := { s.tree with treeValid := false }, codesValid := false } ∧
        ∀ b' : Byte, f.entry b' = if b' = b then v else s.freq.entry b'

/-- R35: FREQ writes clear the valid bits, by the host and by COUNT, HDR_READ and CLEAR, whether these complete or abort (HDR_READ
with RD_VALID = 0 writes nothing). -/
def Obligations.FreqWritesInvalidate : Prop :=
  ∀ s t : State,
    (s.status.busy = false → ∀ (b : Byte) (v : Word), step (s.issueWrite (0x400 + 4 * b.toNat) v) = .next t →
      t.tree.treeValid = false ∧ t.codesValid = false) ∧
    (∀ i : Instr, i = .clear ∨ i = .count ∨ (i = .hdrRead ∧ s.src.rdValid = true) → exec i s = .next t →
      t.tree.treeValid = false ∧ t.codesValid = false)

/-- R76, R85: an access that is not one aligned word of the window is refused, one that is never is; IN is loaded between commands
only (R99), and only at indices it has (R70); the bytes loaded are what IN then holds there. That the load is a step of the
platform's is log entry 14, and that IN keeps its other bytes is log entry 4, both the model's. -/
def Obligations.AccessesTheModelRefuses : Prop :=
  ∀ s : State,
    (∀ addr width v, ¬(width = 4 ∧ s.host.base ≤ addr ∧ addr < s.host.base + 0x800 ∧ (addr - s.host.base) % 4 = 0) →
      step (s.issue (.memWrite addr width v)) = .refused (.hostAccessNotAdmitted addr width) ∧
      step (s.issue (.memRead addr width)) = .refused (.hostAccessNotAdmitted addr width)) ∧
    (∀ off v, off % 4 = 0 → off < 0x800 →
      (∀ r, step (s.issueWrite off v) ≠ .refused r) ∧ ∀ r, step (s.issueRead off) ≠ .refused r) ∧
    (∀ a xs, s.status.busy = true → step (s.issue (.loadIn a xs)) = .refused .inputChangedWhileBusy) ∧
    (∀ a xs, s.status.busy = false → 2 ^ 32 - 1 < a + xs.length →
      step (s.issue (.loadIn a xs)) = .refused .inputIndexTooLarge) ∧
    ∀ a xs, s.status.busy = false → a + xs.length ≤ 2 ^ 32 - 1 →
      ∃ m : Memory,
        step (s.issue (.loadIn a xs)) = .next { s with src := { s.src with inBuf := m } } ∧
        ∀ i, m.read i = if a ≤ i ∧ i < a + xs.length then xs[i - a]? else s.src.inBuf.read i

-- Reset

/-- R250: the reset input, asserted in any state, busy or in the error state, gives every piece of the block's state its reset
value; IN is not changed and OUT not written. That OUT keeps its bytes, whose contents R51 and R250 leave unspecified, is the
model's choice (log entry 7), and that the fault draws, BASE and the host's script and log stand is its reading (log entries
2, 3 and 14). -/
def Obligations.ResetInputRestoresTheResetState : Prop :=
  ∀ s : State,
    step (s.issue .reset) =
      .next
        { State.reset with
          src := { Source.reset with inBuf := s.src.inBuf, faults := s.src.faults }
          snk := { Sink.reset with outBuf := s.snk.outBuf, outCap := s.snk.outCap, faults := s.snk.faults }
          host := s.host }

/-- R49: the reset values, register by register. -/
def Obligations.ResetHasTheListedValues : Prop :=
  readReg State.reset .id = 0x48554631#32 ∧ State.reset.cmd = 0 ∧ readReg State.reset .status = 0 ∧
  State.reset.value = 0 ∧ State.reset.src.inLen = 0 ∧ State.reset.snk.outCount = 0 ∧ State.reset.src.srcPos = 0 ∧
  State.reset.symCnt = 0 ∧ (∀ b : Byte, State.reset.freq.entry b = 0) ∧ readReg State.reset .totalLo = 0 ∧
  readReg State.reset .totalHi = 0 ∧ (∀ i : NodeIx, State.reset.tree.node i = ⟨0, false, 0, 0, 0⟩) ∧
  State.reset.tree.treeValid = false ∧ State.reset.tree.nLeaves = 0 ∧ State.reset.tree.nNodes = 0 ∧
  State.reset.tree.root = 0 ∧ (∀ b : Byte, State.reset.codes.code b = []) ∧ State.reset.codesValid = false ∧
  State.reset.snk.wacc = 0 ∧ State.reset.snk.wcnt = 0 ∧ State.reset.src.rbuf = 0 ∧ State.reset.src.rcnt = 0 ∧
  State.reset.src.reof = false ∧ State.reset.src.rdValid = false ∧ State.reset.nodeSel = 0 ∧ State.reset.codeSel = 0 ∧
  State.reset.tree.pq = none ∧ State.reset.cur = none ∧ State.reset.cls = none ∧ State.reset.stage = none

-- Bit packing

/-- R111, R116: WR_BITS appends VALUE[n-1], …, VALUE[0] to the stream; n = 0 changes nothing. -/
def Obligations.WrBitsAppendsTheField : Prop :=
  ∀ (n : BitVec 6) (s : State), n.toNat ≤ 32 → s.snk.Ready ((s.snk.wcnt.toNat + n.toNat) / 8) →
    ∃ k : Sink,
      exec (.wrBits n) s = .next (complete { s with snk := k }) ∧
      s.snk.Appended ((List.range n.toNat).map fun j => s.value.getLsbD (n.toNat - 1 - j)) k ∧
      (n = 0 → k = s.snk)

/-- R112, R117: FLUSH pads the pending bits with 8 - WCNT zeros and emits the byte; with none pending it writes nothing. -/
def Obligations.FlushEmitsThePartialByte : Prop :=
  ∀ s : State,
    (s.snk.wcnt = 0 → exec .flush s = .next (complete s)) ∧
    (s.snk.wcnt ≠ 0 → s.snk.Ready 1 →
      ∃ k : Sink,
        exec .flush s = .next (complete { s with snk := k }) ∧ k.wacc = 0 ∧ k.wcnt = 0 ∧
        s.snk.Appended (List.replicate (8 - s.snk.wcnt.toNat) false) k)

/-- R73, R110, R112, R221, R230: where the sink takes `m` bytes of what a command writes and not the next, the command aborts with
IoError: the `m` bytes are in OUT, the failing one is lost, and the bit writer, where the byte came from it, is left at WACC = 0
and WCNT = 0. WR_BITS, FLUSH and HDR_WRITE; ENC_PAYLOAD within the code of byte `b` (R180, R227); DEC_PAYLOAD at a symbol, past
the bit writer (R190), also of a one-leaf tree (R191); and ENCODE, in the stage whose byte it is (R181, R227). A full sink
draws no fault: log entry 2, the model's choice. -/
def Obligations.AFailedSinkWriteLosesItsByte : Prop :=
  ∀ (s : State) (m : Nat),
    (s.snk.FailsAt m →
      (∀ n : BitVec 6, n.toNat ≤ 32 → m < (s.snk.wcnt.toNat + n.toNat) / 8 →
        ∃ k : Sink,
          exec (.wrBits n) s = .next (abort .ioError { s with snk := k }) ∧
          s.snk.Lost ((List.range n.toNat).map fun j => s.value.getLsbD (n.toNat - 1 - j)) m k) ∧
      (s.snk.wcnt ≠ 0 → m = 0 →
        exec .flush s =
          .next (abort .ioError { s with snk := { s.snk with wacc := 0, wcnt := 0, faults := s.snk.faultsFailed 0 } })) ∧
      ((∀ b : Byte, (s.freq.entry b).toNat ≠ 2 ^ 32 - 1) → m < (s.snk.wcnt.toNat + 8 * headerBytes s.freq) / 8 →
        ∃ k : Sink,
          exec .hdrWrite s = .next (abort .ioError { s with snk := k }) ∧ s.snk.Lost (headerBits s.freq) m k) ∧
      (∀ (xs ys : List Byte) (b : Byte), s.codesValid = true → s.src.NoFault → s.src.input = xs ++ b :: ys →
        (∀ x ∈ xs ++ [b], s.codes.code x ≠ []) →
        (s.snk.wcnt.toNat + (payloadBits s.codes xs).length) / 8 ≤ m →
        m < (s.snk.wcnt.toNat + (payloadBits s.codes (xs ++ [b])).length) / 8 →
        ∃ k : Sink,
          exec .encPayload s =
            .next (abort .ioError { s with
              src := s.src.scanned (xs.length + 1), snk := k, symCnt := BitVec.ofNat 64 xs.length }) ∧
          s.snk.Lost (payloadBits s.codes (xs ++ [b])) m k) ∧
      (s.src.rdValid = true → s.src.rcnt.toNat ≤ 8 → s.src.NoFault → s.tree.treeValid = true → s.TreeOk →
        m < s.freq.sum →
        (∀ (c : CodeMap) (xs : List Byte) (rest : List Bool), s.tree.genCodes = some c →
          (∀ x ∈ xs, s.freq.entry x ≠ 0) → xs.length = m + 1 → s.src.ahead = payloadBits c xs ++ rest →
          ∃ q : Source,
            exec .decPayload s =
              .next (abort .ioError { s with
                src := q, snk := { s.snk.emitted (xs.take m) with faults := s.snk.faultsFailed m }
                symCnt := BitVec.ofNat 64 m }) ∧
            s.src.Consumed (payloadBits c xs).length q) ∧
        (∀ b : Byte, s.freq.leaves = 1 → s.freq.entry b ≠ 0 → m < s.src.ahead.length →
          ∃ q : Source,
            exec .decPayload s =
              .next (abort .ioError { s with
                src := q, snk := { s.snk.emitted (List.replicate m b) with faults := s.snk.faultsFailed m }
                symCnt := BitVec.ofNat 64 m }) ∧
            s.src.Consumed (m + 1) q))) ∧
    ∀ (f : FreqTable) (c : CodeMap), s.snk.fresh.FailsAt m → s.src.NoFault → f.Counts s.src.input → s.src.inLen ≠ 0 →
      (∀ b : Byte, (f.entry b).toNat ≠ 2 ^ 32 - 1) → (Tree.build f).genCodes = some c →
      m < headerBytes f + (payloadLength f c + 7) / 8 →
      ∃ t : State,
        exec .encode s = .next t ∧
        t.status =
          { s.status with
            busy := false, err := true, errCode := 1#4, errOp := s.cmd.extractLsb' 0 8
            errStage :=
              if m < headerBytes f then 0x08
              else if 8 * (m + 1) ≤ 8 * headerBytes f + payloadLength f c then 0x0C
              else 0x03 } ∧
        s.snk.fresh.Lost
          (headerBits f ++ payloadBits c s.src.input ++ List.replicate ((8 - payloadLength f c % 8) % 8) false) m t.snk

/-- R113, R118: RD_INIT resets the reader and fetches IN[0]: a byte, end-of-input, or a failed pre-read that leaves RD_VALID 1. -/
def Obligations.RdInitFetchesTheFirstByte : Prop :=
  ∀ s : State,
    (s.src.inLen = 0 →
      exec .rdInit s =
        .next (complete { s with
          src := { s.src with srcPos := 0, rbuf := 0, rcnt := 0, reof := true, rdValid := true } })) ∧
    (s.src.inLen ≠ 0 → s.src.faults.headD false = false →
      exec .rdInit s =
        .next (complete { s with
          src := { s.src with
            srcPos := 1, rbuf := s.src.inByte 0, rcnt := 8, reof := false, rdValid := true
            faults := s.src.faults.tail } })) ∧
    (s.src.inLen ≠ 0 → s.src.faults.headD false = true →
      exec .rdInit s =
        .next (abort .ioError { s with
          src := { s.src with
            srcPos := 0, rbuf := 0, rcnt := 0, reof := false, rdValid := true, faults := s.src.faults.tail } }))

/-- R114, R119: RD_BIT delivers the next bit of the stream in VALUE, zero-extended. -/
def Obligations.RdBitDeliversTheNextBit : Prop :=
  ∀ s : State, s.src.rdValid = true → s.src.rcnt ≠ 0 → s.src.rcnt.toNat ≤ 8 → s.src.NoFault →
    ∃ q : Source,
      exec .rdBit s =
        .next (complete { s with src := q, value := if s.src.ahead.headD false then 1 else 0 }) ∧
      s.src.Consumed 1 q

/-- R115, R120, R121: RD_BITS delivers the next n bits in VALUE, most-significant first; n = 0 reads nothing and sets VALUE to 0. -/
def Obligations.RdBitsDeliversTheField : Prop :=
  ∀ (n : BitVec 6) (s : State), n.toNat ≤ 32 → s.src.rdValid = true → s.src.rcnt.toNat ≤ 8 → s.src.NoFault →
    n.toNat ≤ s.src.ahead.length →
    ∃ (q : Source) (v : Word),
      exec (.rdBits n) s = .next (complete { s with src := q, value := v }) ∧
      v.toNat = bitsValue (s.src.ahead.take n.toNat) ∧ s.src.Consumed n.toNat q

/-- R114, R224, R230: a bit demanded past the end of the stream raises TruncatedStream, with the bits that were left consumed and
VALUE unchanged. R71, R221, R227, R230: a source read that fails raises IoError, with SRC_POS at its index; where it is the
refill after `m` others, the bit just taken is lost: RD_BIT and RD_BITS leave VALUE, HDR_READ leaves in FREQ the values read
whole before it, DEC_PAYLOAD the symbols emitted before it (`u` is what it had walked of a code; of a one-leaf tree every bit
is a symbol). Where it is ENC_PAYLOAD's read of byte `i`, the codes of the bytes before it are written. -/
def Obligations.AbortedReadsLoseTheirBits : Prop :=
  ∀ s : State,
    (s.src.rdValid = true → s.src.rcnt.toNat ≤ 8 →
      (∀ n : BitVec 6, n.toNat ≤ 32 → s.src.NoFault → s.src.ahead.length < n.toNat →
        ∃ q : Source,
          exec (.rdBits n) s = .next (abort .truncatedStream { s with src := q }) ∧
          s.src.Consumed s.src.ahead.length q ∧ q.rcnt = 0) ∧
      (s.src.rcnt = 0 → exec .rdBit s = .next (abort .truncatedStream s)) ∧
      (s.src.rcnt = 1 → s.src.FailsAt 0 →
        exec .rdBit s = .next (abort .ioError { s with src := s.src.refillFailed 0 }))) ∧
    (∀ m : Nat, s.src.rdValid = true → s.src.FailsAt m →
      (∀ n : BitVec 6, n.toNat ≤ 32 → s.src.bitsTo m ≤ n.toNat →
        exec (.rdBits n) s = .next (abort .ioError { s with src := s.src.refillFailed m })) ∧
      (∀ (cs : List (BitVec 2)) (f : FreqTable) (rest : List Bool), ClassesFit cs f →
        s.src.ahead <+: headerWith cs f ++ rest → s.src.bitsTo m ≤ (headerWith cs f).length →
        ∃ g : FreqTable,
          exec .hdrRead s =
            .next (abort .ioError { s with
              freq := g, tree := { s.tree with treeValid := false }, codesValid := false, src := s.src.refillFailed m }) ∧
          ∀ b : Byte, g.entry b = if valueEnd cs b < s.src.bitsTo m then f.entry b else 0) ∧
      (s.tree.treeValid = true → s.TreeOk →
        (∀ (c : CodeMap) (xs : List Byte) (u rest : List Bool) (b : Byte), s.tree.genCodes = some c →
          2 ≤ s.freq.leaves → (∀ x ∈ xs, s.freq.entry x ≠ 0) → s.freq.entry b ≠ 0 → xs.length < s.freq.sum →
          u ≠ [] → u <+: c.code b → s.src.ahead = payloadBits c xs ++ u ++ rest →
          s.src.bitsTo m = (payloadBits c xs ++ u).length → s.snk.Ready xs.length →
          exec .decPayload s =
            .next (abort .ioError { s with
              src := s.src.refillFailed m, snk := s.snk.emitted xs, symCnt := BitVec.ofNat 64 xs.length })) ∧
        (∀ b : Byte, s.freq.leaves = 1 → s.freq.entry b ≠ 0 → s.src.bitsTo m ≤ s.freq.sum →
          s.snk.Ready (s.src.bitsTo m - 1) →
          exec .decPayload s =
            .next (abort .ioError { s with
              src := s.src.refillFailed m, snk := s.snk.emitted (List.replicate (s.src.bitsTo m - 1) b)
              symCnt := BitVec.ofNat 64 (s.src.bitsTo m - 1) })))) ∧
    ∀ i : Nat, s.codesValid = true → i < s.src.inLen.toNat → (∀ x ∈ s.src.faults.take i, x = false) →
      s.src.faults.getD i false = true → (∀ x ∈ s.src.input.take i, s.codes.code x ≠ []) →
      s.snk.Ready ((s.snk.wcnt.toNat + (payloadBits s.codes (s.src.input.take i)).length) / 8) →
      ∃ k : Sink,
        exec .encPayload s =
          .next (abort .ioError { s with
            src := { s.src.scanned i with faults := s.src.faults.drop (i + 1) }, snk := k
            symCnt := BitVec.ofNat 64 i }) ∧
        s.snk.Appended (payloadBits s.codes (s.src.input.take i)) k

/-- R228, and R96: a command whose prerequisite state is missing, or whose count is above 32, raises IllegalCommand and changes
nothing but STATUS. DEC_PAYLOAD checks before its first change of state, so SYMCNT stands too (R228 and ruling D33, where R190's
pseudocode has it the other way round: log entry 10). -/
def Obligations.PrerequisitesAreChecked : Prop :=
  ∀ s : State,
    (s.src.rdValid = false →
      exec .rdBit s = .next (abort .illegalCommand s) ∧ exec .hdrRead s = .next (abort .illegalCommand s) ∧
      ∀ n, exec (.rdBits n) s = .next (abort .illegalCommand s)) ∧
    (∀ n : BitVec 6, 32 < n.toNat →
      exec (.wrBits n) s = .next (abort .illegalCommand s) ∧ exec (.rdBits n) s = .next (abort .illegalCommand s)) ∧
    (s.tree.treeValid = false → exec .gencodes s = .next (abort .illegalCommand s)) ∧
    (s.codesValid = false → exec .encPayload s = .next (abort .illegalCommand s)) ∧
    (s.freq.sum ≠ 0 → (s.src.rdValid = false ∨ s.tree.treeValid = false) →
      exec .decPayload s = .next (abort .illegalCommand s))

/-- R123: fields written by WR_BITS from WCNT = 0 and flushed come back, each modulo 2^n, when the bytes they went out as are read
with RD_INIT and RD_BITS of the same widths; their number is ⌈(Σ n) / 8⌉. -/
def Obligations.BitRoundTrip : Prop :=
  ∀ (fs : List (BitVec 6 × Word)) (s : State), (∀ p ∈ fs, p.1.toNat ≤ 32) → s.status.err = false → s.snk.wcnt = 0 →
    s.snk.Ready (((fs.map fun p => p.1.toNat).sum + 7) / 8) →
    ∃ t u : State,
      s.writeFields fs = .next t ∧ exec .flush t = .next u ∧ u.status.err = false ∧
      u.snk.outCount.toNat = s.snk.outCount.toNat + ((fs.map fun p => p.1.toNat).sum + 7) / 8 ∧
      ∀ r : State, r.status.err = false → r.src.NoFault → u.snk.Holds s.snk.outCount.toNat r.src.input →
        ∃ r1 r2 : State,
          exec .rdInit r = .next r1 ∧
          r1.readFields (fs.map Prod.fst) = some (fs.map fun p => p.2 &&& BitVec.ofNat 32 (2 ^ p.1.toNat - 1), r2) ∧
          r2.status.err = false

-- Counting and the header

/-- R132, R230, R42: COUNT leaves in FREQ how often each byte occurs in IN, resets the reader and leaves SRC_POS at IN_LEN; where
the read at index i is the first to fail, it aborts with the counts of the i bytes before it and SRC_POS at i, and so does
ENCODE, in stage COUNT, with nothing written (R181, R227). -/
def Obligations.CountCountsTheInput : Prop :=
  ∀ s : State,
    (s.src.NoFault →
      ∃ f : FreqTable,
        exec .count s =
          .next (complete { s with
            freq := f, tree := { s.tree with treeValid := false }, codesValid := false
            src := s.src.scanned s.src.inLen.toNat }) ∧
        f.Counts s.src.input) ∧
    ∀ i, i < s.src.inLen.toNat → (∀ x ∈ s.src.faults.take i, x = false) → s.src.faults.getD i false = true →
      ∃ f : FreqTable,
        exec .count s =
          .next (abort .ioError { s with
            freq := f, tree := { s.tree with treeValid := false }, codesValid := false
            src := { s.src.scanned i with faults := s.src.faults.drop (i + 1) } }) ∧
        exec .encode s =
          .next (abort .ioError { s with
            freq := f, tree := { s.tree with treeValid := false }, codesValid := false
            src := { s.src.scanned i with faults := s.src.faults.drop (i + 1) }
            snk := s.snk.fresh, symCnt := 0, stage := some 0x07 }) ∧
        f.Counts (s.src.input.take i)

/-- R130, R131: the thresholds of the size classes, the one frequency with none, and the widths. -/
def Obligations.SizeClassesHaveTheirThresholds : Prop :=
  ∀ f : Word,
    (sizeClass f = some 0#2 ↔ f.toNat = 0) ∧
    (sizeClass f = some 1#2 ↔ 1 ≤ f.toNat ∧ f.toNat ≤ 255) ∧
    (sizeClass f = some 2#2 ↔ 256 ≤ f.toNat ∧ f.toNat ≤ 65535) ∧
    (sizeClass f = some 3#2 ↔ 65536 ≤ f.toNat ∧ f.toNat ≤ 2 ^ 32 - 2) ∧
    (sizeClass f = none ↔ f.toNat = 2 ^ 32 - 1) ∧
    classWidth 0#2 = 0 ∧ classWidth 1#2 = 8 ∧ classWidth 2#2 = 16 ∧ classWidth 3#2 = 32

/-- R133, R223: HDR_WRITE appends all 256 classes and then all the values; with an entry of 2^32 - 1 it writes no bit and raises
FrequencyRange. -/
def Obligations.HdrWriteAppendsTheHeader : Prop :=
  ∀ s : State,
    ((∀ b : Byte, (s.freq.entry b).toNat ≠ 2 ^ 32 - 1) → s.snk.Ready ((s.snk.wcnt.toNat + 8 * headerBytes s.freq) / 8) →
      ∃ k : Sink,
        exec .hdrWrite s = .next (complete { s with snk := k }) ∧ s.snk.Appended (headerBits s.freq) k) ∧
    ((∃ b : Byte, (s.freq.entry b).toNat = 2 ^ 32 - 1) → exec .hdrWrite s = .next (abort .frequencyRange s))

/-- R80: a header's length in bits and in bytes, with its bounds; at least 65 bytes unless the table is all zero. -/
def Obligations.HeaderLengthIsWholeBytes : Prop :=
  ∀ f : FreqTable, (∀ b : Byte, (f.entry b).toNat ≠ 2 ^ 32 - 1) →
    (headerBits f).length =
      512 + ((List.range 256).map fun b => classWidth ((sizeClass (f.entry (BitVec.ofNat 8 b))).getD 0)).sum ∧
    (headerBits f).length = 8 * headerBytes f ∧ 64 ≤ headerBytes f ∧ headerBytes f ≤ 1088 ∧
    (headerBytes f = 64 ↔ ∀ b : Byte, f.entry b = 0)

/-- R134, R230: HDR_READ takes any header off the stream, canonical or not, into FREQ, and clears the valid bits; a stream that
ends before the header does raises TruncatedStream with the values read whole in FREQ and 0 elsewhere (all 0 where it ends
among the classes), and so does DECODE, in stage HDR_READ (R192, R227). -/
def Obligations.HdrReadParsesAHeader : Prop :=
  ∀ s : State,
    (s.src.rdValid = true → s.src.rcnt.toNat ≤ 8 → s.src.NoFault →
      (∀ (cs : List (BitVec 2)) (f : FreqTable) (rest : List Bool), ClassesFit cs f →
        s.src.ahead = headerWith cs f ++ rest →
        ∃ q : Source,
          exec .hdrRead s =
            .next (complete { s with
              freq := f, tree := { s.tree with treeValid := false }, codesValid := false, src := q }) ∧
          s.src.Consumed (headerWith cs f).length q) ∧
      (s.src.ahead.length < 512 →
        ∃ q : Source,
          exec .hdrRead s =
            .next (abort .truncatedStream { s with
              freq := Vector.replicate 256 0, tree := { s.tree with treeValid := false }, codesValid := false
              src := q }) ∧
          s.src.Consumed s.src.ahead.length q ∧ q.rcnt = 0) ∧
      ∀ (cs : List (BitVec 2)) (f : FreqTable) (rest : List Bool), ClassesFit cs f →
        headerWith cs f = s.src.ahead ++ rest → rest ≠ [] →
        ∃ (q : Source) (g : FreqTable),
          exec .hdrRead s =
            .next (abort .truncatedStream { s with
              freq := g, tree := { s.tree with treeValid := false }, codesValid := false, src := q }) ∧
          (∀ b : Byte, g.entry b = if valueEnd cs b ≤ s.src.ahead.length then f.entry b else 0) ∧
          s.src.Consumed s.src.ahead.length q ∧ q.rcnt = 0) ∧
    ∀ (cs : List (BitVec 2)) (f : FreqTable) (rest : List Bool), s.src.NoFault → ClassesFit cs f →
      headerWith cs f = s.src.input.flatMap byteBits ++ rest → rest ≠ [] →
      ∃ (q0 q : Source) (g : FreqTable),
        exec .rdInit s = .next (complete { s with src := q0 }) ∧ q0.Consumed (8 * s.src.inLen.toNat) q ∧ q.rcnt = 0 ∧
        exec .decode s =
          .next (abort .truncatedStream { s with
            freq := g, tree := { s.tree with treeValid := false }, codesValid := false, src := q, snk := s.snk.fresh
            symCnt := 0, stage := some 0x09 }) ∧
        ∀ b : Byte, g.entry b = if valueEnd cs b ≤ 8 * s.src.inLen.toNat then f.entry b else 0

/-- R135: a table without an entry of 2^32 - 1, written by HDR_WRITE from WCNT = 0 and flushed, is what RD_INIT and HDR_READ bring
back from the bytes it went out as. -/
def Obligations.HeaderRoundTrip : Prop :=
  ∀ s : State, (∀ b : Byte, (s.freq.entry b).toNat ≠ 2 ^ 32 - 1) → s.status.err = false → s.snk.wcnt = 0 →
    s.snk.Ready (headerBytes s.freq) →
    ∃ t u : State,
      exec .hdrWrite s = .next t ∧ exec .flush t = .next u ∧ u.status.err = false ∧
      u.snk.outCount.toNat = s.snk.outCount.toNat + headerBytes s.freq ∧
      ∀ r : State, r.status.err = false → r.src.NoFault → u.snk.Holds s.snk.outCount.toNat r.src.input →
        ∃ r1 r2 : State,
          exec .rdInit r = .next r1 ∧ exec .hdrRead r1 = .next r2 ∧ r2.freq = s.freq ∧ r2.status.err = false

-- The tree

/-- R150, R155, R156: BUILD makes the tree that is a function of FREQ alone, and clears CODES_VALID; on an all-zero table it raises
EmptyInput and changes STATUS only (and the transient state an abort discards). -/
def Obligations.BuildMakesTheTreeOfFreq : Prop :=
  ∀ s : State,
    ((∃ b : Byte, s.freq.entry b ≠ 0) →
      exec .build s = .next (complete { s with tree := Tree.build s.freq, codesValid := false })) ∧
    ((∀ b : Byte, s.freq.entry b = 0) → exec .build s = .next (abort .emptyInput s))

/-- R157: the shape of the tree of k ≥ 1 leaves. -/
def Obligations.BuiltTreeHasTheStatedShape : Prop :=
  ∀ f : FreqTable, 1 ≤ f.leaves →
    (Tree.build f).nNodes.toNat = 2 * f.leaves - 1 ∧
    (2 ≤ f.leaves → (Tree.build f).root.toNat = 2 * f.leaves - 2) ∧
    (f.leaves = 1 → (Tree.build f).root = 0) ∧
    (∀ i : NodeIx, i.toNat < (Tree.build f).nNodes.toNat → ((Tree.build f).node i).leaf = false →
      ((Tree.build f).node i).left ≠ ((Tree.build f).node i).right ∧
      ((Tree.build f).node i).left.toNat < i.toNat ∧ ((Tree.build f).node i).right.toNat < i.toNat) ∧
    (∀ i : NodeIx, i.toNat < (Tree.build f).nNodes.toNat → i ≠ (Tree.build f).root →
      ∃! m : NodeIx, m.toNat < (Tree.build f).nNodes.toNat ∧ ((Tree.build f).node m).leaf = false ∧
        (((Tree.build f).node m).left = i ∨ ((Tree.build f).node m).right = i)) ∧
    ((Tree.build f).node (Tree.build f).root).w.toNat = f.sum

/-- R36, R37, R150, R151, R154: the leaves stand first, one for each symbol of nonzero frequency, in ascending symbol order; the
entries at NNODES and above are zero. -/
def Obligations.BuiltLeavesAreTheSymbolsInOrder : Prop :=
  ∀ f : FreqTable, 1 ≤ f.leaves →
    (Tree.build f).nLeaves.toNat = f.leaves ∧ (Tree.build f).treeValid = true ∧
    (∀ b : Byte, f.entry b ≠ 0 →
      (Tree.build f).node (BitVec.ofNat 9 ((f.toList.take b.toNat).filter fun x => x != 0).length) =
        { w := (f.entry b).setWidth 64, leaf := true, sym := b, left := 0, right := 0 }) ∧
    ∀ i : NodeIx, (Tree.build f).nNodes.toNat ≤ i.toNat → (Tree.build f).node i = ⟨0, false, 0, 0, 0⟩

/-- R150 to R153, R160: each internal node, when it was made, took the two least of the nodes not yet taken, in the order of
(weight, index), the least as its left child; its weight is their exact sum. -/
def Obligations.EachMergeTakesTheTwoLeast : Prop :=
  ∀ (f : FreqTable) (i : NodeIx), 1 ≤ f.leaves → f.leaves ≤ i.toNat → i.toNat < (Tree.build f).nNodes.toNat →
    ((Tree.build f).node i).leaf = false ∧ ((Tree.build f).node i).sym = 0 ∧
    ((Tree.build f).node i).w.toNat =
      ((Tree.build f).node ((Tree.build f).node i).left).w.toNat
        + ((Tree.build f).node ((Tree.build f).node i).right).w.toNat ∧
    ¬(Tree.build f).Taken f.leaves ((Tree.build f).node i).left.toNat i.toNat ∧
    ¬(Tree.build f).Taken f.leaves ((Tree.build f).node i).right.toNat i.toNat ∧
    (Tree.build f).Before ((Tree.build f).node i).left ((Tree.build f).node i).right ∧
    ∀ j : NodeIx, j.toNat < i.toNat → ¬(Tree.build f).Taken f.leaves j.toNat i.toNat →
      j ≠ ((Tree.build f).node i).left → j ≠ ((Tree.build f).node i).right →
      (Tree.build f).Before ((Tree.build f).node i).right j

-- The code table

/-- R170, R171: on the tree of FREQ, GENCODES completes; a symbol without frequency gets no code, the only symbol of a one-leaf tree
the code 0, and any other symbol the path from the root to its leaf, which meets no leaf before its end. -/
def Obligations.GencodesMakesTheCodes : Prop :=
  ∀ s : State, s.tree.treeValid = true → s.TreeOk →
    ∃ c : CodeMap,
      exec .gencodes s = .next (complete { s with codes := c, codesValid := true }) ∧
      ∀ b : Byte,
        (s.freq.entry b = 0 → c.code b = []) ∧
        (s.freq.entry b ≠ 0 → s.freq.leaves = 1 → c.code b = [false]) ∧
        (s.freq.entry b ≠ 0 → 2 ≤ s.freq.leaves →
          (s.tree.node (s.tree.follow s.tree.root (c.code b))).leaf = true ∧
          (s.tree.node (s.tree.follow s.tree.root (c.code b))).sym = b ∧
          ∀ p : Code, p <+: c.code b → p ≠ c.code b → (s.tree.node (s.tree.follow s.tree.root p)).leaf = false)

/-- R173: no code is a prefix of another symbol's. -/
def Obligations.CodesArePrefixFree : Prop :=
  ∀ (f : FreqTable) (c : CodeMap) (a b : Byte), (Tree.build f).genCodes = some c → a ≠ b → f.entry a ≠ 0 →
    f.entry b ≠ 0 → ¬c.code a <+: c.code b

/-- R172, R175, R158: the codes cover exactly the symbols of nonzero frequency, and none is longer than k - 1 bits (1 bit when
k = 1), so never longer than 255. -/
def Obligations.CodesCoverAndFit : Prop :=
  ∀ (f : FreqTable) (c : CodeMap) (b : Byte), 1 ≤ f.leaves → (Tree.build f).genCodes = some c →
    (c.code b ≠ [] ↔ f.entry b ≠ 0) ∧ (c.code b).length ≤ max 1 (f.leaves - 1) ∧ (c.code b).length ≤ 255

/-- R174: the code is complete: Σ 2^(-|CODE[s]|) over the symbols of nonzero frequency is 1, and 1/2 when k = 1; both times 2^255. -/
def Obligations.CodesAreComplete : Prop :=
  ∀ (f : FreqTable) (c : CodeMap), 1 ≤ f.leaves → (Tree.build f).genCodes = some c →
    ((List.range 256).map fun b =>
      if f.entry (BitVec.ofNat 8 b) = 0 then 0 else 2 ^ (255 - (c.code (BitVec.ofNat 8 b)).length)).sum =
      if f.leaves = 1 then 2 ^ 254 else 2 ^ 255

-- The encoder

/-- R180: ENC_PAYLOAD appends the code of every input byte, in order, and leaves SYMCNT and SRC_POS at IN_LEN and the reader
reset. -/
def Obligations.EncPayloadAppendsTheCodes : Prop :=
  ∀ s : State, s.codesValid = true → s.src.NoFault → (∀ b ∈ s.src.input, s.codes.code b ≠ []) →
    s.snk.Ready ((s.snk.wcnt.toNat + (payloadBits s.codes s.src.input).length) / 8) →
    ∃ k : Sink,
      exec .encPayload s =
        .next (complete { s with
          src := s.src.scanned s.src.inLen.toNat, snk := k, symCnt := s.src.inLen.setWidth 64 }) ∧
      s.snk.Appended (payloadBits s.codes s.src.input) k

/-- R180, R227, R229: an input byte without a code raises UncodedSymbol, with the codes of the bytes before it written, SYMCNT at its
index and SRC_POS one past it. -/
def Obligations.AnUncodedByteAborts : Prop :=
  ∀ (s : State) (xs ys : List Byte) (b : Byte), s.codesValid = true → s.src.NoFault → s.src.input = xs ++ b :: ys →
    (∀ x ∈ xs, s.codes.code x ≠ []) → s.codes.code b = [] →
    s.snk.Ready ((s.snk.wcnt.toNat + (payloadBits s.codes xs).length) / 8) →
    ∃ k : Sink,
      exec .encPayload s =
        .next (abort .uncodedSymbol { s with
          src := s.src.scanned (xs.length + 1), snk := k, symCnt := BitVec.ofNat 64 xs.length }) ∧
      s.snk.Appended (payloadBits s.codes xs) k

/-- R79, R181, R183: ENCODE of an input with the counts `f` writes, from OUT[0], the header of `f`, the code of every byte by the
codes of the tree of `f`, and 0 to 7 zero bits, in H + ⌈P / 8⌉ bytes; FREQ, the tree and the code table stay. -/
def Obligations.EncodeWritesHeaderPayloadAndPad : Prop :=
  ∀ (s : State) (f : FreqTable) (c : CodeMap), s.src.NoFault → f.Counts s.src.input → s.src.inLen ≠ 0 →
    (∀ b : Byte, (f.entry b).toNat ≠ 2 ^ 32 - 1) → (Tree.build f).genCodes = some c →
    s.snk.fresh.Ready (headerBytes f + (payloadLength f c + 7) / 8) →
    ∃ k : Sink,
      exec .encode s =
        .next (complete { s with
          freq := f, tree := Tree.build f, codes := c, codesValid := true, snk := k
          src := { s.src.scanned s.src.inLen.toNat with faults := s.src.faults.drop (2 * s.src.inLen.toNat) }
          symCnt := s.src.inLen.setWidth 64 }) ∧
      k.wacc = 0 ∧ k.wcnt = 0 ∧ k.outCount.toNat = headerBytes f + (payloadLength f c + 7) / 8 ∧
      s.snk.fresh.Appended
        (headerBits f ++ payloadBits c s.src.input ++ List.replicate ((8 - payloadLength f c % 8) % 8) false) k

/-- R182, R222, R223: ENCODE's checks, made in stage ENCODE after the count and before any bit is written: EmptyInput for an empty
input, FrequencyRange for a count of 2^32 - 1. -/
def Obligations.EncodeChecksBeforeWriting : Prop :=
  ∀ (s : State) (f : FreqTable), s.src.NoFault → f.Counts s.src.input →
    (s.src.inLen = 0 ∨ ∃ b : Byte, (f.entry b).toNat = 2 ^ 32 - 1) →
    exec .encode s =
      .next (abort (if s.src.inLen = 0 then .emptyInput else .frequencyRange) { s with
        freq := f, tree := { s.tree with treeValid := false }, codesValid := false, snk := s.snk.fresh, symCnt := 0
        src := s.src.scanned s.src.inLen.toNat, stage := some 0x0E })

-- The decoder

/-- R190, R44: on the tree of FREQ and a stream that begins with the codes of TOTAL symbols, DEC_PAYLOAD sends the symbols to the
sink in order, past the bit writer, and consumes exactly their bits. -/
def Obligations.DecPayloadEmitsTheSymbols : Prop :=
  ∀ (s : State) (c : CodeMap) (xs : List Byte) (rest : List Bool), s.src.rdValid = true → s.src.rcnt.toNat ≤ 8 →
    s.src.NoFault → s.tree.treeValid = true → s.TreeOk → s.tree.genCodes = some c →
    (∀ b ∈ xs, s.freq.entry b ≠ 0) → xs.length = s.freq.sum → s.src.ahead = payloadBits c xs ++ rest →
    s.snk.Ready xs.length →
    ∃ q : Source,
      exec .decPayload s =
        .next (complete { s with src := q, snk := s.snk.emitted xs, symCnt := BitVec.ofNat 64 xs.length }) ∧
      s.src.Consumed (payloadBits c xs).length q

/-- R191: with a tree of one leaf each symbol takes one bit, whatever its value. -/
def Obligations.ASingleLeafTakesAnyBit : Prop :=
  ∀ (s : State) (b : Byte), s.src.rdValid = true → s.src.rcnt.toNat ≤ 8 → s.src.NoFault → s.tree.treeValid = true →
    s.TreeOk → s.freq.leaves = 1 → s.freq.entry b ≠ 0 → s.freq.sum ≤ s.src.ahead.length → s.snk.Ready s.freq.sum →
    ∃ q : Source,
      exec .decPayload s =
        .next (complete { s with
          src := q, snk := s.snk.emitted (List.replicate s.freq.sum b), symCnt := BitVec.ofNat 64 s.freq.sum }) ∧
      s.src.Consumed s.freq.sum q

/-- R195, R224, R227: a stream that ends before TOTAL symbols raises TruncatedStream, with the symbols it did hold emitted and
counted: `xs` are those, and no code is a prefix of what is left; of a one-leaf tree every bit is a symbol (R191). The same of
DECODE, after the header, in stage DEC_PAYLOAD (R192). -/
def Obligations.AShortPayloadIsTruncated : Prop :=
  ∀ s : State, s.src.NoFault →
    (s.src.rdValid = true → s.src.rcnt.toNat ≤ 8 → s.tree.treeValid = true → s.TreeOk →
      (∀ (c : CodeMap) (xs : List Byte) (rest : List Bool), s.tree.genCodes = some c → 2 ≤ s.freq.leaves →
        (∀ b ∈ xs, s.freq.entry b ≠ 0) → xs.length < s.freq.sum → s.src.ahead = payloadBits c xs ++ rest →
        (∀ b : Byte, s.freq.entry b ≠ 0 → ¬c.code b <+: rest) → s.snk.Ready xs.length →
        ∃ q : Source,
          exec .decPayload s =
            .next (abort .truncatedStream { s with
              src := q, snk := s.snk.emitted xs, symCnt := BitVec.ofNat 64 xs.length }) ∧
          s.src.Consumed s.src.ahead.length q ∧ q.rcnt = 0) ∧
      (∀ b : Byte, s.freq.leaves = 1 → s.freq.entry b ≠ 0 → s.src.ahead.length < s.freq.sum →
        s.snk.Ready s.src.ahead.length →
        ∃ q : Source,
          exec .decPayload s =
            .next (abort .truncatedStream { s with
              src := q, snk := s.snk.emitted (List.replicate s.src.ahead.length b)
              symCnt := BitVec.ofNat 64 s.src.ahead.length }) ∧
          s.src.Consumed s.src.ahead.length q ∧ q.rcnt = 0)) ∧
    ∀ (cs : List (BitVec 2)) (f : FreqTable) (c : CodeMap) (xs : List Byte) (rest : List Bool), ClassesFit cs f →
      (Tree.build f).genCodes = some c → xs.length < f.sum → s.snk.fresh.Ready xs.length →
      (2 ≤ f.leaves ∧ (∀ b ∈ xs, f.entry b ≠ 0) ∧ (∀ b : Byte, f.entry b ≠ 0 → ¬c.code b <+: rest) ∧
          s.src.input.flatMap byteBits = headerWith cs f ++ payloadBits c xs ++ rest ∨
        f.leaves = 1 ∧ (∀ b ∈ xs, f.entry b ≠ 0) ∧ rest.length = xs.length ∧
          s.src.input.flatMap byteBits = headerWith cs f ++ rest) →
      ∃ q0 q : Source,
        exec .rdInit s = .next (complete { s with src := q0 }) ∧ q0.Consumed (8 * s.src.inLen.toNat) q ∧ q.rcnt = 0 ∧
        exec .decode s =
          .next (abort .truncatedStream { s with
            freq := f, tree := Tree.build f, codesValid := false, src := q, snk := s.snk.fresh.emitted xs
            symCnt := BitVec.ofNat 64 xs.length, stage := some 0x0D })

/-- R193: a zero total completes DEC_PAYLOAD at once, whatever the reader and the tree, and DECODE of a header of zero symbols with
no BUILD. -/
def Obligations.AZeroTotalDecodesToNothing : Prop :=
  ∀ s : State,
    (s.freq.sum = 0 → exec .decPayload s = .next (complete { s with symCnt := 0 })) ∧
    ∀ (cs : List (BitVec 2)) (f : FreqTable) (rest : List Bool), ClassesFit cs f → f.sum = 0 → s.src.NoFault →
      s.src.input.flatMap byteBits = headerWith cs f ++ rest →
      ∃ q0 q : Source,
        exec .rdInit s = .next (complete { s with src := q0 }) ∧ q0.Consumed (headerWith cs f).length q ∧
        exec .decode s =
          .next (complete { s with
            freq := f, tree := { s.tree with treeValid := false }, codesValid := false, src := q, snk := s.snk.fresh
            symCnt := 0 })

/-- R192, R194: DECODE of a stream that holds a header of `f`, canonical or not, and the codes of TOTAL symbols by the tree of `f`,
whatever follows, writes the symbols from OUT[0]. -/
def Obligations.DecodeEmitsTheSymbols : Prop :=
  ∀ (s : State) (cs : List (BitVec 2)) (f : FreqTable) (c : CodeMap) (xs : List Byte) (rest : List Bool),
    ClassesFit cs f → s.src.NoFault → (Tree.build f).genCodes = some c → (∀ b ∈ xs, f.entry b ≠ 0) → xs ≠ [] →
    xs.length = f.sum → s.src.input.flatMap byteBits = headerWith cs f ++ payloadBits c xs ++ rest →
    s.snk.fresh.Ready xs.length →
    ∃ q0 q : Source,
      exec .rdInit s = .next (complete { s with src := q0 }) ∧
      q0.Consumed ((headerWith cs f).length + (payloadBits c xs).length) q ∧
      exec .decode s =
        .next (complete { s with
          freq := f, tree := Tree.build f, codesValid := false, src := q, snk := s.snk.fresh.emitted xs
          symCnt := BitVec.ofNat 64 xs.length })

/-- R195: a decode that completes has emitted exactly TOTAL symbols. -/
def Obligations.ACompletedDecodeHasTheRightLength : Prop :=
  ∀ (i : Instr) (s t : State), i = .decPayload ∨ i = .decode → s.status.err = false → exec i s = .next t →
    t.status.err = false →
    t.symCnt = t.freq.total ∧
    t.snk.outCount = (if i = .decode then 0 else s.snk.outCount) + t.freq.total

/-- R184: decoding what an ENCODE that completed wrote gives the input back. -/
def Obligations.DecodeOfEncodeIsTheInput : Prop :=
  ∀ s t r : State, s.status.err = false → exec .encode s = .next t → t.status.err = false → r.status.err = false →
    r.src.NoFault → t.snk.Holds 0 r.src.input → r.snk.fresh.Ready s.src.inLen.toNat →
    ∃ u : State,
      exec .decode r = .next u ∧ u.status.err = false ∧ u.status.done = true ∧ u.snk.Holds 0 s.src.input ∧
      u.symCnt = s.src.inLen.setWidth 64

-- The whole machine

/-- R49, R50: the invariants of an idle block hold after reset. -/
def Obligations.ResetMeetsTheInvariant : Prop := State.reset.Inv

/-- R50, with R21, R25, R30, R36 and R41: every step keeps the invariants of an idle block, from any state that has them. -/
def Obligations.StepKeepsTheInvariant : Prop := ∀ s t : State, s.Inv → step s = .next t → t.Inv

/-- R157, R158, R170: no step from a state with the invariants ends in a fault: GENCODES always ends its walk. -/
def Obligations.NoStepFaults : Prop := ∀ (s : State) (f : Fault), s.Inv → step s ≠ .fault f

/-- R22, R28, R29, R51: what no command writes. Only RD_BIT and RD_BITS write VALUE; none writes CMD, IN_LEN, a selector, IN, a
parameter of the platform or the host. -/
def Obligations.CommandsLeaveTheHostsRegisters : Prop :=
  ∀ (i : Instr) (s t : State), exec i s = .next t →
    t.cmd = s.cmd ∧ t.nodeSel = s.nodeSel ∧ t.codeSel = s.codeSel ∧ t.src.inLen = s.src.inLen ∧ t.src.inBuf = s.src.inBuf ∧
    t.snk.outCap = s.snk.outCap ∧ t.host = s.host ∧ t.status.rej = s.status.rej ∧
    ((i ≠ .rdBit ∧ ∀ n, i ≠ .rdBits n) → t.value = s.value)

/-- R51, R70, R72, R259: the commands that do not reach the source leave it alone, those that do not reach the sink leave it alone,
of the others all but ENCODE and DECODE append at OUT_COUNT, and no command changes OUT at the final OUT_COUNT and above (for a
sink whose indices fit OUT_COUNT). -/
def Obligations.CommandsReachOnlyTheirPorts : Prop :=
  ∀ (i : Instr) (s t : State), exec i s = .next t →
    (i ∈ [.flush, .hdrWrite, .build, .gencodes] ∨ (∃ n, i = .wrBits n) → t.src = s.src) ∧
    (i ∈ [.rdInit, .rdBit, .count, .hdrRead, .build, .gencodes] ∨ (∃ n, i = .rdBits n) → t.snk = s.snk) ∧
    (i = .clear → t.snk.outBuf = s.snk.outBuf) ∧
    (s.snk.outCap < 2 ^ 64 → i ≠ .encode → i ≠ .decode → ∀ a, a < s.snk.outCount.toNat →
      t.snk.outBuf.read a = s.snk.outBuf.read a) ∧
    (s.snk.outCap < 2 ^ 64 → ∀ a, t.snk.outCount.toNat ≤ a → t.snk.outBuf.read a = s.snk.outBuf.read a)
end

