-- ==== Sys2Proof/Laws/Tables.lean ====
section
/-! SUPPORT. Laws/Tables.lean: reading FREQ and the code table after a write (10_state.md R34, R39). -/

namespace Sys2Proof.Machine

@[simp] theorem entry_setEntry (f : FreqTable) (a b : Byte) (v : Word) :
    (f.setEntry a v).entry b = if b = a then v else f.entry b := by
  by_cases h : b = a
  · subst h; simp [FreqTable.entry, FreqTable.setEntry]
  · have : a.toNat ≠ b.toNat := fun e => h (BitVec.eq_of_toNat_eq e.symm)
    simp [FreqTable.entry, FreqTable.setEntry, this, h, Vector.getElem_set_ne]

@[simp] theorem entry_zero (b : Byte) : FreqTable.zero.entry b = 0 := by simp [FreqTable.entry, FreqTable.zero]

@[simp] theorem code_setCode (c : CodeMap) (a b : Byte) (p : Code) :
    (c.setCode a p).code b = if b = a then p else c.code b := by
  by_cases h : b = a
  · subst h; simp [CodeMap.code, CodeMap.setCode]
  · have : a.toNat ≠ b.toNat := fun e => h (BitVec.eq_of_toNat_eq e.symm)
    simp [CodeMap.code, CodeMap.setCode, this, h, Vector.getElem_set_ne]

@[simp] theorem code_empty (b : Byte) : CodeMap.empty.code b = [] := by simp [CodeMap.code, CodeMap.empty]

end Sys2Proof.Machine
end

