-- ==== Sys2Proof/Laws/Queue.lean ====
section
/-! SUPPORT. Laws/Queue.lean: the order of the priority structure is the lexicographic one and total (42_tree_builder.md R152),
and insertion keeps it, so that the head of PQ is its least pair. -/

namespace Sys2Proof.Machine

theorem lt_iff (x y : PqEntry) :
    x.lt y = true ↔ x.w.toNat < y.w.toNat ∨ (x.w = y.w ∧ x.ix.toNat < y.ix.toNat) := by simp [PqEntry.lt]

theorem lt_trans' {x y z : PqEntry} (h : x.lt y = true) (h' : y.lt z = true) : x.lt z = true := by
  rw [lt_iff] at *
  rcases h with h | ⟨h, h1⟩ <;> rcases h' with h' | ⟨h', h1'⟩
  · exact .inl (by omega)
  · exact .inl (by rw [← h']; exact h)
  · exact .inl (by rw [h]; exact h')
  · exact .inr ⟨h.trans h', by omega⟩

/-- Two pairs with different indices are ordered one way or the other. -/
theorem lt_total {x y : PqEntry} (h : x.ix ≠ y.ix) : x.lt y = true ∨ y.lt x = true := by
  rw [lt_iff, lt_iff]
  have hi : x.ix.toNat ≠ y.ix.toNat := fun e => h (BitVec.eq_of_toNat_eq e)
  by_cases hw : x.w = y.w
  · rw [hw]; simp; omega
  · have : x.w.toNat ≠ y.w.toNat := fun e => hw (BitVec.eq_of_toNat_eq e)
    omega

/-- PQ's form: every pair before another is less than it (R152). -/
def Ordered (q : List PqEntry) : Prop := q.Pairwise fun x y => x.lt y = true

theorem pqInsert_perm (e : PqEntry) (q : List PqEntry) : (pqInsert e q).Perm (e :: q) := by
  induction q with
  | nil => exact List.Perm.refl _
  | cons x q ih =>
    rw [pqInsert]
    split
    · exact List.Perm.refl _
    · exact (List.Perm.cons x ih).trans (List.Perm.swap e x q)

theorem mem_pqInsert {e x : PqEntry} {q : List PqEntry} : x ∈ pqInsert e q ↔ x = e ∨ x ∈ q := by
  rw [(pqInsert_perm e q).mem_iff]; simp

@[simp] theorem pqInsert_length (e : PqEntry) (q : List PqEntry) : (pqInsert e q).length = q.length + 1 :=
  (pqInsert_perm e q).length_eq

theorem pqInsert_ordered {e : PqEntry} {q : List PqEntry} (h : Ordered q) (hne : ∀ x ∈ q, x.ix ≠ e.ix) :
    Ordered (pqInsert e q) := by
  induction q with
  | nil => simp [pqInsert, Ordered]
  | cons x q ih =>
    have hx := List.pairwise_cons.1 h
    rw [pqInsert]
    split
    · rename_i hlt
      refine List.pairwise_cons.2 ⟨fun y hy => ?_, h⟩
      rcases List.mem_cons.1 hy with rfl | hy
      · exact hlt
      · exact lt_trans' hlt (hx.1 y hy)
    · rename_i hlt
      refine List.pairwise_cons.2 ⟨fun y hy => ?_, ih hx.2 fun y hy => hne y (List.mem_cons_of_mem _ hy)⟩
      rcases mem_pqInsert.1 hy with rfl | hy
      · rcases lt_total (hne x (List.mem_cons_self ..)) with h1 | h1
        · exact h1
        · exact absurd h1 hlt
      · exact hx.1 y hy

/-- The head of PQ is its least pair: extractMin (R150, R152). -/
theorem head_least {x y : PqEntry} {q : List PqEntry} (h : Ordered (x :: q)) (hy : y ∈ q) : x.lt y = true :=
  (List.pairwise_cons.1 h).1 y hy

end Sys2Proof.Machine
end

