-- ==== Sys2Proof/Laws/Tree.lean ====
section
/-! SUPPORT. Laws/Tree.lean: what BUILD's loops keep (42_tree_builder.md R150 to R153, R157): the arena, PQ and NNODES while the
leaves are added and while pairs are merged. -/

namespace Sys2Proof.Machine

theorem node_putNode (t : Tree) (i j : NodeIx) (n : Node) :
    (t.putNode i n).node j = if i = j ∧ i.toNat < 511 then n else t.node j := by
  simp only [Tree.putNode, Tree.node]
  rw [Vector.getElem?_setIfInBounds]
  by_cases h : i = j
  · subst h
    by_cases h2 : i.toNat < 511
    · simp [h2]
    · simp [h2]
  · have h3 : i.toNat ≠ j.toNat := fun e => h (BitVec.eq_of_toNat_eq e)
    simp [h, h3]

/-- What a new node leaves in the arena: itself at NNODES, and every other entry as it was. -/
theorem addNode_node {t : Tree} (h : t.nNodes.toNat < 511) (q : List PqEntry) (n : Node) (j : NodeIx) :
    (t.addNode q n).node j = if j = t.nNodes then n else t.node j := by
  have : (t.addNode q n).node j = (t.putNode t.nNodes n).node j := rfl
  rw [this, node_putNode]
  by_cases hj : j = t.nNodes
  · rw [if_pos ⟨hj.symm, h⟩, if_pos hj]
  · rw [if_neg (fun x => hj x.1.symm), if_neg hj]

theorem addNode_nNodes {t : Tree} (h : t.nNodes.toNat < 511) (q : List PqEntry) (n : Node) :
    (t.addNode q n).nNodes.toNat = t.nNodes.toNat + 1 := by
  have : (t.addNode q n).nNodes = t.nNodes + 1 := rfl
  rw [this, BitVec.toNat_add]; simp; omega

@[simp] theorem addNode_pq (t : Tree) (q : List PqEntry) (n : Node) :
    (t.addNode q n).pq = some (pqInsert { w := n.w, ix := t.nNodes } q) := rfl

@[simp] theorem addNode_nLeaves (t : Tree) (q : List PqEntry) (n : Node) : (t.addNode q n).nLeaves = t.nLeaves := rfl

@[simp] theorem addNode_treeValid (t : Tree) (q : List PqEntry) (n : Node) :
    (t.addNode q n).treeValid = t.treeValid := rfl

/-- The arena is zero from NNODES on, and PQ holds, in order, pairs of nodes in use with their weights. -/
structure Tree.Grown (t : Tree) (q : List PqEntry) : Prop where
  fit : t.nNodes.toNat ≤ 511
  unused : ∀ i : NodeIx, t.nNodes.toNat ≤ i.toNat → t.node i = Node.zero
  entry : ∀ e ∈ q, e.ix.toNat < t.nNodes.toNat ∧ e.w = (t.node e.ix).w
  ordered : Ordered q

theorem Tree.Grown.tail {t : Tree} {e : PqEntry} {q : List PqEntry} (h : t.Grown (e :: q)) : t.Grown q :=
  ⟨h.fit, h.unused, fun x hx => h.entry x (List.mem_cons_of_mem _ hx), (List.pairwise_cons.1 h.ordered).2⟩

theorem Tree.Grown.addNode {t : Tree} {q : List PqEntry} (h : t.Grown q) (hn : t.nNodes.toNat < 511) (n : Node) :
    (t.addNode q n).Grown (pqInsert { w := n.w, ix := t.nNodes } q) := by
  have hne : ∀ x ∈ q, x.ix ≠ t.nNodes := fun x hx e => by have := (h.entry x hx).1; rw [e] at this; omega
  refine ⟨by rw [addNode_nNodes hn]; omega, fun i hi => ?_, fun e he => ?_, pqInsert_ordered h.ordered hne⟩
  · rw [addNode_nNodes hn] at hi
    rw [addNode_node hn, if_neg (fun e => by rw [e] at hi; omega)]
    exact h.unused i (by omega)
  · rw [addNode_nNodes hn, addNode_node hn]
    rcases mem_pqInsert.1 he with rfl | he
    · simp
    · rw [if_neg (hne e he)]
      have := h.entry e he
      exact ⟨by omega, this.2⟩

-- The leaves

/-- The symbols of nonzero frequency from `b` on, with their frequencies, in ascending order. -/
def leafList : List Word → Nat → List (Nat × Word)
  | [], _ => []
  | f :: fs, b => if f = 0 then leafList fs (b + 1) else (b, f) :: leafList fs (b + 1)

theorem leafList_length (fs : List Word) (b : Nat) :
    (leafList fs b).length = (fs.filter fun x => x != 0).length := by
  induction fs generalizing b with
  | nil => rfl
  | cons f fs ih =>
    rw [leafList]
    by_cases h : f = 0
    · rw [if_pos h, ih, List.filter_cons, if_neg (by simp [h])]
    · rw [if_neg h, List.length_cons, ih, List.filter_cons, if_pos (by simpa using h), List.length_cons]

/-- What adding the leaves does (R150, R151): the i-th of them is the leaf of the i-th symbol of nonzero frequency, and PQ gets
a pair for each. -/
theorem addLeaves_spec (fs : List Word) (b : Nat) {t : Tree} {q : List PqEntry} (hq : t.pq = some q) (h : t.Grown q)
    (hfit : t.nNodes.toNat + (leafList fs b).length ≤ 511)
    (hall : ∀ i, i < t.nNodes.toNat → ∃ e ∈ q, e.ix.toNat = i) :
    ∃ q', (addLeaves fs b t).pq = some q' ∧ (addLeaves fs b t).Grown q' ∧
      (addLeaves fs b t).nNodes.toNat = t.nNodes.toNat + (leafList fs b).length ∧
      q'.length = q.length + (leafList fs b).length ∧
      (∀ i : NodeIx, i.toNat < t.nNodes.toNat → (addLeaves fs b t).node i = t.node i) ∧
      (∀ (i : NodeIx) (hi : i.toNat - t.nNodes.toNat < (leafList fs b).length), t.nNodes.toNat ≤ i.toNat →
        (addLeaves fs b t).node i =
          leafNode (leafList fs b)[i.toNat - t.nNodes.toNat].1 (leafList fs b)[i.toNat - t.nNodes.toNat].2) ∧
      (∀ i, i < (addLeaves fs b t).nNodes.toNat → ∃ e ∈ q', e.ix.toNat = i) := by
  induction fs generalizing b t q with
  | nil => exact ⟨q, hq, h, rfl, rfl, fun _ _ => rfl, fun i hi => absurd hi (by simp [leafList]), hall⟩
  | cons f fs ih =>
    by_cases hf : f = 0
    · have e1 : addLeaves (f :: fs) b t = addLeaves fs (b + 1) t := by rw [addLeaves, if_pos hf]
      have e2 : leafList (f :: fs) b = leafList fs (b + 1) := by rw [leafList, if_pos hf]
      rw [e2] at hfit
      simp only [e1, e2]
      exact ih (b + 1) hq h hfit hall
    · have e1 : addLeaves (f :: fs) b t = addLeaves fs (b + 1) (t.addNode q (leafNode b f)) := by
        rw [addLeaves, if_neg hf, hq]; rfl
      have e2 : leafList (f :: fs) b = (b, f) :: leafList fs (b + 1) := by rw [leafList, if_neg hf]
      rw [e2, List.length_cons] at hfit
      have hn : t.nNodes.toNat < 511 := by omega
      have hn1 := addNode_nNodes hn q (leafNode b f)
      obtain ⟨q', p1, p2, p3, p4, p5, p6, p7⟩ :=
        ih (b + 1) (t := t.addNode q (leafNode b f)) (addNode_pq ..) (h.addNode hn _) (by rw [hn1]; omega) (by
          intro i hi
          rw [hn1] at hi
          by_cases hi' : i = t.nNodes.toNat
          · exact ⟨_, mem_pqInsert.2 (.inl rfl), hi'.symm⟩
          · obtain ⟨e, he, hei⟩ := hall i (by omega)
            exact ⟨e, mem_pqInsert.2 (.inr he), hei⟩)
      simp only [e1, e2]
      refine ⟨q', p1, p2, by rw [p3, hn1, List.length_cons]; omega, by rw [p4, pqInsert_length, List.length_cons]; omega,
        fun i hi => ?_, fun i hi hle => ?_, p7⟩
      · rw [p5 i (by omega), addNode_node hn, if_neg (fun e => by rw [e] at hi; omega)]
      · by_cases hi' : i.toNat = t.nNodes.toNat
        · have hit : i = t.nNodes := BitVec.eq_of_toNat_eq hi'
          rw [p5 i (by omega), addNode_node hn, if_pos hit]
          simp [hi']
        · have hd : i.toNat - t.nNodes.toNat = (i.toNat - (t.nNodes.toNat + 1)) + 1 := by omega
          have hi2 : i.toNat - (t.addNode q (leafNode b f)).nNodes.toNat < (leafList fs (b + 1)).length := by
            rw [hn1]; rw [List.length_cons] at hi; omega
          rw [p6 i hi2 (by omega)]
          simp only [hn1, hd, List.getElem_cons_succ]

theorem blank_node (i : NodeIx) : Tree.blank.node i = Node.zero := by
  simp only [Tree.node, Tree.blank]
  rw [Vector.getElem?_replicate]
  split <;> rfl

theorem blank_grown : Tree.blank.Grown [] :=
  ⟨by decide, fun i _ => blank_node i, fun _ h => absurd h (by simp), List.Pairwise.nil⟩

/-- FREQ's symbols of nonzero frequency (R150). -/
def FreqTable.leafList (f : FreqTable) : List (Nat × Word) := Machine.leafList f.toList 0

theorem leafList_card (f : FreqTable) : f.leafList.length = f.leaves := leafList_length f.toList 0

theorem leaves_le (f : FreqTable) : f.leaves ≤ 256 := by
  have := List.length_filter_le (fun x => x != 0) f.toList
  simpa [FreqTable.leaves] using this

/-- BUILD before its first merge (R150). -/
theorem start_spec (f : FreqTable) :
    ∃ q, (Tree.start f).pq = some q ∧ (Tree.start f).Grown q ∧ (Tree.start f).nNodes.toNat = f.leaves ∧
      q.length = f.leaves ∧ (Tree.start f).nLeaves.toNat = f.leaves ∧
      (∀ (i : NodeIx) (hi : i.toNat < f.leafList.length),
        (Tree.start f).node i = leafNode f.leafList[i.toNat].1 f.leafList[i.toNat].2) ∧
      ∀ i, i < f.leaves → ∃ e ∈ q, e.ix.toNat = i := by
  have hle := leaves_le f
  have hl := leafList_card f
  have hb : Tree.blank.nNodes.toNat = 0 := rfl
  obtain ⟨q, p1, p2, p3, p4, -, p6, p7⟩ := addLeaves_spec f.toList 0 (t := Tree.blank) (q := []) rfl blank_grown
    (by rw [hb]; unfold FreqTable.leafList at hl; omega) (fun i hi => absurd hi (by rw [hb]; omega))
  rw [hb, Nat.zero_add] at p3
  have hn : (addLeaves f.toList 0 Tree.blank).nNodes.toNat = f.leaves := by rw [p3]; exact hl
  refine ⟨q, p1, ⟨p2.fit, p2.unused, p2.entry, p2.ordered⟩, hn, ?_, hn, fun i hi => ?_, fun i hi => p7 i (by rw [hn]; exact hi)⟩
  · rw [p4, List.length_nil, Nat.zero_add]; exact hl
  · exact p6 i hi (Nat.zero_le _)

-- The merges

/-- What the merge loop keeps (R150 to R153, R157), with `k` leaves: the pairs left and the nodes made add up to 2k; every
internal node has two different children below it, which were the two least of the nodes not yet taken when it was made; the
nodes not yet taken are those PQ holds. -/
structure Tree.Merging (t : Tree) (k : Nat) (q : List PqEntry) : Prop where
  grown : t.Grown q
  count : t.nNodes.toNat + q.length = 2 * k
  leaf : ∀ i : NodeIx, i.toNat < k → (t.node i).leaf = true
  inner : ∀ i : NodeIx, k ≤ i.toNat → i.toNat < t.nNodes.toNat → (t.node i).leaf = false ∧ (t.node i).sym = 0
  below : ∀ i : NodeIx, k ≤ i.toNat → i.toNat < t.nNodes.toNat →
    (t.node i).left.toNat < i.toNat ∧ (t.node i).right.toNat < i.toNat
  weight : ∀ i : NodeIx, k ≤ i.toNat → i.toNat < t.nNodes.toNat →
    (t.node i).w = (t.node (t.node i).left).w + (t.node (t.node i).right).w
  least : ∀ i : NodeIx, k ≤ i.toNat → i.toNat < t.nNodes.toNat →
    ¬t.Taken k (t.node i).left.toNat i.toNat ∧ ¬t.Taken k (t.node i).right.toNat i.toNat ∧
    t.Before (t.node i).left (t.node i).right ∧
    ∀ j : NodeIx, j.toNat < i.toNat → ¬t.Taken k j.toNat i.toNat → j ≠ (t.node i).left → j ≠ (t.node i).right →
      t.Before (t.node i).right j
  free : ∀ i, i < t.nNodes.toNat → ((∃ e ∈ q, e.ix.toNat = i) ↔ ¬t.Taken k i t.nNodes.toNat)

/-- Nodes below `j` decide what is taken below `j`. -/
theorem taken_congr {t t' : Tree} {k i j : Nat} (h : ∀ m : NodeIx, m.toNat < j → t'.node m = t.node m) :
    t'.Taken k i j ↔ t.Taken k i j := by
  constructor
  · rintro ⟨m, h1, h2, h3⟩; exact ⟨m, h1, h2, by rw [← h m h2]; exact h3⟩
  · rintro ⟨m, h1, h2, h3⟩; exact ⟨m, h1, h2, by rw [h m h2]; exact h3⟩

theorem before_iff_lt {t : Tree} {x y : PqEntry} (hx : x.w = (t.node x.ix).w) (hy : y.w = (t.node y.ix).w) :
    t.Before x.ix y.ix ↔ x.lt y = true := by rw [lt_iff, Tree.Before, hx, hy]

theorem merge_eq {t : Tree} {x y : PqEntry} {q : List PqEntry} (h : t.pq = some (x :: y :: q)) :
    t.merge = t.addNode q (t.innerNode x y) := by rw [Tree.merge, h]

theorem innerNode_leaf (t : Tree) (x y : PqEntry) : (t.innerNode x y).leaf = false := rfl

/-- One merge keeps it all. -/
theorem Tree.Merging.addNode {t : Tree} {k : Nat} {x y : PqEntry} {q : List PqEntry} (h : t.Merging k (x :: y :: q))
    (hk : k ≤ 256) (hkn : k ≤ t.nNodes.toNat) :
    (t.addNode q (t.innerNode x y)).Merging k (pqInsert { w := (t.innerNode x y).w, ix := t.nNodes } q) := by
  have hcount := h.count
  simp only [List.length_cons] at hcount
  have hn : t.nNodes.toNat < 511 := by omega
  have hx := h.grown.entry x (List.mem_cons_self ..)
  have hy := h.grown.entry y (List.mem_cons_of_mem _ (List.mem_cons_self ..))
  have hord := List.pairwise_cons.1 h.grown.ordered
  have hord2 := List.pairwise_cons.1 hord.2
  have hxy : x.lt y = true := hord.1 y (List.mem_cons_self ..)
  have hn1 := addNode_nNodes hn q (t.innerNode x y)
  have hold : ∀ i : NodeIx, i.toNat < t.nNodes.toNat → (t.addNode q (t.innerNode x y)).node i = t.node i := by
    intro i hi
    rw [addNode_node hn, if_neg (fun e => by rw [e] at hi; omega)]
  have hnew : (t.addNode q (t.innerNode x y)).node t.nNodes = t.innerNode x y := by rw [addNode_node hn, if_pos rfl]
  have htk : ∀ i j, j ≤ t.nNodes.toNat → ((t.addNode q (t.innerNode x y)).Taken k i j ↔ t.Taken k i j) :=
    fun i j hj => taken_congr fun m hm => hold m (by omega)
  have hbf : ∀ i j : NodeIx, i.toNat < t.nNodes.toNat → j.toNat < t.nNodes.toNat →
      ((t.addNode q (t.innerNode x y)).Before i j ↔ t.Before i j) := by
    intro i j hi hj; rw [Tree.Before, Tree.Before, hold i hi, hold j hj]
  have hcase : ∀ i : NodeIx, i.toNat < (t.addNode q (t.innerNode x y)).nNodes.toNat → i.toNat < t.nNodes.toNat ∨ i = t.nNodes := by
    intro i hi; rw [hn1] at hi
    by_cases e : i.toNat = t.nNodes.toNat
    · exact .inr (BitVec.eq_of_toNat_eq e)
    · exact .inl (by omega)
  have hxfree : ¬t.Taken k x.ix.toNat t.nNodes.toNat :=
    (h.free _ hx.1).1 ⟨x, List.mem_cons_self .., rfl⟩
  have hyfree : ¬t.Taken k y.ix.toNat t.nNodes.toNat :=
    (h.free _ hy.1).1 ⟨y, List.mem_cons_of_mem _ (List.mem_cons_self ..), rfl⟩
  refine { grown := h.grown.tail.tail.addNode hn _, count := by rw [hn1, pqInsert_length]; omega, leaf := ?_, inner := ?_,
           below := ?_, weight := ?_, least := ?_, free := ?_ }
  · intro i hi; rw [hold i (by omega)]; exact h.leaf i hi
  · intro i hki hi
    rcases hcase i hi with hi | rfl
    · rw [hold i hi]; exact h.inner i hki hi
    · rw [hnew]; exact ⟨rfl, rfl⟩
  · intro i hki hi
    rcases hcase i hi with hi | rfl
    · rw [hold i hi]; exact h.below i hki hi
    · rw [hnew]; exact ⟨hx.1, hy.1⟩
  · intro i hki hi
    rcases hcase i hi with hi | rfl
    · have hb := h.below i hki hi
      rw [hold i hi, hold _ (by omega), hold _ (by omega)]; exact h.weight i hki hi
    · rw [hnew]
      change (t.node x.ix).w + (t.node y.ix).w = _
      rw [← hold x.ix hx.1, ← hold y.ix hy.1]; rfl
  · intro i hki hi
    rcases hcase i hi with hi | rfl
    · have hb := h.below i hki hi
      obtain ⟨l1, l2, l3, l4⟩ := h.least i hki hi
      rw [hold i hi]
      refine ⟨by rwa [htk _ _ (by omega)], by rwa [htk _ _ (by omega)], (hbf _ _ (by omega) (by omega)).2 l3, ?_⟩
      intro j hj hfree h1 h2
      rw [htk _ _ (by omega)] at hfree
      exact (hbf _ _ (by omega) (by omega)).2 (l4 j hj hfree h1 h2)
    · rw [hnew]
      refine ⟨by rw [htk _ _ (le_refl _)]; exact hxfree, by rw [htk _ _ (le_refl _)]; exact hyfree,
        (hbf _ _ hx.1 hy.1).2 ((before_iff_lt hx.2 hy.2).2 hxy), ?_⟩
      intro j hj hfree h1 h2
      rw [htk _ _ (le_refl _)] at hfree
      obtain ⟨e, he, hej⟩ := (h.free _ hj).2 hfree
      have hje : e.ix = j := BitVec.eq_of_toNat_eq hej
      have heq : e ∈ q := by
        rcases List.mem_cons.1 he with rfl | he
        · exact absurd hje.symm h1
        · rcases List.mem_cons.1 he with rfl | he
          · exact absurd hje.symm h2
          · exact he
      have hent := h.grown.entry e (by simp [heq])
      rw [← hje]
      exact (hbf _ _ hy.1 hent.1).2 ((before_iff_lt hy.2 hent.2).2 (hord2.1 e heq))
  · intro i hi
    rw [hn1] at hi
    have hsplit : (t.addNode q (t.innerNode x y)).Taken k i (t.addNode q (t.innerNode x y)).nNodes.toNat ↔
        t.Taken k i t.nNodes.toNat ∨ x.ix.toNat = i ∨ y.ix.toNat = i := by
      rw [hn1]
      constructor
      · rintro ⟨m, m1, m2, m3⟩
        rcases hcase m (by rw [hn1]; exact m2) with hm | rfl
        · exact .inl ⟨m, m1, hm, by rwa [hold m hm] at m3⟩
        · rw [hnew] at m3; exact .inr m3
      · rintro (⟨m, m1, m2, m3⟩ | hxy)
        · exact ⟨m, m1, by omega, by rwa [hold m m2]⟩
        · exact ⟨t.nNodes, hkn, by omega, by rw [hnew]; exact hxy⟩
    rw [hsplit]
    by_cases hi' : i = t.nNodes.toNat
    · constructor
      · intro _
        rintro (⟨m, m1, m2, m3⟩ | e | e)
        · have := h.below m m1 m2; omega
        · have := hx.1; omega
        · have := hy.1; omega
      · intro _; exact ⟨_, mem_pqInsert.2 (.inl rfl), hi'.symm⟩
    · have hin : i < t.nNodes.toNat := by omega
      constructor
      · rintro ⟨e, he, hei⟩
        rcases mem_pqInsert.1 he with rfl | he
        · exact absurd hei.symm hi'
        · rintro (htak | e1 | e1)
          · exact (h.free i hin).1 ⟨e, by simp [he], hei⟩ htak
          · have hlt := hord.1 e (List.mem_cons_of_mem _ he)
            have : x.ix = e.ix := BitVec.eq_of_toNat_eq (e1.trans hei.symm)
            have hent := h.grown.entry e (by simp [he])
            rw [lt_iff, hx.2, hent.2, this] at hlt; omega
          · have hlt := hord2.1 e he
            have : y.ix = e.ix := BitVec.eq_of_toNat_eq (e1.trans hei.symm)
            have hent := h.grown.entry e (by simp [he])
            rw [lt_iff, hy.2, hent.2, this] at hlt; omega
      · intro hno
        obtain ⟨e, he, hei⟩ := (h.free i hin).2 fun x => hno (.inl x)
        refine ⟨e, mem_pqInsert.2 (.inr ?_), hei⟩
        rcases List.mem_cons.1 he with rfl | he
        · exact absurd (Or.inr (Or.inl hei)) hno
        · rcases List.mem_cons.1 he with rfl | he
          · exact absurd (Or.inr (Or.inr hei)) hno
          · exact he

/-- All the merges: with `q.length` rounds the loop has run to its end, and one pair is left (R150). -/
theorem mergeRounds_spec (n : Nat) {t : Tree} {k : Nat} {q : List PqEntry} (hq : t.pq = some q) (h : t.Merging k q)
    (hk : k ≤ 256) (hkn : k ≤ t.nNodes.toNat) (h1 : 1 ≤ q.length) (hlen : q.length ≤ n + 1) :
    ∃ e, (Tree.mergeRounds n t).pq = some [e] ∧ (Tree.mergeRounds n t).Merging k [e] ∧
      (∀ i : NodeIx, i.toNat < k → (Tree.mergeRounds n t).node i = t.node i) ∧
      (Tree.mergeRounds n t).nLeaves = t.nLeaves := by
  induction n generalizing t q with
  | zero =>
    obtain ⟨e, rfl⟩ : ∃ e, q = [e] := List.length_eq_one_iff.1 (by omega)
    exact ⟨e, hq, h, fun _ _ => rfl, rfl⟩
  | succ n ih =>
    rw [Tree.mergeRounds]
    match q, hq, h, h1, hlen with
    | [e], hq, h, _, _ =>
      have : t.merge = t := by rw [Tree.merge, hq]
      rw [this]
      exact ih hq h hkn (by simp) (by simp)
    | x :: y :: q, hq, h, _, hlen =>
      rw [merge_eq hq]
      have hcount := h.count
      simp only [List.length_cons] at hcount hlen
      have hn : t.nNodes.toNat < 511 := by omega
      obtain ⟨e, p1, p2, p3, p4⟩ := ih (t := t.addNode q (t.innerNode x y)) (addNode_pq ..) (h.addNode hk hkn)
        (by rw [addNode_nNodes hn]; omega) (by simp) (by simp; omega)
      refine ⟨e, p1, p2, fun i hi => ?_, p4⟩
      rw [p3 i hi, addNode_node hn, if_neg (fun e => by rw [e] at hi; omega)]

/-- The tree BUILD makes, of k ≥ 1 leaves (R150 to R154, R157). -/
theorem build_spec {f : FreqTable} (hf : 1 ≤ f.leaves) :
    ∃ e, (Tree.build f).Merging f.leaves [e] ∧ (Tree.build f).root = e.ix ∧
      (Tree.build f).nNodes.toNat = 2 * f.leaves - 1 ∧ (Tree.build f).nLeaves.toNat = f.leaves ∧
      (Tree.build f).treeValid = true ∧ (Tree.build f).pq = none ∧
      ∀ (i : NodeIx) (hi : i.toNat < f.leafList.length),
        (Tree.build f).node i = leafNode f.leafList[i.toNat].1 f.leafList[i.toNat].2 := by
  obtain ⟨q, p1, p2, p3, p4, p5, p6, p7⟩ := start_spec f
  have hle := leaves_le f
  have hl := leafList_card f
  have hstart : (Tree.start f).Merging f.leaves q :=
    { grown := p2
      count := by rw [p3, p4]; omega
      leaf := fun i hi => by rw [p6 i (by omega)]; rfl
      inner := fun i h1 h2 => by omega
      below := fun i h1 h2 => by omega
      weight := fun i h1 h2 => by omega
      least := fun i h1 h2 => by omega
      free := fun i hi => by
        constructor
        · rintro - ⟨m, m1, m2, -⟩; omega
        · intro _; exact p7 i (by omega) }
  obtain ⟨e, r1, r2, r3, r4⟩ := mergeRounds_spec q.length p1 hstart hle (by omega) (by omega) (by omega)
  have hb : Tree.build f = (Tree.mergeRounds q.length (Tree.start f)).finishBuild := by
    simp only [Tree.build, p1, Option.getD_some]
  have hnode : ∀ i, (Tree.build f).node i = (Tree.mergeRounds q.length (Tree.start f)).node i := by
    intro i; rw [hb]; rfl
  have hnn : (Tree.build f).nNodes = (Tree.mergeRounds q.length (Tree.start f)).nNodes := by rw [hb]; rfl
  have htk : ∀ i j, (Tree.build f).Taken f.leaves i j ↔ (Tree.mergeRounds q.length (Tree.start f)).Taken f.leaves i j :=
    fun i j => taken_congr fun m _ => hnode m
  refine ⟨e, ?_, ?_, ?_, ?_, by rw [hb]; rfl, by rw [hb]; rfl, fun i hi => ?_⟩
  · exact
      { grown := ⟨by rw [hnn]; exact r2.grown.fit, fun i hi => by rw [hnode]; exact r2.grown.unused i (by rwa [← hnn]),
          fun x hx => by rw [hnn, hnode]; exact r2.grown.entry x hx, r2.grown.ordered⟩
        count := by rw [hnn]; exact r2.count
        leaf := fun i hi => by rw [hnode]; exact r2.leaf i hi
        inner := fun i h1 h2 => by rw [hnode]; exact r2.inner i h1 (by rwa [← hnn])
        below := fun i h1 h2 => by rw [hnode]; exact r2.below i h1 (by rwa [← hnn])
        weight := fun i h1 h2 => by simp only [hnode]; exact r2.weight i h1 (by rwa [← hnn])
        least := fun i h1 h2 => by
          simp only [hnode, htk, Tree.Before]; exact r2.least i h1 (by rwa [← hnn])
        free := fun i hi => by rw [htk, hnn]; exact r2.free i (by rwa [← hnn]) }
  · rw [hb]; simp [Tree.finishBuild, r1]
  · have := r2.count
    rw [hnn]; simp at this; omega
  · rw [hb]
    change (Tree.mergeRounds q.length (Tree.start f)).nLeaves.toNat = _
    rw [r4]; exact p5
  · rw [hnode, r3 i (by omega)]; exact p6 i hi

theorem nonzero_iff (f : FreqTable) : f.nonzero = true ↔ 1 ≤ f.leaves := by
  rw [FreqTable.nonzero, FreqTable.leaves, List.any_eq_true]
  constructor
  · rintro ⟨x, h1, h2⟩
    exact List.length_pos_of_mem (List.mem_filter.2 ⟨h1, h2⟩)
  · intro h
    obtain ⟨x, hx⟩ := List.exists_mem_of_length_pos h
    exact ⟨x, (List.mem_filter.1 hx).1, (List.mem_filter.1 hx).2⟩

end Sys2Proof.Machine
end

