-- ==== Sys2Proof/Laws/Codes.lean ====
section
/-! SUPPORT. Laws/Codes.lean: what GENCODES's walk does (43_code_table.md R170): it ends on every tree BUILD makes, every code
it records is the path to a leaf of that symbol, and how many bits a payload has (R176). -/

namespace Sys2Proof.Machine

/-- Every internal node below `n` has its children below it. -/
def Tree.Descends (t : Tree) (n : Nat) : Prop :=
  ∀ i : NodeIx, i.toNat < n → (t.node i).leaf = false →
    (t.node i).left.toNat < i.toNat ∧ (t.node i).right.toNat < i.toNat

/-- The walk ends: a node at index i needs no more than i + 1 nodes on a path. -/
theorem visit_some {t : Tree} {m : Nat} (h : t.Descends m) (n : Nat) (i : NodeIx) (hi : i.toNat < m) (hn : i.toNat < n)
    (p : Code) (c : CodeMap) : ∃ c', visit t n i p c = some c' := by
  induction n generalizing i p c with
  | zero => omega
  | succ n ih =>
    rw [visit]
    split
    · exact ⟨_, rfl⟩
    · rename_i hl
      obtain ⟨h1, h2⟩ := h i hi (by simpa using hl)
      obtain ⟨c1, e1⟩ := ih (t.node i).left (by omega) (by omega) (p ++ [false]) c
      obtain ⟨c2, e2⟩ := ih (t.node i).right (by omega) (by omega) (p ++ [true]) c1
      exact ⟨c2, by rw [e1]; exact e2⟩

/-- A code the walk records is the walk's path to a leaf of that symbol; every other code is as it was. -/
theorem visit_code {t : Tree} (n : Nat) (i : NodeIx) (p : Code) (c c' : CodeMap) (h : visit t n i p c = some c') (b : Byte) :
    c'.code b = c.code b ∨
      ∃ q, c'.code b = p ++ q ∧ (t.node (t.follow i q)).leaf = true ∧ (t.node (t.follow i q)).sym = b := by
  induction n generalizing i p c c' with
  | zero => simp [visit] at h
  | succ n ih =>
    rw [visit] at h
    split at h
    · rename_i hl
      cases h
      rw [code_setCode]
      split
      · exact .inr ⟨[], by simp, hl, by subst_vars; rfl⟩
      · exact .inl rfl
    · split at h
      · rename_i c1 h1
        rcases ih _ _ _ _ h with e | ⟨q, e, e1, e2⟩
        · rcases ih _ _ _ _ h1 with e' | ⟨q, e', e1, e2⟩
          · exact .inl (e.trans e')
          · exact .inr ⟨false :: q, by rw [e, e']; simp, e1, e2⟩
        · exact .inr ⟨true :: q, by rw [e]; simp, e1, e2⟩
      · cases h

/-- The tree BUILD makes descends. -/
theorem build_descends {f : FreqTable} (hf : 1 ≤ f.leaves) : (Tree.build f).Descends (Tree.build f).nNodes.toNat := by
  obtain ⟨e, m, -⟩ := build_spec hf
  intro i hi hl
  refine m.below i ?_ hi
  by_contra hlt
  rw [m.leaf i (by omega)] at hl
  cases hl

/-- GENCODES's walk ends on the tree BUILD makes (R157, R158, R170). -/
theorem genCodes_build {f : FreqTable} (hf : 1 ≤ f.leaves) : ∃ c, (Tree.build f).genCodes = some c := by
  rw [Tree.genCodes]
  split
  · exact ⟨_, rfl⟩
  · obtain ⟨e, m, hr, hn, -⟩ := build_spec hf
    have hroot : (Tree.build f).root.toNat < (Tree.build f).nNodes.toNat := by
      rw [hr]; exact (m.grown.entry e (List.mem_cons_self ..)).1
    have hle := leaves_le f
    exact visit_some (build_descends hf) Config.nodeMax _ hroot (by rw [Config.nodeMax]; omega) _ _

-- The payload

theorem sum_range_list (g : Nat → Nat) (n : Nat) : ((List.range n).map g).sum = ∑ i ∈ Finset.range n, g i := by
  induction n with
  | zero => rfl
  | succ n ih => rw [List.range_succ, List.map_append, List.sum_append, ih, Finset.sum_range_succ]; simp

/-- Summing over the symbols, each with its count, is summing over the input. -/
theorem sum_counts (xs : List Byte) (g : Byte → Nat) :
    ((List.range 256).map fun b => xs.count (BitVec.ofNat 8 b) * g (BitVec.ofNat 8 b)).sum = (xs.map g).sum := by
  rw [sum_range_list]
  induction xs with
  | nil => simp
  | cons x xs ih =>
    have h : ∀ b ∈ Finset.range 256, (x :: xs).count (BitVec.ofNat 8 b) * g (BitVec.ofNat 8 b) =
        xs.count (BitVec.ofNat 8 b) * g (BitVec.ofNat 8 b) + if b = x.toNat then g x else 0 := by
      intro b hb
      have hb' := Finset.mem_range.1 hb
      rw [List.count_cons]
      by_cases e : b = x.toNat
      · subst e; simp [Nat.add_mul]
      · have : ¬x = BitVec.ofNat 8 b := fun h => e (by rw [h]; simp; omega)
        simp [e, this]
    rw [Finset.sum_congr rfl h, Finset.sum_add_distrib, ih, List.map_cons, List.sum_cons, Finset.sum_ite_eq', if_pos (by have := x.isLt; simp; omega)]
    omega

/-- R176: the payload's length is Σ_s FREQ[s] × |CODE[s]|. -/
theorem payloadBits_length {f : FreqTable} {xs : List Byte} (h : f.Counts xs) (c : CodeMap) :
    (payloadBits c xs).length = payloadLength f c := by
  have e : payloadLength f c = ((List.range 256).map fun b =>
      xs.count (BitVec.ofNat 8 b) * (c.code (BitVec.ofNat 8 b)).length).sum := by
    unfold payloadLength
    congr 1
    exact List.map_congr_left fun b _ => by rw [h]
  rw [e, sum_counts xs fun b => (c.code b).length, payloadBits, List.length_flatMap]

end Sys2Proof.Machine
end

