-- ==== Sys2Proof/Laws/Results.lean ====
section
/-! SUPPORT. Laws/Results.lean: how a claim about the steps of a pseudocode is put together: `Res.Ends` says what holds where
it goes on and what holds where it raises, and passes through `bind` and `within`. -/

namespace Sys2Proof.Machine

/-- `P` holds where the pseudocode goes on and `E` where it raises an error. -/
def Res.Ends {σ α : Type} (r : Res σ α) (P : α → σ → Prop) (E : ErrorKind → σ → Prop) : Prop :=
  match r with
  | .ok a s => P a s
  | .err k s => E k s
  | .stuck _ => True

section
variable {σ τ α β : Type}

@[simp] theorem ends_ok (a : α) (s : σ) (P : α → σ → Prop) (E : ErrorKind → σ → Prop) :
    (Res.ok a s).Ends P E ↔ P a s := Iff.rfl

@[simp] theorem ends_err (k : ErrorKind) (s : σ) (P : α → σ → Prop) (E : ErrorKind → σ → Prop) :
    (Res.err k s : Res σ α).Ends P E ↔ E k s := Iff.rfl

@[simp] theorem ends_stuck (f : Fault) (P : α → σ → Prop) (E : ErrorKind → σ → Prop) :
    (Res.stuck f : Res σ α).Ends P E ↔ True := Iff.rfl

@[simp] theorem ends_bind (r : Res σ α) (f : α → σ → Res σ β) (P : β → σ → Prop) (E : ErrorKind → σ → Prop) :
    (r.bind f).Ends P E ↔ r.Ends (fun a s => (f a s).Ends P E) E := by cases r <;> rfl

@[simp] theorem ends_within (r : Res σ α) (put : σ → τ) (P : α → τ → Prop) (E : ErrorKind → τ → Prop) :
    (r.within put).Ends P E ↔ r.Ends (fun a s => P a (put s)) (fun k s => E k (put s)) := by cases r <;> rfl

theorem Res.Ends.mono {r : Res σ α} {P P' : α → σ → Prop} {E E' : ErrorKind → σ → Prop} (h : r.Ends P E)
    (hp : ∀ a s, P a s → P' a s) (he : ∀ k s, E k s → E' k s) : r.Ends P' E' := by
  cases r with
  | ok a s => exact hp a s h
  | err k s => exact he k s h
  | stuck f => trivial

@[simp] theorem bind_ok (a : α) (s : σ) (f : α → σ → Res σ β) : (Res.ok a s).bind f = f a s := rfl

@[simp] theorem bind_err (k : ErrorKind) (s : σ) (f : α → σ → Res σ β) : (Res.err k s).bind f = .err k s := rfl

@[simp] theorem bind_stuck (x : Fault) (f : α → σ → Res σ β) : (Res.stuck x : Res σ α).bind f = .stuck x := rfl

@[simp] theorem within_ok (a : α) (s : σ) (put : σ → τ) : (Res.ok a s).within put = .ok a (put s) := rfl

@[simp] theorem within_err (k : ErrorKind) (s : σ) (put : σ → τ) :
    (Res.err k s : Res σ α).within put = .err k (put s) := rfl

@[simp] theorem within_stuck (x : Fault) (put : σ → τ) : (Res.stuck x : Res σ α).within put = .stuck x := rfl

theorem bind_assoc {γ : Type} (r : Res σ α) (f : α → σ → Res σ β) (g : β → σ → Res σ γ) :
    (r.bind f).bind g = r.bind fun a s => (f a s).bind g := by cases r <;> rfl

theorem within_within {υ : Type} (r : Res σ α) (p : σ → τ) (q : τ → υ) :
    (r.within p).within q = r.within fun s => q (p s) := by cases r <;> rfl

end

/-- A command's answer: the state it completes in, or the state it aborts in (R205, R226). -/
theorem finish_next {r : Res State Unit} {t : State} (h : finish r = .next t) :
    (∃ s, r = .ok () s ∧ t = complete s) ∨ ∃ k s, r = .err k s ∧ t = abort k s := by
  cases r with
  | ok a s => exact .inl ⟨s, rfl, by simpa [finish] using h.symm⟩
  | err k s => exact .inr ⟨k, s, rfl, by simpa [finish] using h.symm⟩
  | stuck f => cases h

/-- What holds of every state a pseudocode ends in, completed or aborted, holds of the command's next state. -/
theorem Res.Ends.next {r : Res State Unit} {Q : State → Prop} {t : State}
    (h : r.Ends (fun _ s => Q (complete s)) (fun k s => Q (abort k s))) (ht : finish r = .next t) : Q t := by
  rcases finish_next ht with ⟨s, rfl, rfl⟩ | ⟨k, s, rfl, rfl⟩
  · exact h
  · exact h

end Sys2Proof.Machine
end

