-- ==== Sys2Proof/Laws/Reader.lean ====
section
/-! SUPPORT. Laws/Reader.lean: what the source port and the bit reader do (20_memory.md R71, 40_bitpack.md R113 to R115): while
no source read fails, reading n bits takes the next n bits of the stream, and raises TruncatedStream when there are fewer. -/

namespace Sys2Proof.Machine

theorem noFault_head {q : Source} (h : q.NoFault) : q.faults.headD false = false := by
  cases hq : q.faults with
  | nil => rfl
  | cons x xs => exact h x (by simp [hq])

theorem NoFault.tail {fs : List Bool} (h : ∀ f ∈ fs, f = false) : ∀ f ∈ fs.tail, f = false :=
  fun f hf => h f (List.mem_of_mem_tail hf)

/-- A source read below IN_LEN that succeeds (R71). -/
theorem srcRead_ok {q : Source} {i : Wide} (hi : i.toNat < q.inLen.toNat) (h : q.NoFault) :
    srcRead i q = (.ok (q.inByte i.toNat), { q with faults := q.faults.tail }) := by
  rw [srcRead, if_neg (by omega), if_neg (by rw [noFault_head h]; simp)]

/-- A source read at IN_LEN or above: end-of-input wins over the fault draw (R71, R231). -/
theorem srcRead_eof {q : Source} {i : Wide} (hi : q.inLen.toNat ≤ i.toNat) : srcRead i q = (.eof, q) := by
  rw [srcRead, if_pos hi]

/-- Everything a source read can answer (R71). -/
theorem srcRead_cases (i : Wide) (q : Source) :
    (q.inLen.toNat ≤ i.toNat ∧ srcRead i q = (.eof, q)) ∨
    (i.toNat < q.inLen.toNat ∧ srcRead i q = (.err, { q with faults := q.faults.tail })) ∨
    (i.toNat < q.inLen.toNat ∧ srcRead i q = (.ok (q.inByte i.toNat), { q with faults := q.faults.tail })) := by
  rw [srcRead]
  split
  · exact .inl ⟨‹_›, rfl⟩
  · split
    · exact .inr (.inl ⟨by omega, rfl⟩)
    · exact .inr (.inr ⟨by omega, rfl⟩)

theorem srcPos_step {q : Source} (h : q.srcPos.toNat < q.inLen.toNat) :
    (q.srcPos + 1).toNat = q.srcPos.toNat + 1 := by
  have := q.inLen.isLt
  rw [BitVec.toNat_add]; simp; omega

@[simp] theorem input_length (q : Source) : q.input.length = q.inLen.toNat := by simp [Source.input]

/-- The next unfetched byte (R31). -/
theorem unfetched_cons {q : Source} (h : q.srcPos.toNat < q.inLen.toNat) :
    q.unfetched = q.inByte q.srcPos.toNat :: q.input.drop (q.srcPos.toNat + 1) := by
  rw [Source.unfetched, List.drop_eq_getElem_cons (by simpa using h)]
  simp [Source.input]

theorem unfetched_nil {q : Source} (h : q.inLen.toNat ≤ q.srcPos.toNat) : q.unfetched = [] := by
  rw [Source.unfetched, List.drop_eq_nil_of_le (by simpa using h)]

/-- Taking the top bit of a byte leaves the other seven (R114). -/
theorem byteBits_msb (b : Byte) : byteBits b = b.msb :: (byteBits (b <<< 1)).take 7 := by
  simp [byteBits, BitVec.msb_eq_getLsbD_last]

theorem byteBits_take_msb (b : Byte) {n : Nat} (h0 : 0 < n) (h : n ≤ 8) :
    (byteBits b).take n = b.msb :: (byteBits (b <<< 1)).take (n - 1) := by
  obtain ⟨m, rfl⟩ : ∃ m, n = m + 1 := ⟨n - 1, by omega⟩
  rw [byteBits_msb, List.take_succ_cons, List.take_take, Nat.min_eq_left (by omega)]
  rfl

theorem consumed_zero {q : Source} (h : q.rcnt.toNat ≤ 8) : q.Consumed 0 q where
  enough := Nat.zero_le _
  zero := fun _ => rfl
  ahead := rfl
  left := rfl
  forward := le_refl _
  ended := fun h => absurd rfl h
  eof := by simp
  short := h
  inBuf := rfl
  inLen := rfl
  rdValid := rfl
  faults := by simp

theorem ahead_nil {q : Source} (h : q.rcnt = 0) : q.ahead = [] := by rw [Source.ahead, if_pos h]

/-- Bits delivered piece by piece are delivered as a whole. -/
theorem Source.Consumed.trans {q q' q'' : Source} {m n : Nat} (h : q.Consumed m q') (h' : q'.Consumed n q'') :
    q.Consumed (m + n) q'' := by
  have hle : m + n ≤ q.ahead.length := by
    have := h'.enough
    rw [h.ahead, List.length_drop] at this
    have := h.enough
    omega
  refine { enough := hle, zero := fun e => ?_, ahead := ?_, left := ?_, forward := h.forward.trans h'.forward,
           ended := fun hn h0 => ?_, eof := ?_, short := h'.short, inBuf := h'.inBuf.trans h.inBuf,
           inLen := h'.inLen.trans h.inLen, rdValid := h'.rdValid.trans h.rdValid, faults := ?_ }
  · rw [h'.zero (by omega), h.zero (by omega)]
  · rw [h'.ahead, h.ahead, List.drop_drop]
  · rw [h'.left, h.left]; omega
  · by_cases hn0 : n = 0
    · obtain rfl := h'.zero hn0
      exact h.ended (by omega) h0
    · rw [← h.inLen]; exact h'.ended hn0 h0
  · by_cases hn0 : n = 0
    · obtain rfl := h'.zero hn0
      rw [hn0]; exact h.eof
    · have hr : q'.rcnt ≠ 0 := by
        intro e
        have := h'.enough
        rw [ahead_nil e] at this
        exact hn0 (by simpa using this)
      have hr' : decide (q'.rcnt = 0) = false := decide_eq_false hr
      rw [h'.eof, h.eof, hr', Bool.and_false, Bool.or_false, decide_eq_true hn0,
        decide_eq_true (show m + n ≠ 0 by omega)]
  · rw [h'.faults, h.faults, List.drop_drop]
    congr 1
    have := h.forward
    have := h'.forward
    omega

theorem eight_ne : (8 : BitVec 4) ≠ 0 := by decide

/-- One bit read (R114). -/
theorem readBit_consumed {q : Source} (h : q.NoFault) (h8 : q.rcnt.toNat ≤ 8) (h0 : q.rcnt ≠ 0) :
    ∃ q', readBit q = .ok q.rbuf.msb q' ∧ q.ahead = q.rbuf.msb :: q.ahead.tail ∧ q.Consumed 1 q' := by
  have hpos : 0 < q.rcnt.toNat := by
    rcases Nat.eq_zero_or_pos q.rcnt.toNat with e | e
    · exact absurd (BitVec.eq_of_toNat_eq e) h0
    · exact e
  have hah : q.ahead = q.rbuf.msb :: ((byteBits (q.rbuf <<< 1)).take (q.rcnt.toNat - 1) ++ q.unfetched.flatMap byteBits) := by
    rw [Source.ahead, if_neg h0, byteBits_take_msb _ hpos h8]; rfl
  have htail : q.ahead = q.rbuf.msb :: q.ahead.tail := by rw [hah]; rfl
  have hlen : 1 ≤ q.ahead.length := by rw [hah]; simp
  rw [readBit, if_neg h0]
  by_cases h1 : q.rcnt = 1
  · rw [if_pos h1]
    have h1' : q.rcnt.toNat = 1 := by rw [h1]; rfl
    simp only [fetch]
    by_cases hend : q.inLen.toNat ≤ q.srcPos.toNat
    · rw [srcRead_eof (q := { q with rbuf := q.rbuf <<< 1, rcnt := 0 }) hend]
      refine ⟨_, rfl, htail, ?_⟩
      refine { enough := hlen, zero := fun e => by omega, ahead := ?_, left := ?_, forward := le_refl _,
               ended := fun _ _ => hend, eof := ?_, short := by simp, inBuf := rfl, inLen := rfl, rdValid := rfl,
               faults := by simp }
      · rw [ahead_nil rfl, hah, h1', unfetched_nil hend]; rfl
      · simp only [Source.bitsAhead, h1']
        have : (0 : BitVec 4).toNat = 0 := rfl
        rw [this]; omega
      · simp
    · have hlt : q.srcPos.toNat < q.inLen.toNat := by omega
      rw [srcRead_ok (q := { q with rbuf := q.rbuf <<< 1, rcnt := 0 }) hlt h]
      have hs := srcPos_step hlt
      refine ⟨_, rfl, htail, ?_⟩
      refine { enough := hlen, zero := fun e => by omega, ahead := ?_, left := ?_, forward := ?_,
               ended := fun _ e => absurd e eight_ne, eof := ?_, short := le_refl 8, inBuf := rfl, inLen := rfl,
               rdValid := rfl, faults := ?_ }
      · rw [hah, h1', unfetched_cons hlt]
        simp only [Source.ahead, Source.unfetched, hs]
        rw [if_neg eight_ne]
        rfl
      · simp only [Source.bitsAhead, hs, h1']
        have : (8 : BitVec 4).toNat = 8 := rfl
        rw [this]; omega
      · simp only [hs]; omega
      · simp
      · simp only [hs]
        rw [show q.srcPos.toNat + 1 - q.srcPos.toNat = 1 by omega]
        simp
  · rw [if_neg h1]
    have h1' : q.rcnt.toNat ≠ 1 := fun e => h1 (BitVec.eq_of_toNat_eq e)
    have hr : (q.rcnt - 1).toNat = q.rcnt.toNat - 1 := by
      rw [BitVec.toNat_sub]; simp; omega
    have hne : q.rcnt - 1 ≠ 0 := fun e => by rw [e] at hr; simp at hr; omega
    refine ⟨_, rfl, htail, ?_⟩
    refine { enough := hlen, zero := fun e => by omega, ahead := ?_, left := ?_, forward := le_refl _,
             ended := fun _ e => absurd e hne, eof := ?_, short := by simp only [hr]; omega, inBuf := rfl, inLen := rfl,
             rdValid := rfl, faults := by simp }
    · rw [hah]
      simp only [Source.ahead]
      rw [if_neg hne, hr]
      rfl
    · simp only [Source.bitsAhead, hr]; omega
    · have : decide (q.rcnt - 1 = 0) = false := decide_eq_false hne
      rw [this, Bool.and_false, Bool.or_false]

/-- A bit sequence shifted into a word, first bit first (R115). -/
def shiftIn (v : Word) (bs : List Bool) : Word :=
  bs.foldl (fun v b => (v <<< 1) ||| (BitVec.ofBool b).setWidth 32) v

theorem NoFault.of_consumed {q q' : Source} {n : Nat} (h : q.NoFault) (hc : q.Consumed n q') : q'.NoFault := by
  intro f hf
  rw [hc.faults] at hf
  exact h f (List.drop_subset _ _ hf)

/-- A field read (R115). -/
theorem readBitsFrom_consumed (n : Nat) (v : Word) {q : Source} (h : q.NoFault) (h8 : q.rcnt.toNat ≤ 8)
    (hn : n ≤ q.ahead.length) :
    ∃ q', readBitsFrom n v q = .ok (shiftIn v (q.ahead.take n)) q' ∧ q.Consumed n q' := by
  induction n generalizing v q with
  | zero => exact ⟨q, rfl, consumed_zero h8⟩
  | succ n ih =>
    have h0 : q.rcnt ≠ 0 := fun e => by rw [ahead_nil e] at hn; simp at hn
    obtain ⟨q1, e1, ht, c1⟩ := readBit_consumed h h8 h0
    obtain ⟨q2, e2, c2⟩ := ih ((v <<< 1) ||| (BitVec.ofBool q.rbuf.msb).setWidth 32) (NoFault.of_consumed h c1) c1.short
      (by rw [c1.ahead, List.length_drop]; omega)
    refine ⟨q2, ?_, Nat.add_comm n 1 ▸ c1.trans c2⟩
    rw [readBitsFrom, e1]
    simp only [bind_ok, e2]
    rw [c1.ahead, ht]
    rfl

theorem readBits_consumed {n : Nat} {q : Source} (h : q.NoFault) (h8 : q.rcnt.toNat ≤ 8) (hn : n ≤ q.ahead.length) :
    ∃ q', readBits n q = .ok (shiftIn 0 (q.ahead.take n)) q' ∧ q.Consumed n q' :=
  readBitsFrom_consumed n 0 h h8 hn

/-- A field demanded past the end of the stream (R114, R224): every bit that was left is gone. -/
theorem readBitsFrom_truncated (n : Nat) (v : Word) {q : Source} (h : q.NoFault) (h8 : q.rcnt.toNat ≤ 8)
    (hn : q.ahead.length < n) :
    ∃ q', readBitsFrom n v q = .err .truncatedStream q' ∧ q.Consumed q.ahead.length q' ∧ q'.rcnt = 0 := by
  induction n generalizing v q with
  | zero => omega
  | succ n ih =>
    by_cases h0 : q.rcnt = 0
    · refine ⟨q, ?_, by rw [ahead_nil h0]; exact consumed_zero h8, h0⟩
      rw [readBitsFrom, readBit, if_pos h0]; rfl
    · obtain ⟨q1, e1, ht, c1⟩ := readBit_consumed h h8 h0
      have hl : q1.ahead.length = q.ahead.length - 1 := by rw [c1.ahead, List.length_drop]
      have hp : 1 ≤ q.ahead.length := c1.enough
      obtain ⟨q2, e2, c2, r2⟩ := ih ((v <<< 1) ||| (BitVec.ofBool q.rbuf.msb).setWidth 32) (NoFault.of_consumed h c1) c1.short
        (by omega)
      refine ⟨q2, by rw [readBitsFrom, e1]; exact e2, ?_, r2⟩
      have := c1.trans c2
      rwa [hl, show 1 + (q.ahead.length - 1) = q.ahead.length by omega] at this

/-- The number a bit sequence of at most 32 bits spells in a word. -/
theorem shiftIn_toNat (bs : List Bool) (v : Word) (h : v.toNat * 2 ^ bs.length + 2 ^ bs.length ≤ 2 ^ 32) :
    (shiftIn v bs).toNat = bs.foldl (fun v b => 2 * v + b.toNat) v.toNat := by
  induction bs generalizing v with
  | nil => rfl
  | cons b bs ih =>
    have hp : 0 < 2 ^ bs.length := Nat.pow_pos (by decide)
    have h' : (2 * v.toNat + 2) * 2 ^ bs.length ≤ 2 ^ 32 := by
      rw [List.length_cons, Nat.pow_succ] at h; nlinarith
    have hv : 2 * v.toNat + 2 ≤ 2 ^ 32 := by nlinarith
    have e : ((v <<< 1) ||| (BitVec.ofBool b).setWidth 32).toNat = 2 * v.toNat + b.toNat := by
      rw [BitVec.toNat_or, BitVec.toNat_shiftLeft]
      have h2 : ((BitVec.ofBool b).setWidth 32).toNat = b.toNat := by cases b <;> rfl
      rw [h2, Nat.shiftLeft_eq, Nat.mod_eq_of_lt (by omega)]
      have := Nat.two_pow_add_eq_or_of_lt (i := 1) (b := b.toNat) (by cases b <;> decide) v.toNat
      rw [Nat.mul_comm, ← this]
    have := ih ((v <<< 1) ||| (BitVec.ofBool b).setWidth 32) (by rw [e]; have := Bool.toNat_le b; nlinarith)
    rw [e] at this
    exact this

theorem shiftIn_zero_toNat {bs : List Bool} (h : bs.length ≤ 32) : (shiftIn 0 bs).toNat = bitsValue bs := by
  refine shiftIn_toNat bs 0 ?_
  simpa using Nat.pow_le_pow_right (by decide : 0 < 2) h

theorem foldl_bits (bs : List Bool) (v : Nat) :
    bs.foldl (fun v b => 2 * v + b.toNat) v = v * 2 ^ bs.length + bitsValue bs := by
  induction bs generalizing v with
  | nil => simp [bitsValue]
  | cons b bs ih =>
    have e : bitsValue (b :: bs) = bs.foldl (fun v b => 2 * v + b.toNat) (2 * 0 + b.toNat) := rfl
    rw [e, List.foldl_cons, ih, ih, List.length_cons, Nat.pow_succ]
    ring

/-- A field's stream bits spell its low bits (R75, R111, R115). -/
theorem bitsValue_fieldBits (n : Nat) (v : Word) : bitsValue (fieldBits n v) = v.toNat % 2 ^ n := by
  induction n with
  | zero => simp [fieldBits, bitsValue, Nat.mod_one]
  | succ n ih =>
    have e : fieldBits (n + 1) v = v.getLsbD n :: fieldBits n v := by
      simp only [fieldBits, List.range_succ_eq_map, List.map_cons, List.map_map]
      congr 1
      apply List.map_congr_left
      intro j _
      simp only [Function.comp]
      congr 1; omega
    have e2 : bitsValue (fieldBits (n + 1) v) = (v.getLsbD n).toNat * 2 ^ n + v.toNat % 2 ^ n := by
      rw [e]
      have : bitsValue (v.getLsbD n :: fieldBits n v) =
          (fieldBits n v).foldl (fun v b => 2 * v + b.toNat) (2 * 0 + (v.getLsbD n).toNat) := rfl
      rw [this, foldl_bits, ih]
      simp [fieldBits]
    rw [e2, Nat.mod_pow_succ, BitVec.getLsbD, Nat.toNat_testBit]
    ring

-- A reader whose refill fails

/-- A source read below IN_LEN that fails (R71). -/
theorem srcRead_err {q : Source} {i : Wide} (hi : i.toNat < q.inLen.toNat) (h : q.faults.headD false = true) :
    srcRead i q = (.err, { q with faults := q.faults.tail }) := by
  rw [srcRead, if_neg (by omega), if_pos h]

theorem rcnt_pos {q : Source} {m : Nat} (h : q.FailsAt m) : 0 < q.rcnt.toNat :=
  Nat.pos_of_ne_zero fun e => h.unread (BitVec.eq_of_toNat_eq e)

/-- One bit read by a reader whose refill after `m` others fails (R114, R230): either this is that refill, and the bit is lost, or
the bit is delivered by a reader that is one bit nearer to it. -/
theorem readBit_failing {q : Source} {m : Nat} (h : q.FailsAt m) :
    (q.bitsTo m = 1 ∧ readBit q = .err .ioError (q.refillFailed m)) ∨
    ∃ q' m', readBit q = .ok q.rbuf.msb q' ∧ q'.FailsAt m' ∧ q'.bitsTo m' + 1 = q.bitsTo m ∧
      q'.refillFailed m' = q.refillFailed m ∧ q'.rdValid = q.rdValid := by
  have hpos := rcnt_pos h
  have h8 := h.short
  rw [readBit, if_neg h.unread]
  by_cases h1 : q.rcnt = 1
  · have h1' : q.rcnt.toNat = 1 := by rw [h1]; rfl
    rw [if_pos h1, fetch]
    cases m with
    | zero =>
      have hd : q.faults.headD false = true := by
        have := h.fails
        cases hq : q.faults <;> simp_all
      refine .inl ⟨by rw [Source.bitsTo, h1'], ?_⟩
      rw [srcRead_err (q := { q with rbuf := q.rbuf <<< 1, rcnt := 0 }) (by have := h.inside; simpa using this) hd]
      simp [Source.refillFailed, h1', Res.bind]
    | succ m =>
      obtain ⟨x, xs, hx⟩ : ∃ x xs, q.faults = x :: xs := by
        have := h.fails
        cases hq : q.faults with
        | nil => simp [hq] at this
        | cons x xs => exact ⟨x, xs, rfl⟩
      have hx0 : x = false := h.before x (by simp [hx])
      have hin := h.inside
      have hstep := srcPos_step (q := q) (by omega)
      refine .inr ⟨{ q with rbuf := q.inByte q.srcPos.toNat, rcnt := 8, srcPos := q.srcPos + 1, faults := xs }, m, ?_,
        ⟨eight_ne, Nat.le_refl 8, by simp only [hstep]; omega, fun f hf => h.before f (by simp [hx, hf]), ?_⟩, ?_, ?_, rfl⟩
      · rw [srcRead, if_neg (by simp; omega), if_neg (by simp [hx, hx0])]
        simp [Res.bind, hx, Source.inByte]
      · have := h.fails; rw [hx] at this; simpa using this
      · simp [Source.bitsTo, h1']; omega
      · have e : q.srcPos + 1 + BitVec.ofNat 64 m = q.srcPos + BitVec.ofNat 64 (m + 1) := by
          apply BitVec.eq_of_toNat_eq; simp [BitVec.toNat_add]; omega
        simp only [Source.refillFailed, e, hx, List.drop_succ_cons, Nat.add_eq_zero_iff, Nat.one_ne_zero, and_false, if_false]
        congr 1
        split
        · apply BitVec.eq_of_getLsbD_eq; intro i hi; simp
        · rfl
  · have h1' : q.rcnt.toNat ≠ 1 := fun e => h1 (BitVec.eq_of_toNat_eq e)
    have hsub : (q.rcnt - 1).toNat = q.rcnt.toNat - 1 := by
      rw [BitVec.toNat_sub]; simp; omega
    rw [if_neg h1]
    refine .inr ⟨_, m, rfl, ⟨fun e => ?_, by simp only [hsub]; omega, h.inside, h.before, h.fails⟩, ?_, ?_, rfl⟩
    · have := congrArg BitVec.toNat e; simp only [hsub] at this; simp at this; omega
    · simp only [Source.bitsTo, hsub]; omega
    · simp only [Source.refillFailed, hsub]
      congr 1
      split
      · rw [← BitVec.shiftLeft_add]; congr 1; omega
      · rfl

/-- A field read across the refill that fails (R115, R230). -/
theorem readBitsFrom_failing (n : Nat) (v : Word) {q : Source} {m : Nat} (h : q.FailsAt m) (hn : q.bitsTo m ≤ n) :
    readBitsFrom n v q = .err .ioError (q.refillFailed m) := by
  induction n generalizing v q m with
  | zero => have := rcnt_pos h; rw [Source.bitsTo] at hn; omega
  | succ n ih =>
    rw [readBitsFrom]
    rcases readBit_failing h with ⟨-, e⟩ | ⟨q', m', e, h', hb, hq, -⟩
    · rw [e]; rfl
    · rw [e, bind_ok, ih _ h' (by omega), hq]

end Sys2Proof.Machine
end

