-- ==== Sys2Proof/Laws/State.lean ====
section
/-! SUPPORT. Laws/State.lean: what each update of State leaves in each field, true by unfolding, so that no later proof unfolds
a record update. -/

namespace Sys2Proof.Machine

@[simp] theorem accept_cmd (w : Word) (s : State) : (accept w s).cmd = w.setWidth 14 := rfl
@[simp] theorem accept_status (w : Word) (s : State) : (accept w s).status = s.status.accept := rfl
@[simp] theorem accept_value (w : Word) (s : State) : (accept w s).value = s.value := rfl
@[simp] theorem accept_nodeSel (w : Word) (s : State) : (accept w s).nodeSel = s.nodeSel := rfl
@[simp] theorem accept_codeSel (w : Word) (s : State) : (accept w s).codeSel = s.codeSel := rfl
@[simp] theorem accept_symCnt (w : Word) (s : State) : (accept w s).symCnt = s.symCnt := rfl
@[simp] theorem accept_freq (w : Word) (s : State) : (accept w s).freq = s.freq := rfl
@[simp] theorem accept_tree (w : Word) (s : State) : (accept w s).tree = s.tree := rfl
@[simp] theorem accept_codes (w : Word) (s : State) : (accept w s).codes = s.codes := rfl
@[simp] theorem accept_codesValid (w : Word) (s : State) : (accept w s).codesValid = s.codesValid := rfl
@[simp] theorem accept_src (w : Word) (s : State) : (accept w s).src = s.src := rfl
@[simp] theorem accept_snk (w : Word) (s : State) : (accept w s).snk = s.snk := rfl
@[simp] theorem accept_cur (w : Word) (s : State) : (accept w s).cur = s.cur := rfl
@[simp] theorem accept_cls (w : Word) (s : State) : (accept w s).cls = s.cls := rfl
@[simp] theorem accept_stage (w : Word) (s : State) : (accept w s).stage = some (wordOp w) := rfl
@[simp] theorem accept_host (w : Word) (s : State) : (accept w s).host = s.host := rfl

@[simp] theorem reject_cmd (s : State) : (reject s).cmd = s.cmd := rfl
@[simp] theorem reject_status (s : State) : (reject s).status = s.status.reject := rfl
@[simp] theorem reject_value (s : State) : (reject s).value = s.value := rfl
@[simp] theorem reject_nodeSel (s : State) : (reject s).nodeSel = s.nodeSel := rfl
@[simp] theorem reject_codeSel (s : State) : (reject s).codeSel = s.codeSel := rfl
@[simp] theorem reject_symCnt (s : State) : (reject s).symCnt = s.symCnt := rfl
@[simp] theorem reject_freq (s : State) : (reject s).freq = s.freq := rfl
@[simp] theorem reject_tree (s : State) : (reject s).tree = s.tree := rfl
@[simp] theorem reject_codes (s : State) : (reject s).codes = s.codes := rfl
@[simp] theorem reject_codesValid (s : State) : (reject s).codesValid = s.codesValid := rfl
@[simp] theorem reject_src (s : State) : (reject s).src = s.src := rfl
@[simp] theorem reject_snk (s : State) : (reject s).snk = s.snk := rfl
@[simp] theorem reject_cur (s : State) : (reject s).cur = s.cur := rfl
@[simp] theorem reject_cls (s : State) : (reject s).cls = s.cls := rfl
@[simp] theorem reject_stage (s : State) : (reject s).stage = s.stage := rfl
@[simp] theorem reject_host (s : State) : (reject s).host = s.host := rfl

@[simp] theorem complete_cmd (s : State) : (complete s).cmd = s.cmd := rfl
@[simp] theorem complete_status (s : State) : (complete s).status = s.status.complete := rfl
@[simp] theorem complete_value (s : State) : (complete s).value = s.value := rfl
@[simp] theorem complete_nodeSel (s : State) : (complete s).nodeSel = s.nodeSel := rfl
@[simp] theorem complete_codeSel (s : State) : (complete s).codeSel = s.codeSel := rfl
@[simp] theorem complete_symCnt (s : State) : (complete s).symCnt = s.symCnt := rfl
@[simp] theorem complete_freq (s : State) : (complete s).freq = s.freq := rfl
@[simp] theorem complete_tree (s : State) : (complete s).tree = { s.tree with pq := none } := rfl
@[simp] theorem complete_codes (s : State) : (complete s).codes = s.codes := rfl
@[simp] theorem complete_codesValid (s : State) : (complete s).codesValid = s.codesValid := rfl
@[simp] theorem complete_src (s : State) : (complete s).src = s.src := rfl
@[simp] theorem complete_snk (s : State) : (complete s).snk = s.snk := rfl
@[simp] theorem complete_cur (s : State) : (complete s).cur = none := rfl
@[simp] theorem complete_cls (s : State) : (complete s).cls = none := rfl
@[simp] theorem complete_stage (s : State) : (complete s).stage = none := rfl
@[simp] theorem complete_host (s : State) : (complete s).host = s.host := rfl

@[simp] theorem abort_cmd (k : ErrorKind) (s : State) : (abort k s).cmd = s.cmd := rfl
@[simp] theorem abort_status (k : ErrorKind) (s : State) : (abort k s).status = s.status.abort k (s.cmd.extractLsb' 0 8) (s.stage.getD 0) := rfl
@[simp] theorem abort_value (k : ErrorKind) (s : State) : (abort k s).value = s.value := rfl
@[simp] theorem abort_nodeSel (k : ErrorKind) (s : State) : (abort k s).nodeSel = s.nodeSel := rfl
@[simp] theorem abort_codeSel (k : ErrorKind) (s : State) : (abort k s).codeSel = s.codeSel := rfl
@[simp] theorem abort_symCnt (k : ErrorKind) (s : State) : (abort k s).symCnt = s.symCnt := rfl
@[simp] theorem abort_freq (k : ErrorKind) (s : State) : (abort k s).freq = s.freq := rfl
@[simp] theorem abort_tree (k : ErrorKind) (s : State) : (abort k s).tree = { s.tree with pq := none } := rfl
@[simp] theorem abort_codes (k : ErrorKind) (s : State) : (abort k s).codes = s.codes := rfl
@[simp] theorem abort_codesValid (k : ErrorKind) (s : State) : (abort k s).codesValid = s.codesValid := rfl
@[simp] theorem abort_src (k : ErrorKind) (s : State) : (abort k s).src = s.src := rfl
@[simp] theorem abort_snk (k : ErrorKind) (s : State) : (abort k s).snk = s.snk := rfl
@[simp] theorem abort_cur (k : ErrorKind) (s : State) : (abort k s).cur = none := rfl
@[simp] theorem abort_cls (k : ErrorKind) (s : State) : (abort k s).cls = none := rfl
@[simp] theorem abort_stage (k : ErrorKind) (s : State) : (abort k s).stage = none := rfl
@[simp] theorem abort_host (k : ErrorKind) (s : State) : (abort k s).host = s.host := rfl

@[simp] theorem leaveError_cmd (s : State) : (leaveError s).cmd = s.cmd := rfl
@[simp] theorem leaveError_status (s : State) : (leaveError s).status = s.status.leaveError := rfl
@[simp] theorem leaveError_value (s : State) : (leaveError s).value = s.value := rfl
@[simp] theorem leaveError_nodeSel (s : State) : (leaveError s).nodeSel = s.nodeSel := rfl
@[simp] theorem leaveError_codeSel (s : State) : (leaveError s).codeSel = s.codeSel := rfl
@[simp] theorem leaveError_symCnt (s : State) : (leaveError s).symCnt = s.symCnt := rfl
@[simp] theorem leaveError_freq (s : State) : (leaveError s).freq = s.freq := rfl
@[simp] theorem leaveError_tree (s : State) : (leaveError s).tree = s.tree := rfl
@[simp] theorem leaveError_codes (s : State) : (leaveError s).codes = s.codes := rfl
@[simp] theorem leaveError_codesValid (s : State) : (leaveError s).codesValid = s.codesValid := rfl
@[simp] theorem leaveError_src (s : State) : (leaveError s).src = s.src := rfl
@[simp] theorem leaveError_snk (s : State) : (leaveError s).snk = s.snk := rfl
@[simp] theorem leaveError_cur (s : State) : (leaveError s).cur = s.cur := rfl
@[simp] theorem leaveError_cls (s : State) : (leaveError s).cls = s.cls := rfl
@[simp] theorem leaveError_stage (s : State) : (leaveError s).stage = s.stage := rfl
@[simp] theorem leaveError_host (s : State) : (leaveError s).host = s.host := rfl

@[simp] theorem invalidate_cmd (s : State) : (s.invalidate).cmd = s.cmd := rfl
@[simp] theorem invalidate_status (s : State) : (s.invalidate).status = s.status := rfl
@[simp] theorem invalidate_value (s : State) : (s.invalidate).value = s.value := rfl
@[simp] theorem invalidate_nodeSel (s : State) : (s.invalidate).nodeSel = s.nodeSel := rfl
@[simp] theorem invalidate_codeSel (s : State) : (s.invalidate).codeSel = s.codeSel := rfl
@[simp] theorem invalidate_symCnt (s : State) : (s.invalidate).symCnt = s.symCnt := rfl
@[simp] theorem invalidate_freq (s : State) : (s.invalidate).freq = s.freq := rfl
@[simp] theorem invalidate_tree (s : State) : (s.invalidate).tree = { s.tree with treeValid := false } := rfl
@[simp] theorem invalidate_codes (s : State) : (s.invalidate).codes = s.codes := rfl
@[simp] theorem invalidate_codesValid (s : State) : (s.invalidate).codesValid = false := rfl
@[simp] theorem invalidate_src (s : State) : (s.invalidate).src = s.src := rfl
@[simp] theorem invalidate_snk (s : State) : (s.invalidate).snk = s.snk := rfl
@[simp] theorem invalidate_cur (s : State) : (s.invalidate).cur = s.cur := rfl
@[simp] theorem invalidate_cls (s : State) : (s.invalidate).cls = s.cls := rfl
@[simp] theorem invalidate_stage (s : State) : (s.invalidate).stage = s.stage := rfl
@[simp] theorem invalidate_host (s : State) : (s.invalidate).host = s.host := rfl

@[simp] theorem withFreq_cmd (s : State) (f : FreqTable) : (s.withFreq f).cmd = s.cmd := rfl
@[simp] theorem withFreq_status (s : State) (f : FreqTable) : (s.withFreq f).status = s.status := rfl
@[simp] theorem withFreq_value (s : State) (f : FreqTable) : (s.withFreq f).value = s.value := rfl
@[simp] theorem withFreq_nodeSel (s : State) (f : FreqTable) : (s.withFreq f).nodeSel = s.nodeSel := rfl
@[simp] theorem withFreq_codeSel (s : State) (f : FreqTable) : (s.withFreq f).codeSel = s.codeSel := rfl
@[simp] theorem withFreq_symCnt (s : State) (f : FreqTable) : (s.withFreq f).symCnt = s.symCnt := rfl
@[simp] theorem withFreq_freq (s : State) (f : FreqTable) : (s.withFreq f).freq = f := rfl
@[simp] theorem withFreq_tree (s : State) (f : FreqTable) : (s.withFreq f).tree = { s.tree with treeValid := false } := rfl
@[simp] theorem withFreq_codes (s : State) (f : FreqTable) : (s.withFreq f).codes = s.codes := rfl
@[simp] theorem withFreq_codesValid (s : State) (f : FreqTable) : (s.withFreq f).codesValid = false := rfl
@[simp] theorem withFreq_src (s : State) (f : FreqTable) : (s.withFreq f).src = s.src := rfl
@[simp] theorem withFreq_snk (s : State) (f : FreqTable) : (s.withFreq f).snk = s.snk := rfl
@[simp] theorem withFreq_cur (s : State) (f : FreqTable) : (s.withFreq f).cur = s.cur := rfl
@[simp] theorem withFreq_cls (s : State) (f : FreqTable) : (s.withFreq f).cls = s.cls := rfl
@[simp] theorem withFreq_stage (s : State) (f : FreqTable) : (s.withFreq f).stage = s.stage := rfl
@[simp] theorem withFreq_host (s : State) (f : FreqTable) : (s.withFreq f).host = s.host := rfl

@[simp] theorem withStream_cmd (s : State) (x : Stream) : (s.withStream x).cmd = s.cmd := rfl
@[simp] theorem withStream_status (s : State) (x : Stream) : (s.withStream x).status = s.status := rfl
@[simp] theorem withStream_value (s : State) (x : Stream) : (s.withStream x).value = s.value := rfl
@[simp] theorem withStream_nodeSel (s : State) (x : Stream) : (s.withStream x).nodeSel = s.nodeSel := rfl
@[simp] theorem withStream_codeSel (s : State) (x : Stream) : (s.withStream x).codeSel = s.codeSel := rfl
@[simp] theorem withStream_symCnt (s : State) (x : Stream) : (s.withStream x).symCnt = x.symCnt := rfl
@[simp] theorem withStream_freq (s : State) (x : Stream) : (s.withStream x).freq = s.freq := rfl
@[simp] theorem withStream_tree (s : State) (x : Stream) : (s.withStream x).tree = s.tree := rfl
@[simp] theorem withStream_codes (s : State) (x : Stream) : (s.withStream x).codes = s.codes := rfl
@[simp] theorem withStream_codesValid (s : State) (x : Stream) : (s.withStream x).codesValid = s.codesValid := rfl
@[simp] theorem withStream_src (s : State) (x : Stream) : (s.withStream x).src = x.src := rfl
@[simp] theorem withStream_snk (s : State) (x : Stream) : (s.withStream x).snk = x.snk := rfl
@[simp] theorem withStream_cur (s : State) (x : Stream) : (s.withStream x).cur = x.cur := rfl
@[simp] theorem withStream_cls (s : State) (x : Stream) : (s.withStream x).cls = s.cls := rfl
@[simp] theorem withStream_stage (s : State) (x : Stream) : (s.withStream x).stage = s.stage := rfl
@[simp] theorem withStream_host (s : State) (x : Stream) : (s.withStream x).host = s.host := rfl

@[simp] theorem enterStage_cmd (s : State) (op : BitVec 8) : (s.enterStage op).cmd = s.cmd := rfl
@[simp] theorem enterStage_status (s : State) (op : BitVec 8) : (s.enterStage op).status = s.status := rfl
@[simp] theorem enterStage_value (s : State) (op : BitVec 8) : (s.enterStage op).value = s.value := rfl
@[simp] theorem enterStage_nodeSel (s : State) (op : BitVec 8) : (s.enterStage op).nodeSel = s.nodeSel := rfl
@[simp] theorem enterStage_codeSel (s : State) (op : BitVec 8) : (s.enterStage op).codeSel = s.codeSel := rfl
@[simp] theorem enterStage_symCnt (s : State) (op : BitVec 8) : (s.enterStage op).symCnt = s.symCnt := rfl
@[simp] theorem enterStage_freq (s : State) (op : BitVec 8) : (s.enterStage op).freq = s.freq := rfl
@[simp] theorem enterStage_tree (s : State) (op : BitVec 8) : (s.enterStage op).tree = s.tree := rfl
@[simp] theorem enterStage_codes (s : State) (op : BitVec 8) : (s.enterStage op).codes = s.codes := rfl
@[simp] theorem enterStage_codesValid (s : State) (op : BitVec 8) : (s.enterStage op).codesValid = s.codesValid := rfl
@[simp] theorem enterStage_src (s : State) (op : BitVec 8) : (s.enterStage op).src = s.src := rfl
@[simp] theorem enterStage_snk (s : State) (op : BitVec 8) : (s.enterStage op).snk = s.snk := rfl
@[simp] theorem enterStage_cur (s : State) (op : BitVec 8) : (s.enterStage op).cur = s.cur := rfl
@[simp] theorem enterStage_cls (s : State) (op : BitVec 8) : (s.enterStage op).cls = s.cls := rfl
@[simp] theorem enterStage_stage (s : State) (op : BitVec 8) : (s.enterStage op).stage = some op := rfl
@[simp] theorem enterStage_host (s : State) (op : BitVec 8) : (s.enterStage op).host = s.host := rfl

@[simp] theorem freshSession_cmd (s : State) : (s.freshSession).cmd = s.cmd := rfl
@[simp] theorem freshSession_status (s : State) : (s.freshSession).status = s.status := rfl
@[simp] theorem freshSession_value (s : State) : (s.freshSession).value = s.value := rfl
@[simp] theorem freshSession_nodeSel (s : State) : (s.freshSession).nodeSel = s.nodeSel := rfl
@[simp] theorem freshSession_codeSel (s : State) : (s.freshSession).codeSel = s.codeSel := rfl
@[simp] theorem freshSession_symCnt (s : State) : (s.freshSession).symCnt = 0 := rfl
@[simp] theorem freshSession_freq (s : State) : (s.freshSession).freq = s.freq := rfl
@[simp] theorem freshSession_tree (s : State) : (s.freshSession).tree = s.tree := rfl
@[simp] theorem freshSession_codes (s : State) : (s.freshSession).codes = s.codes := rfl
@[simp] theorem freshSession_codesValid (s : State) : (s.freshSession).codesValid = s.codesValid := rfl
@[simp] theorem freshSession_src (s : State) : (s.freshSession).src = s.src := rfl
@[simp] theorem freshSession_snk (s : State) : (s.freshSession).snk = { s.snk with wacc := 0, wcnt := 0, outCount := 0 } := rfl
@[simp] theorem freshSession_cur (s : State) : (s.freshSession).cur = s.cur := rfl
@[simp] theorem freshSession_cls (s : State) : (s.freshSession).cls = s.cls := rfl
@[simp] theorem freshSession_stage (s : State) : (s.freshSession).stage = s.stage := rfl
@[simp] theorem freshSession_host (s : State) : (s.freshSession).host = s.host := rfl

@[simp] theorem logRead_cmd (s : State) (v : Word) : (s.logRead v).cmd = s.cmd := rfl
@[simp] theorem logRead_status (s : State) (v : Word) : (s.logRead v).status = s.status := rfl
@[simp] theorem logRead_value (s : State) (v : Word) : (s.logRead v).value = s.value := rfl
@[simp] theorem logRead_nodeSel (s : State) (v : Word) : (s.logRead v).nodeSel = s.nodeSel := rfl
@[simp] theorem logRead_codeSel (s : State) (v : Word) : (s.logRead v).codeSel = s.codeSel := rfl
@[simp] theorem logRead_symCnt (s : State) (v : Word) : (s.logRead v).symCnt = s.symCnt := rfl
@[simp] theorem logRead_freq (s : State) (v : Word) : (s.logRead v).freq = s.freq := rfl
@[simp] theorem logRead_tree (s : State) (v : Word) : (s.logRead v).tree = s.tree := rfl
@[simp] theorem logRead_codes (s : State) (v : Word) : (s.logRead v).codes = s.codes := rfl
@[simp] theorem logRead_codesValid (s : State) (v : Word) : (s.logRead v).codesValid = s.codesValid := rfl
@[simp] theorem logRead_src (s : State) (v : Word) : (s.logRead v).src = s.src := rfl
@[simp] theorem logRead_snk (s : State) (v : Word) : (s.logRead v).snk = s.snk := rfl
@[simp] theorem logRead_cur (s : State) (v : Word) : (s.logRead v).cur = s.cur := rfl
@[simp] theorem logRead_cls (s : State) (v : Word) : (s.logRead v).cls = s.cls := rfl
@[simp] theorem logRead_stage (s : State) (v : Word) : (s.logRead v).stage = s.stage := rfl
@[simp] theorem logRead_host (s : State) (v : Word) : (s.logRead v).host = { s.host with readLog := v :: s.host.readLog } := rfl

@[simp] theorem busyDraw_cmd (s : State) : (s.busyDraw).cmd = s.cmd := rfl
@[simp] theorem busyDraw_status (s : State) : (s.busyDraw).status = s.status := rfl
@[simp] theorem busyDraw_value (s : State) : (s.busyDraw).value = s.value := rfl
@[simp] theorem busyDraw_nodeSel (s : State) : (s.busyDraw).nodeSel = s.nodeSel := rfl
@[simp] theorem busyDraw_codeSel (s : State) : (s.busyDraw).codeSel = s.codeSel := rfl
@[simp] theorem busyDraw_symCnt (s : State) : (s.busyDraw).symCnt = s.symCnt := rfl
@[simp] theorem busyDraw_freq (s : State) : (s.busyDraw).freq = s.freq := rfl
@[simp] theorem busyDraw_tree (s : State) : (s.busyDraw).tree = s.tree := rfl
@[simp] theorem busyDraw_codes (s : State) : (s.busyDraw).codes = s.codes := rfl
@[simp] theorem busyDraw_codesValid (s : State) : (s.busyDraw).codesValid = s.codesValid := rfl
@[simp] theorem busyDraw_src (s : State) : (s.busyDraw).src = s.src := rfl
@[simp] theorem busyDraw_snk (s : State) : (s.busyDraw).snk = s.snk := rfl
@[simp] theorem busyDraw_cur (s : State) : (s.busyDraw).cur = s.cur := rfl
@[simp] theorem busyDraw_cls (s : State) : (s.busyDraw).cls = s.cls := rfl
@[simp] theorem busyDraw_stage (s : State) : (s.busyDraw).stage = s.stage := rfl
@[simp] theorem busyDraw_host (s : State) : (s.busyDraw).host = { s.host with readLog := Config.busyRead s.host.busyReads :: s.host.readLog, busyReads := s.host.busyReads + 1 } := rfl

@[simp] theorem dropOp_cmd (s : State) : (s.dropOp).cmd = s.cmd := rfl
@[simp] theorem dropOp_status (s : State) : (s.dropOp).status = s.status := rfl
@[simp] theorem dropOp_value (s : State) : (s.dropOp).value = s.value := rfl
@[simp] theorem dropOp_nodeSel (s : State) : (s.dropOp).nodeSel = s.nodeSel := rfl
@[simp] theorem dropOp_codeSel (s : State) : (s.dropOp).codeSel = s.codeSel := rfl
@[simp] theorem dropOp_symCnt (s : State) : (s.dropOp).symCnt = s.symCnt := rfl
@[simp] theorem dropOp_freq (s : State) : (s.dropOp).freq = s.freq := rfl
@[simp] theorem dropOp_tree (s : State) : (s.dropOp).tree = s.tree := rfl
@[simp] theorem dropOp_codes (s : State) : (s.dropOp).codes = s.codes := rfl
@[simp] theorem dropOp_codesValid (s : State) : (s.dropOp).codesValid = s.codesValid := rfl
@[simp] theorem dropOp_src (s : State) : (s.dropOp).src = s.src := rfl
@[simp] theorem dropOp_snk (s : State) : (s.dropOp).snk = s.snk := rfl
@[simp] theorem dropOp_cur (s : State) : (s.dropOp).cur = s.cur := rfl
@[simp] theorem dropOp_cls (s : State) : (s.dropOp).cls = s.cls := rfl
@[simp] theorem dropOp_stage (s : State) : (s.dropOp).stage = s.stage := rfl
@[simp] theorem dropOp_host (s : State) : (s.dropOp).host = { s.host with script := s.host.script.tail } := rfl

@[simp] theorem loadInput_cmd (s : State) (a : Nat) (bs : List Byte) : (s.loadInput a bs).cmd = s.cmd := rfl
@[simp] theorem loadInput_status (s : State) (a : Nat) (bs : List Byte) : (s.loadInput a bs).status = s.status := rfl
@[simp] theorem loadInput_value (s : State) (a : Nat) (bs : List Byte) : (s.loadInput a bs).value = s.value := rfl
@[simp] theorem loadInput_nodeSel (s : State) (a : Nat) (bs : List Byte) : (s.loadInput a bs).nodeSel = s.nodeSel := rfl
@[simp] theorem loadInput_codeSel (s : State) (a : Nat) (bs : List Byte) : (s.loadInput a bs).codeSel = s.codeSel := rfl
@[simp] theorem loadInput_symCnt (s : State) (a : Nat) (bs : List Byte) : (s.loadInput a bs).symCnt = s.symCnt := rfl
@[simp] theorem loadInput_freq (s : State) (a : Nat) (bs : List Byte) : (s.loadInput a bs).freq = s.freq := rfl
@[simp] theorem loadInput_tree (s : State) (a : Nat) (bs : List Byte) : (s.loadInput a bs).tree = s.tree := rfl
@[simp] theorem loadInput_codes (s : State) (a : Nat) (bs : List Byte) : (s.loadInput a bs).codes = s.codes := rfl
@[simp] theorem loadInput_codesValid (s : State) (a : Nat) (bs : List Byte) : (s.loadInput a bs).codesValid = s.codesValid := rfl
@[simp] theorem loadInput_src (s : State) (a : Nat) (bs : List Byte) : (s.loadInput a bs).src = { s.src with inBuf := s.src.inBuf.writeAll a bs } := rfl
@[simp] theorem loadInput_snk (s : State) (a : Nat) (bs : List Byte) : (s.loadInput a bs).snk = s.snk := rfl
@[simp] theorem loadInput_cur (s : State) (a : Nat) (bs : List Byte) : (s.loadInput a bs).cur = s.cur := rfl
@[simp] theorem loadInput_cls (s : State) (a : Nat) (bs : List Byte) : (s.loadInput a bs).cls = s.cls := rfl
@[simp] theorem loadInput_stage (s : State) (a : Nat) (bs : List Byte) : (s.loadInput a bs).stage = s.stage := rfl
@[simp] theorem loadInput_host (s : State) (a : Nat) (bs : List Byte) : (s.loadInput a bs).host = s.host := rfl

@[simp] theorem issueNext_cmd (s : State) (w : Word) : (s.issueNext w).cmd = s.cmd := rfl
@[simp] theorem issueNext_status (s : State) (w : Word) : (s.issueNext w).status = s.status := rfl
@[simp] theorem issueNext_value (s : State) (w : Word) : (s.issueNext w).value = s.value := rfl
@[simp] theorem issueNext_nodeSel (s : State) (w : Word) : (s.issueNext w).nodeSel = s.nodeSel := rfl
@[simp] theorem issueNext_codeSel (s : State) (w : Word) : (s.issueNext w).codeSel = s.codeSel := rfl
@[simp] theorem issueNext_symCnt (s : State) (w : Word) : (s.issueNext w).symCnt = s.symCnt := rfl
@[simp] theorem issueNext_freq (s : State) (w : Word) : (s.issueNext w).freq = s.freq := rfl
@[simp] theorem issueNext_tree (s : State) (w : Word) : (s.issueNext w).tree = s.tree := rfl
@[simp] theorem issueNext_codes (s : State) (w : Word) : (s.issueNext w).codes = s.codes := rfl
@[simp] theorem issueNext_codesValid (s : State) (w : Word) : (s.issueNext w).codesValid = s.codesValid := rfl
@[simp] theorem issueNext_src (s : State) (w : Word) : (s.issueNext w).src = s.src := rfl
@[simp] theorem issueNext_snk (s : State) (w : Word) : (s.issueNext w).snk = s.snk := rfl
@[simp] theorem issueNext_cur (s : State) (w : Word) : (s.issueNext w).cur = s.cur := rfl
@[simp] theorem issueNext_cls (s : State) (w : Word) : (s.issueNext w).cls = s.cls := rfl
@[simp] theorem issueNext_stage (s : State) (w : Word) : (s.issueNext w).stage = s.stage := rfl
@[simp] theorem issueNext_host (s : State) (w : Word) : (s.issueNext w).host = { s.host with script := .memWrite (s.host.base + Reg.cmd.offset) 4 w :: s.host.script } := rfl

@[simp] theorem resetReader_inBuf (q : Source) : q.resetReader.inBuf = q.inBuf := rfl
@[simp] theorem resetReader_inLen (q : Source) : q.resetReader.inLen = q.inLen := rfl
@[simp] theorem resetReader_srcPos (q : Source) : q.resetReader.srcPos = q.srcPos := rfl
@[simp] theorem resetReader_rbuf (q : Source) : q.resetReader.rbuf = 0 := rfl
@[simp] theorem resetReader_rcnt (q : Source) : q.resetReader.rcnt = 0 := rfl
@[simp] theorem resetReader_reof (q : Source) : q.resetReader.reof = false := rfl
@[simp] theorem resetReader_rdValid (q : Source) : q.resetReader.rdValid = false := rfl
@[simp] theorem resetReader_faults (q : Source) : q.resetReader.faults = q.faults := rfl

@[simp] theorem rewind_inBuf (q : Source) : q.rewind.inBuf = q.inBuf := rfl
@[simp] theorem rewind_inLen (q : Source) : q.rewind.inLen = q.inLen := rfl
@[simp] theorem rewind_srcPos (q : Source) : q.rewind.srcPos = 0 := rfl
@[simp] theorem rewind_rbuf (q : Source) : q.rewind.rbuf = 0 := rfl
@[simp] theorem rewind_rcnt (q : Source) : q.rewind.rcnt = 0 := rfl
@[simp] theorem rewind_reof (q : Source) : q.rewind.reof = false := rfl
@[simp] theorem rewind_rdValid (q : Source) : q.rewind.rdValid = false := rfl
@[simp] theorem rewind_faults (q : Source) : q.rewind.faults = q.faults := rfl

@[simp] theorem status_accept_busy (st : Status) : st.accept.busy = true := rfl
@[simp] theorem status_accept_done (st : Status) : st.accept.done = false := rfl
@[simp] theorem status_accept_err (st : Status) : st.accept.err = st.err := rfl
@[simp] theorem status_accept_rej (st : Status) : st.accept.rej = false := rfl
@[simp] theorem status_accept_errCode (st : Status) : st.accept.errCode = st.errCode := rfl
@[simp] theorem status_accept_errOp (st : Status) : st.accept.errOp = st.errOp := rfl
@[simp] theorem status_accept_errStage (st : Status) : st.accept.errStage = st.errStage := rfl

@[simp] theorem status_complete_busy (st : Status) : st.complete.busy = false := rfl
@[simp] theorem status_complete_done (st : Status) : st.complete.done = true := rfl
@[simp] theorem status_complete_err (st : Status) : st.complete.err = st.err := rfl
@[simp] theorem status_complete_rej (st : Status) : st.complete.rej = st.rej := rfl
@[simp] theorem status_complete_errCode (st : Status) : st.complete.errCode = st.errCode := rfl
@[simp] theorem status_complete_errOp (st : Status) : st.complete.errOp = st.errOp := rfl
@[simp] theorem status_complete_errStage (st : Status) : st.complete.errStage = st.errStage := rfl

@[simp] theorem status_reject_busy (st : Status) : st.reject.busy = st.busy := rfl
@[simp] theorem status_reject_done (st : Status) : st.reject.done = st.done := rfl
@[simp] theorem status_reject_err (st : Status) : st.reject.err = st.err := rfl
@[simp] theorem status_reject_rej (st : Status) : st.reject.rej = true := rfl
@[simp] theorem status_reject_errCode (st : Status) : st.reject.errCode = st.errCode := rfl
@[simp] theorem status_reject_errOp (st : Status) : st.reject.errOp = st.errOp := rfl
@[simp] theorem status_reject_errStage (st : Status) : st.reject.errStage = st.errStage := rfl

@[simp] theorem status_leaveError_busy (st : Status) : st.leaveError.busy = st.busy := rfl
@[simp] theorem status_leaveError_done (st : Status) : st.leaveError.done = st.done := rfl
@[simp] theorem status_leaveError_err (st : Status) : st.leaveError.err = false := rfl
@[simp] theorem status_leaveError_rej (st : Status) : st.leaveError.rej = st.rej := rfl
@[simp] theorem status_leaveError_errCode (st : Status) : st.leaveError.errCode = 0 := rfl
@[simp] theorem status_leaveError_errOp (st : Status) : st.leaveError.errOp = 0 := rfl
@[simp] theorem status_leaveError_errStage (st : Status) : st.leaveError.errStage = 0 := rfl

@[simp] theorem status_abort_busy (st : Status) (k : ErrorKind) (op stg : BitVec 8) : (st.abort k op stg).busy = false := rfl
@[simp] theorem status_abort_done (st : Status) (k : ErrorKind) (op stg : BitVec 8) : (st.abort k op stg).done = st.done := rfl
@[simp] theorem status_abort_err (st : Status) (k : ErrorKind) (op stg : BitVec 8) : (st.abort k op stg).err = true := rfl
@[simp] theorem status_abort_rej (st : Status) (k : ErrorKind) (op stg : BitVec 8) : (st.abort k op stg).rej = st.rej := rfl
@[simp] theorem status_abort_errCode (st : Status) (k : ErrorKind) (op stg : BitVec 8) : (st.abort k op stg).errCode = k.code := rfl
@[simp] theorem status_abort_errOp (st : Status) (k : ErrorKind) (op stg : BitVec 8) : (st.abort k op stg).errOp = op := rfl
@[simp] theorem status_abort_errStage (st : Status) (k : ErrorKind) (op stg : BitVec 8) : (st.abort k op stg).errStage = stg := rfl

@[simp] theorem stream_src (s : State) : s.stream.src = s.src := rfl
@[simp] theorem stream_snk (s : State) : s.stream.snk = s.snk := rfl
@[simp] theorem stream_symCnt (s : State) : s.stream.symCnt = s.symCnt := rfl
@[simp] theorem stream_cur (s : State) : s.stream.cur = s.cur := rfl

/-- Putting a state's own ports, SYMCNT and CUR back changes nothing. -/
@[simp] theorem withStream_stream (s : State) : s.withStream s.stream = s := rfl

end Sys2Proof.Machine
end

