-- ==== Sys2Proof/Laws/Writer.lean ====
section
/-! SUPPORT. Laws/Writer.lean: what the sink port and the bit writer do (20_memory.md R73, 40_bitpack.md R110 to R112): while
the sink is ready, writing a bit sequence appends exactly it. -/

namespace Sys2Proof.Machine

@[simp] theorem byteBits_length (b : Byte) : (byteBits b).length = 8 := rfl

/-- Shifting a bit into a byte drops its first stream bit and adds the new one last. -/
theorem byteBits_shift (a : Byte) (b : Bool) :
    byteBits ((a <<< 1) ||| (BitVec.ofBool b).setWidth 8) = (byteBits a).tail ++ [b] := by
  cases b <;> simp [byteBits]

theorem wcnt_le (k : Sink) : k.wcnt.toNat ≤ 7 := by have := k.wcnt.isLt; omega

@[simp] theorem pending_length (k : Sink) : k.pending.length = k.wcnt.toNat := by
  have := wcnt_le k
  simp [Sink.pending]; omega

theorem Sink.Ready.mono {k : Sink} {m n : Nat} (h : k.Ready n) (hmn : m ≤ n) : k.Ready m :=
  ⟨by have := h.1; omega, by have := h.2.1; omega, fun f hf => h.2.2 f (List.take_subset_take_left _ hmn hf)⟩

/-- A sink write that succeeds (R73). -/
theorem sinkWrite_ready {k : Sink} (h : k.Ready 1) (b : Byte) :
    sinkWrite b k = .ok ()
      { k with faults := k.faults.tail, outBuf := k.outBuf.write k.outCount.toNat b, outCount := k.outCount + 1 } := by
  have h1 := h.1
  have hf : k.faults.headD false = false := by
    cases hk : k.faults with
    | nil => rfl
    | cons x xs => exact h.2.2 x (by simp [hk])
  rw [sinkWrite, if_neg (by omega), if_neg (by rw [hf]; simp)]

/-- Everything a sink write can do (R73). -/
theorem sinkWrite_cases (b : Byte) (k : Sink) :
    (∃ fs, sinkWrite b k = .err .ioError { k with faults := fs }) ∨
    (k.outCount.toNat < k.outCap ∧ sinkWrite b k = .ok ()
      { k with faults := k.faults.tail, outBuf := k.outBuf.write k.outCount.toNat b, outCount := k.outCount + 1 }) := by
  rw [sinkWrite]
  split
  · exact .inl ⟨k.faults, rfl⟩
  · split
    · exact .inl ⟨_, rfl⟩
    · exact .inr ⟨by omega, rfl⟩

theorem appended_nil (k : Sink) : k.Appended [] k := by
  have h : (k.pending ++ []).length / 8 = 0 := by have := wcnt_le k; simp; omega
  exact {
    count := by rw [h]; rfl
    bytes := by rw [h]; intro j hj; omega
    others := fun _ _ => rfl
    rest := by rw [h]; simp
    clean := id
    wf := id
    cap := rfl
    faults := by rw [h]; rfl }

/-- What is appended piece by piece is appended as a whole. -/
theorem Sink.Appended.trans {k k' k'' : Sink} {as bs : List Bool} (h : k.Appended as k') (h' : k'.Appended bs k'') :
    k.Appended (as ++ bs) k'' := by
  have hcount := h.count
  have hbytes := h.bytes
  have hothers := h.others
  have hrest := h.rest
  have hfaults := h.faults
  have hall : k.pending ++ (as ++ bs) = k.pending ++ as ++ bs := (List.append_assoc ..).symm
  generalize k.pending ++ as = p at *
  obtain ⟨m, hm⟩ : ∃ m, p.length / 8 = m := ⟨_, rfl⟩
  rw [hm] at hcount hbytes hothers hrest hfaults
  have hsplit : k'.pending ++ bs = (p ++ bs).drop (8 * m) := by
    rw [hrest, List.drop_append_of_le_length (by omega)]
  have hlen : (p ++ bs).length / 8 = m + (k'.pending ++ bs).length / 8 := by
    have : 8 * m ≤ (p ++ bs).length := by rw [List.length_append]; omega
    rw [hsplit, List.length_drop]; omega
  have hcount' := h'.count
  refine { count := ?_, bytes := ?_, others := ?_, rest := ?_, clean := fun x => h'.clean (h.clean x),
           wf := fun x => h'.wf (h.wf x), cap := h'.cap.trans h.cap, faults := ?_ }
  · rw [hall, hlen, hcount', hcount, Nat.add_assoc]
  · rw [hall]
    intro j hj
    by_cases hjm : j < m
    · rw [h'.others _ (.inl (by rw [hcount]; omega)), hbytes j hjm]
      congr 1
      rw [List.drop_append_of_le_length (by omega), List.take_append_of_le_length (by rw [List.length_drop]; omega)]
    · have e : k.outCount.toNat + j = k'.outCount.toNat + (j - m) := by rw [hcount]; omega
      rw [e, h'.bytes _ (by rw [hlen] at hj; omega), hsplit, List.drop_drop]
      congr 3; omega
  · rw [hall, hlen]
    intro a ha
    rw [h'.others a (by rw [hcount]; omega), hothers a (by omega)]
  · rw [hall, hlen, h'.rest]
    generalize (k'.pending ++ bs).length / 8 = q
    rw [hsplit, List.drop_drop]
    congr 1; omega
  · rw [hall, hlen, h'.faults, hfaults, List.drop_drop]

/-- One bit appended (R110). -/
theorem writeBit_appended {k : Sink} (b : Bool) (h : k.Ready ((k.wcnt.toNat + 1) / 8)) :
    ∃ k', writeBit b k = .ok () k' ∧ k.Appended [b] k' := by
  have hw := wcnt_le k
  rw [writeBit]
  split
  · rename_i h7
    have h7' : k.wcnt.toNat = 7 := by rw [h7]; rfl
    rw [h7'] at h
    have hr : ({ k with wacc := 0, wcnt := 0 } : Sink).Ready 1 := h
    rw [sinkWrite_ready hr]
    refine ⟨_, rfl, ?_⟩
    have hlen : (k.pending ++ [b]).length / 8 = 1 := by simp [h7']
    have hcnt : (k.outCount + 1).toNat = k.outCount.toNat + 1 := by
      have := h.2.1; rw [BitVec.toNat_add]; simp; omega
    have hpend : k.pending ++ [b] = (byteBits k.wacc).tail ++ [b] := by simp [Sink.pending, h7']
    refine { count := by rw [hlen]; exact hcnt, bytes := ?_, others := ?_, rest := ?_, clean := ?_,
             wf := fun hwf => write_wf hwf _ _, cap := rfl, faults := by rw [hlen]; simp }
    · rw [hlen]
      intro j hj
      obtain rfl : j = 0 := by omega
      simp only [Nat.add_zero, Nat.mul_zero, List.drop_zero]
      rw [read_write_same, Option.map_some, byteBits_shift, hpend]
      rfl
    · rw [hlen]
      intro a ha
      exact read_write_other _ _ (by change a ≠ k.outCount.toNat; omega)
    · rw [hlen, hpend]; rfl
    · intro _; simp [Sink.Clean]
  · rename_i h7
    have h7' : k.wcnt.toNat ≠ 7 := fun e => h7 (BitVec.eq_of_toNat_eq e)
    have hcnt : (k.wcnt + 1).toNat = k.wcnt.toNat + 1 := by rw [BitVec.toNat_add]; simp; omega
    refine ⟨_, rfl, ?_⟩
    have hlen : (k.pending ++ [b]).length / 8 = 0 := by simp; omega
    refine { count := by rw [hlen]; rfl, bytes := by rw [hlen]; intro j hj; omega, others := fun _ _ => rfl, rest := ?_,
             clean := ?_, wf := id, cap := rfl, faults := by rw [hlen]; rfl }
    · rw [hlen]
      simp only [Sink.pending, Nat.mul_zero, List.drop_zero, hcnt, byteBits_shift]
      rw [List.drop_append_of_le_length (by simp), List.drop_tail]
      congr 2; omega
    · intro hclean
      simp only [Sink.Clean, hcnt] at *
      have e : (k.wacc <<< 1 ||| (BitVec.ofBool b).setWidth 8).toNat ≤ 2 * k.wacc.toNat + 1 := by
        have hlt : k.wacc.toNat < 128 := lt_of_lt_of_le hclean
          (by calc 2 ^ k.wcnt.toNat ≤ 2 ^ 7 := Nat.pow_le_pow_right (by decide) hw
                _ = 128 := by decide)
        rw [BitVec.toNat_or, BitVec.toNat_shiftLeft]
        have h2 : ((BitVec.ofBool b).setWidth 8).toNat = b.toNat := by cases b <;> rfl
        rw [h2, Nat.shiftLeft_eq, Nat.mod_eq_of_lt (by omega)]
        have := Nat.or_lt_two_pow (x := 0) (y := 0) (n := 1) (by decide) (by decide)
        cases b
        · simp; omega
        · have : k.wacc.toNat * 2 ^ 1 ||| 1 = k.wacc.toNat * 2 ^ 1 + 1 := by
            have := Nat.two_pow_add_eq_or_of_lt (i := 1) (b := 1) (by decide) k.wacc.toNat
            rw [Nat.mul_comm] at this; exact this.symm
          rw [Bool.toNat_true, this]; omega
      have : 2 ^ (k.wcnt.toNat + 1) = 2 * 2 ^ k.wcnt.toNat := by rw [Nat.pow_succ]; omega
      omega

theorem Sink.Appended.ready {k k' : Sink} {as bs : List Bool} (h : k.Appended as k')
    (hr : k.Ready ((k.wcnt.toNat + (as ++ bs).length) / 8)) : k'.Ready ((k'.wcnt.toNat + bs.length) / 8) := by
  have hc := h.count
  have hf := h.faults
  have hl := congrArg List.length h.rest
  have hle : (k.pending ++ as).length = k.wcnt.toNat + as.length := by simp
  rw [pending_length, List.length_drop, hle] at hl
  rw [hle] at hc hf
  generalize hm : (k.wcnt.toNat + as.length) / 8 = m at *
  have e : (k.wcnt.toNat + (as ++ bs).length) / 8 = m + (k'.wcnt.toNat + bs.length) / 8 := by
    rw [hl, List.length_append]; omega
  rw [e] at hr
  refine ⟨by rw [h.cap, hc]; have := hr.1; omega, by rw [hc]; have := hr.2.1; omega, fun f hx => hr.2.2 f ?_⟩
  rw [hf, List.take_drop] at hx
  exact List.drop_subset _ _ hx

/-- A whole bit sequence appended (R111). -/
theorem writeSeq_appended (bs : List Bool) {k : Sink} (h : k.Ready ((k.wcnt.toNat + bs.length) / 8)) :
    ∃ k', writeSeq bs k = .ok () k' ∧ k.Appended bs k' := by
  induction bs generalizing k with
  | nil => exact ⟨k, rfl, appended_nil k⟩
  | cons b bs ih =>
    obtain ⟨k1, e1, a1⟩ := writeBit_appended b (h.mono (by simp; omega))
    obtain ⟨k2, e2, a2⟩ := ih (a1.ready (bs := bs) h)
    exact ⟨k2, by rw [writeSeq, e1]; exact e2, a1.trans a2⟩

theorem fieldBits_length (n : Nat) (v : Word) : (fieldBits n v).length = n := by simp [fieldBits]

/-- A field appended (R111). -/
theorem writeBits_appended (n : Nat) (v : Word) {k : Sink} (h : k.Ready ((k.wcnt.toNat + n) / 8)) :
    ∃ k', writeBits n v k = .ok () k' ∧ k.Appended (fieldBits n v) k' :=
  writeSeq_appended _ (by rwa [fieldBits_length])

-- A sink that fails

/-- A sink write that fails (R73). -/
theorem sinkWrite_fails {k : Sink} (h : k.FailsAt 0) (b : Byte) :
    sinkWrite b k = .err .ioError { k with faults := k.faultsFailed 0 } := by
  have hf := h.fails
  rw [sinkWrite, Sink.faultsFailed]
  by_cases hc : k.outCap ≤ k.outCount.toNat
  · rw [if_pos hc, if_pos (by omega)]; rfl
  · have hd : k.faults.headD false = true := by
      rcases hf with x | x
      · omega
      · cases hk : k.faults <;> simp_all
    rw [if_neg hc, if_pos hd, if_neg (by omega), List.drop_one]

theorem writeSeq_append (as bs : List Bool) (k : Sink) :
    writeSeq (as ++ bs) k = (writeSeq as k).bind fun _ k' => writeSeq bs k' := by
  induction as generalizing k with
  | nil => rfl
  | cons a as ih =>
    rw [List.cons_append, writeSeq, writeSeq, bind_assoc]
    congr 1
    funext _ k'
    exact ih k'

/-- A sink that has taken some bytes fails as many bytes earlier. -/
theorem Sink.FailsAt.after {k k' : Sink} {bs : List Bool} {m : Nat} (h : k.FailsAt m) (a : k.Appended bs k')
    (hm : (k.pending ++ bs).length / 8 = m) : k'.FailsAt 0 ∧ k'.faultsFailed 0 = k.faultsFailed m := by
  have hc := a.count
  have hf := a.faults
  rw [hm] at hc hf
  constructor
  · refine ⟨⟨by rw [hc, a.cap]; exact h.ready.1, by rw [hc]; exact h.ready.2.1, fun f x => by simp at x⟩, ?_⟩
    rw [a.cap, hc, hf, List.getD_eq_getElem?_getD, List.getElem?_drop, ← List.getD_eq_getElem?_getD]
    exact h.fails
  · rw [Sink.faultsFailed, Sink.faultsFailed, a.cap, hc, hf, List.drop_drop, List.drop_drop, Nat.zero_add]
    rfl

/-- A bit sequence of which byte `m` is the first the sink does not take (R110, R111, R230). -/
theorem writeSeq_lost (bs : List Bool) {k : Sink} {m : Nat} (h : k.FailsAt m) (hm : m < (k.wcnt.toNat + bs.length) / 8) :
    ∃ k', writeSeq bs k = .err .ioError k' ∧ k.Lost bs m k' := by
  have hw := wcnt_le k
  obtain ⟨as, b, cs, rfl, hlen⟩ : ∃ as b cs, bs = as ++ b :: cs ∧ k.wcnt.toNat + as.length = 8 * m + 7 := by
    have hlt : 8 * m + 7 - k.wcnt.toNat < bs.length := by omega
    exact ⟨bs.take (8 * m + 7 - k.wcnt.toNat), bs[8 * m + 7 - k.wcnt.toNat], bs.drop (8 * m + 7 - k.wcnt.toNat + 1),
      by rw [← List.drop_eq_getElem_cons hlt, List.take_append_drop], by rw [List.length_take]; omega⟩
  obtain ⟨k1, e1, a1⟩ := writeSeq_appended as (h.ready.mono (by omega))
  have hl : (k.pending ++ as).length = 8 * m + 7 := by rw [List.length_append, pending_length]; exact hlen
  have hq : (k.pending ++ as).length / 8 = m := by omega
  have h7 : k1.wcnt = 7 := by
    have := congrArg List.length a1.rest
    rw [pending_length, List.length_drop, hq, hl] at this
    exact BitVec.eq_of_toNat_eq (by rw [this]; simp)
  obtain ⟨hf, hfs⟩ := h.after a1 hq
  have hf' : ({ k1 with wacc := 0, wcnt := 0 } : Sink).FailsAt 0 := ⟨hf.ready, hf.fails⟩
  refine ⟨{ k1 with wacc := 0, wcnt := 0, faults := k1.faultsFailed 0 }, ?_, ?_⟩
  · rw [writeSeq_append, e1, bind_ok, writeSeq, writeBit, if_pos h7, sinkWrite_fails hf', bind_err]; rfl
  · have hc := a1.count
    have hb := a1.bytes
    have ho := a1.others
    rw [hq] at hc hb ho
    refine { count := hc, bytes := fun j hj => ?_, others := ho, wacc := rfl, wcnt := rfl, cap := a1.cap, faults := hfs }
    have e : k.pending ++ (as ++ b :: cs) = k.pending ++ as ++ b :: cs := (List.append_assoc ..).symm
    rw [e, List.drop_append_of_le_length (by omega), List.take_append_of_le_length (by rw [List.length_drop]; omega)]
    exact hb j hj

/-- A field of which byte `m` is the first the sink does not take (R111). -/
theorem writeBits_lost (n : Nat) (v : Word) {k : Sink} {m : Nat} (h : k.FailsAt m) (hm : m < (k.wcnt.toNat + n) / 8) :
    ∃ k', writeBits n v k = .err .ioError k' ∧ k.Lost (fieldBits n v) m k' :=
  writeSeq_lost _ h (by rwa [fieldBits_length])

/-- A sink write keeps the sink's invariant, whatever it answers. -/
theorem sinkWrite_keeps {k : Sink} (b : Byte) (h : k.Ok) (hw : k.outBuf.wf) :
    (sinkWrite b k).Ends (fun _ k' => k'.Ok ∧ k'.outBuf.wf) (fun _ k' => k'.Ok ∧ k'.outBuf.wf) := by
  rcases sinkWrite_cases b k with ⟨fs, e⟩ | ⟨hlt, e⟩
  · rw [e]; exact ⟨⟨h.clean, h.count, h.written⟩, hw⟩
  · rw [e]
    have hle : (k.outCount + 1).toNat ≤ k.outCount.toNat + 1 := by
      rw [BitVec.toNat_add]; exact Nat.mod_le _ _
    refine ⟨⟨h.clean, by simp only; omega, fun a ha => ?_⟩, write_wf hw _ _⟩
    simp only at ha ⊢
    rw [read_write]
    split
    · rfl
    · exact h.written a (by omega)

end Sys2Proof.Machine
end

