-- ==== Sys2Proof/Laws/Keeps.lean ====
section
/-! SUPPORT. Laws/Keeps.lean: the invariants of 10_state.md R50 through the body of every command: what a body that starts in a
good state leaves, where it goes on and where it raises an error. -/

namespace Sys2Proof.Machine

/-- The reader's invariant while no error has been raised: with RD_VALID = 1, no bit left means end-of-input (R224). -/
structure Source.Good (q : Source) : Prop where
  reader : q.ReaderOk
  drained : q.rdValid = true → q.rcnt = 0 → q.reof = true
  buf : q.inBuf.wf

/-- The source after an error: the last clause is the one an IoError in a refill may break. -/
structure Source.Bad (q : Source) : Prop where
  reader : q.ReaderOk
  buf : q.inBuf.wf

theorem Source.Good.bad {q : Source} (h : q.Good) : q.Bad := ⟨h.reader, h.buf⟩

/-- The sink's invariant with its buffer's form. -/
structure Sink.Good (k : Sink) : Prop where
  ok : k.Ok
  buf : k.outBuf.wf

theorem good_faults {q : Source} (h : q.Good) (fs : List Bool) : ({ q with faults := fs } : Source).Good :=
  ⟨⟨h.reader.short, h.reader.atEnd, h.reader.invalid⟩, h.drained, h.buf⟩

/-- A fetch (R113) into an empty reader. -/
theorem fetch_keeps {q : Source} (hv : q.rdValid = true) (h0 : q.rcnt = 0) (he : q.reof = false) (hb : q.inBuf.wf) :
    (fetch q).Ends (fun _ q' => q'.Good ∧ q'.rdValid = true) (fun k q' => q'.Bad ∧ k = .ioError) := by
  have hinv : ∀ {P : Prop}, q.rdValid = false → P := fun h => absurd hv (by simp [h])
  rw [fetch]
  rcases srcRead_cases q.srcPos q with ⟨-, e⟩ | ⟨-, e⟩ | ⟨-, e⟩ <;> rw [e]
  · exact ⟨⟨⟨by simp, fun _ => rfl, fun h => hinv h⟩, fun _ _ => rfl, hb⟩, hv⟩
  · refine ⟨⟨⟨by simp [h0], fun h => h0, fun h => hinv h⟩, hb⟩, rfl⟩
  · refine ⟨⟨⟨le_refl 8, fun h => ?_, fun h => hinv h⟩, fun _ h => absurd h eight_ne, hb⟩, hv⟩
    change q.reof = true at h
    rw [he] at h; cases h

theorem readBit_keeps {q : Source} (h : q.Good) (hv : q.rdValid = true) :
    (readBit q).Ends (fun _ q' => q'.Good ∧ q'.rdValid = true)
      (fun k q' => q'.Bad ∧ (k = .ioError ∨ k = .truncatedStream)) := by
  rw [readBit]
  split
  · exact ⟨h.bad, .inr rfl⟩
  · rename_i h0
    have he : q.reof = false := by
      cases e : q.reof with
      | false => rfl
      | true => exact absurd (h.reader.atEnd e) h0
    split
    · simp only [ends_bind, ends_ok]
      exact (fetch_keeps (q := { q with rbuf := q.rbuf <<< 1, rcnt := 0 }) hv rfl he h.buf).mono
        (fun _ _ x => x) (fun _ _ x => ⟨x.1, .inl x.2⟩)
    · rename_i h1
      have hpos : q.rcnt.toNat ≠ 0 := fun e => h0 (BitVec.eq_of_toNat_eq e)
      have h1' : q.rcnt.toNat ≠ 1 := fun e => h1 (BitVec.eq_of_toNat_eq e)
      have hr : (q.rcnt - 1).toNat = q.rcnt.toNat - 1 := by rw [BitVec.toNat_sub]; simp; omega
      have hne : q.rcnt - 1 ≠ 0 := fun e => by rw [e] at hr; simp at hr; omega
      have h8 := h.reader.short
      refine ⟨⟨⟨by change (q.rcnt - 1).toNat ≤ 8; omega, fun x => ?_, fun x => ?_⟩, fun _ x => absurd x hne, h.buf⟩, hv⟩
      · change q.reof = true at x
        rw [he] at x; cases x
      · change q.rdValid = false at x
        rw [hv] at x; cases x

theorem readBitsFrom_keeps (n : Nat) (v : Word) {q : Source} (h : q.Good) (hv : q.rdValid = true) :
    (readBitsFrom n v q).Ends (fun _ q' => q'.Good ∧ q'.rdValid = true)
      (fun k q' => q'.Bad ∧ (k = .ioError ∨ k = .truncatedStream)) := by
  induction n generalizing v q with
  | zero => exact ⟨h, hv⟩
  | succ n ih =>
    rw [readBitsFrom]
    simp only [ends_bind]
    exact (readBit_keeps h hv).mono (fun _ _ x => ih _ x.1 x.2) (fun _ _ x => x)

theorem readBits_keeps (n : Nat) {q : Source} (h : q.Good) (hv : q.rdValid = true) :
    (readBits n q).Ends (fun _ q' => q'.Good ∧ q'.rdValid = true)
      (fun k q' => q'.Bad ∧ (k = .ioError ∨ k = .truncatedStream)) := readBitsFrom_keeps n 0 h hv

/-- The reset reader (R42). -/
theorem rewind_good {q : Source} (h : q.inBuf.wf) : q.rewind.Good :=
  ⟨⟨by simp, by simp, by simp⟩, by simp, h⟩

/-- A source read of a scan that then advances SRC_POS: the reader stays reset. -/
theorem good_scan {q : Source} (h : q.Good) (hv : q.rdValid = false) (p : Wide) (fs : List Bool) :
    ({ q with srcPos := p, faults := fs } : Source).Good :=
  ⟨⟨h.reader.short, h.reader.atEnd, h.reader.invalid⟩, fun x => absurd x (by simp [hv]), h.buf⟩

-- The writer

theorem sink_cleared {k : Sink} (h : k.Good) : ({ k with wacc := 0, wcnt := 0 } : Sink).Good :=
  ⟨⟨by simp [Sink.Clean], h.ok.count, h.ok.written⟩, h.buf⟩

theorem sinkWrite_good {k : Sink} (b : Byte) (h : k.Good) :
    (sinkWrite b k).Ends (fun _ k' => k'.Good) (fun e k' => k'.Good ∧ e = .ioError) := by
  have := sinkWrite_keeps b h.ok h.buf
  rcases sinkWrite_cases b k with ⟨fs, e⟩ | ⟨-, e⟩ <;> rw [e] at this ⊢
  · exact ⟨⟨this.1, this.2⟩, rfl⟩
  · exact ⟨this.1, this.2⟩

theorem writeBit_good {k : Sink} (b : Bool) (h : k.Good) :
    (writeBit b k).Ends (fun _ k' => k'.Good) (fun e k' => k'.Good ∧ e = .ioError) := by
  by_cases h7 : k.wcnt = 7
  · rw [writeBit, if_pos h7]; exact sinkWrite_good _ (sink_cleared h)
  · have h7' : k.wcnt.toNat ≠ 7 := fun e => h7 (BitVec.eq_of_toNat_eq e)
    have hw := wcnt_le k
    -- the writer with nowhere to fail: no sink write takes place, so a sink that is always ready shows what it leaves
    let k0 : Sink := { k with outCap := k.outCount.toNat, faults := [] }
    have hm : (k0.wcnt.toNat + 1) / 8 = 0 := by change (k.wcnt.toNat + 1) / 8 = 0; omega
    have hr : k0.Ready ((k0.wcnt.toNat + 1) / 8) := by
      rw [hm]; exact ⟨le_refl _, k.outCount.isLt, fun f hf => by simp at hf⟩
    obtain ⟨k1, e1, a1⟩ := writeBit_appended b hr
    have hw1 : writeBit b k0 = .ok () { k0 with wacc := (k.wacc <<< 1) ||| (BitVec.ofBool b).setWidth 8, wcnt := k.wcnt + 1 } := by
      rw [writeBit, if_neg h7]
    rw [hw1] at e1
    cases e1
    rw [writeBit, if_neg h7]
    exact ⟨⟨a1.clean h.ok.clean, h.ok.count, h.ok.written⟩, h.buf⟩

theorem writeSeq_good (bs : List Bool) {k : Sink} (h : k.Good) :
    (writeSeq bs k).Ends (fun _ k' => k'.Good) (fun e k' => k'.Good ∧ e = .ioError) := by
  induction bs generalizing k with
  | nil => exact h
  | cons b bs ih =>
    rw [writeSeq]
    simp only [ends_bind]
    exact (writeBit_good b h).mono (fun _ _ x => ih x) (fun _ _ x => x)

theorem writeBits_good (n : Nat) (v : Word) {k : Sink} (h : k.Good) :
    (writeBits n v k).Ends (fun _ k' => k'.Good) (fun e k' => k'.Good ∧ e = .ioError) := writeSeq_good _ h

theorem flushBits_good {k : Sink} (h : k.Good) :
    (flushBits k).Ends (fun _ k' => k'.Good) (fun e k' => k'.Good ∧ e = .ioError) := by
  rw [flushBits]
  split
  · exact h
  · exact sinkWrite_good _ (sink_cleared h)

theorem writeClasses_good (fs : List Word) {k : Sink} (h : k.Good) :
    (writeClasses fs k).Ends (fun _ k' => k'.Good) (fun e k' => k'.Good ∧ (e = .ioError ∨ e = .frequencyRange)) := by
  induction fs generalizing k with
  | nil => exact h
  | cons f fs ih =>
    rw [writeClasses]
    split
    · simp only [ends_bind]
      exact (writeBits_good _ _ h).mono (fun _ _ x => ih x) (fun _ _ x => ⟨x.1, .inl x.2⟩)
    · exact ⟨h, .inr rfl⟩

theorem writeValues_good (fs : List Word) {k : Sink} (h : k.Good) :
    (writeValues fs k).Ends (fun _ k' => k'.Good) (fun e k' => k'.Good ∧ (e = .ioError ∨ e = .frequencyRange)) := by
  induction fs generalizing k with
  | nil => exact h
  | cons f fs ih =>
    rw [writeValues]
    split
    · simp only [ends_bind]
      exact (writeBits_good _ _ h).mono (fun _ _ x => ih x) (fun _ _ x => ⟨x.1, .inl x.2⟩)
    · exact ⟨h, .inr rfl⟩

-- The bodies of the commands

/-- A running command's state, no error raised: everything of `State.Inv` that does not speak of STATUS or of being idle. -/
structure State.Mid (s : State) : Prop where
  src : s.src.Good
  snk : s.snk.Good
  tree : s.TreeOk
  pq : s.tree.pq = none

/-- A running command's state where it raises an error. -/
structure State.MidErr (s : State) : Prop where
  src : s.src.Bad
  snk : s.snk.Good
  tree : s.TreeOk
  pq : s.tree.pq = none

theorem State.Mid.err {s : State} (h : s.Mid) : s.MidErr := ⟨h.src.bad, h.snk, h.tree, h.pq⟩

/-- What every body but CLEAR's leaves of a good state `s`: a good state and STATUS untouched; where it raises an error, one of
the kinds the spec lets it raise (R220; never CorruptHeader, R225). -/
def Keeps (r : Res State Unit) (s : State) : Prop :=
  r.Ends (fun _ s' => s'.Mid ∧ s'.status = s.status) (fun k s' => s'.MidErr ∧ s'.status = s.status ∧ k ≠ .corruptHeader)

theorem Keeps.bind {s s1 : State} {r : Res State Unit} {f : Unit → State → Res State Unit} (h : Keeps r s1)
    (hs : s1.status = s.status) (hf : ∀ s', s'.Mid → Keeps (f () s') s') : Keeps (r.bind f) s := by
  rw [Keeps, ends_bind]
  refine Res.Ends.mono h (fun a s' x => ?_) (fun k s' x => ⟨x.1, x.2.1.trans hs, x.2.2⟩)
  have e := x.2.trans hs
  exact (hf s' x.1).mono (fun _ _ y => ⟨y.1, y.2.trans e⟩) (fun _ _ y => ⟨y.1, y.2.1.trans e, y.2.2⟩)

theorem mid_stage {s : State} (h : s.Mid) (op : BitVec 8) : (s.enterStage op).Mid :=
  ⟨h.src, h.snk, ⟨h.tree.tree, h.tree.codes, h.tree.unused⟩, h.pq⟩

theorem treeOk_of {s s' : State} (h : s.TreeOk) (h1 : s'.tree = s.tree) (h2 : s'.freq = s.freq)
    (h3 : s'.codes = s.codes) (h4 : s'.codesValid = s.codesValid) : s'.TreeOk :=
  ⟨by rw [h1, h2]; exact h.tree, by rw [h1, h3, h4]; exact h.codes, by rw [h1]; exact h.unused⟩

/-- A FREQ write makes no claim of the tree and the code table (R35). -/
theorem treeOk_withFreq {s : State} (h : s.TreeOk) (f : FreqTable) : (s.withFreq f).TreeOk :=
  ⟨fun x => by simp at x, fun x => by simp at x, fun i hi => h.unused i hi⟩

theorem mid_src {s : State} (h : s.Mid) {q : Source} (hq : q.Good) : ({ s with src := q } : State).Mid :=
  ⟨hq, h.snk, treeOk_of h.tree rfl rfl rfl rfl, h.pq⟩

theorem midErr_src {s : State} (h : s.Mid) {q : Source} (hq : q.Bad) : ({ s with src := q } : State).MidErr :=
  ⟨hq, h.snk, treeOk_of h.tree rfl rfl rfl rfl, h.pq⟩

theorem mid_snk {s : State} (h : s.Mid) {k : Sink} (hk : k.Good) : ({ s with snk := k } : State).Mid :=
  ⟨h.src, hk, treeOk_of h.tree rfl rfl rfl rfl, h.pq⟩

theorem mid_value {s : State} (h : s.Mid) (v : Word) : ({ s with value := v } : State).Mid :=
  ⟨h.src, h.snk, treeOk_of h.tree rfl rfl rfl rfl, h.pq⟩

theorem mid_withFreq {s : State} (h : s.Mid) (f : FreqTable) : (s.withFreq f).Mid :=
  ⟨h.src, h.snk, treeOk_withFreq h.tree f, h.pq⟩

theorem keeps_illegal {s : State} (h : s.Mid) : Keeps (.err .illegalCommand s) s := ⟨h.err, rfl, by decide⟩

theorem bodyWrBits_keeps (n : BitVec 6) {s : State} (h : s.Mid) : Keeps (bodyWrBits n s) s := by
  rw [bodyWrBits]
  split
  · rw [Keeps, ends_within]
    exact (writeBits_good _ _ h.snk).mono (fun _ _ x => ⟨mid_snk h x, rfl⟩)
      (fun k _ x => ⟨(mid_snk h x.1).err, rfl, by rw [x.2]; decide⟩)
  · exact keeps_illegal h

theorem bodyFlush_keeps {s : State} (h : s.Mid) : Keeps (bodyFlush s) s := by
  rw [Keeps, bodyFlush, ends_within]
  exact (flushBits_good h.snk).mono (fun _ _ x => ⟨mid_snk h x, rfl⟩)
    (fun k _ x => ⟨(mid_snk h x.1).err, rfl, by rw [x.2]; decide⟩)

theorem bodyRdInit_keeps {s : State} (h : s.Mid) :
    (bodyRdInit s).Ends (fun _ s' => s'.Mid ∧ s'.status = s.status ∧ s'.src.rdValid = true)
      (fun k s' => s'.MidErr ∧ s'.status = s.status ∧ k ≠ .corruptHeader) := by
  rw [bodyRdInit, ends_within]
  exact (fetch_keeps (q := { s.src with srcPos := 0, rbuf := 0, rcnt := 0, reof := false, rdValid := true })
    rfl rfl rfl h.src.buf).mono (fun _ _ x => ⟨mid_src h x.1, rfl, x.2⟩)
    (fun k _ x => ⟨midErr_src h x.1, rfl, by rw [x.2]; decide⟩)

theorem ne_corrupt {k : ErrorKind} (h : k = .ioError ∨ k = .truncatedStream) : k ≠ .corruptHeader := by
  rcases h with rfl | rfl <;> decide

theorem bodyRdBit_keeps {s : State} (h : s.Mid) : Keeps (bodyRdBit s) s := by
  rw [bodyRdBit]
  split
  · rw [Keeps, ends_bind, ends_within]
    exact (readBit_keeps h.src ‹_›).mono (fun _ _ x => ⟨mid_value (mid_src h x.1) _, rfl⟩)
      (fun k _ x => ⟨midErr_src h x.1, rfl, ne_corrupt x.2⟩)
  · exact keeps_illegal h

theorem bodyRdBits_keeps (n : BitVec 6) {s : State} (h : s.Mid) : Keeps (bodyRdBits n s) s := by
  rw [bodyRdBits]
  split
  · split
    · rw [Keeps, ends_bind, ends_within]
      exact (readBits_keeps _ h.src ‹_›).mono (fun _ _ x => ⟨mid_value (mid_src h x.1) _, rfl⟩)
        (fun k _ x => ⟨midErr_src h x.1, rfl, ne_corrupt x.2⟩)
    · exact keeps_illegal h
  · exact keeps_illegal h

theorem countLoop_keeps (n : Nat) {p : Source × FreqTable} (h : p.1.Good) (hv : p.1.rdValid = false) :
    (countLoop n p).Ends (fun _ p' => p'.1.Good) (fun k p' => p'.1.Good ∧ k = .ioError) := by
  induction n generalizing p with
  | zero => exact h
  | succ n ih =>
    obtain ⟨q, f⟩ := p
    rw [countLoop]
    rcases srcRead_cases q.srcPos q with ⟨-, e⟩ | ⟨-, e⟩ | ⟨-, e⟩ <;> rw [e]
    · exact h
    · exact ⟨good_faults h _, rfl⟩
    · exact ih (good_scan h hv _ _) hv

theorem bodyCount_keeps {s : State} (h : s.Mid) : Keeps (bodyCount s) s := by
  rw [Keeps, bodyCount, ends_within]
  exact (countLoop_keeps _ (rewind_good h.src.buf) rfl).mono
    (fun _ p x => ⟨mid_src (mid_withFreq h p.2) x, rfl⟩)
    (fun k p x => ⟨(mid_src (mid_withFreq h p.2) x.1).err, rfl, by rw [x.2]; decide⟩)

theorem bodyHdrWrite_keeps {s : State} (h : s.Mid) : Keeps (bodyHdrWrite s) s := by
  rw [bodyHdrWrite]
  split
  · exact ⟨h.err, rfl, by decide⟩
  · rw [Keeps, ends_within, ends_bind]
    refine (writeClasses_good _ h.snk).mono (fun _ k x => ?_)
      (fun k _ x => ⟨(mid_snk h x.1).err, rfl, by rcases x.2 with e | e <;> rw [e] <;> decide⟩)
    exact (writeValues_good _ x).mono (fun _ _ y => ⟨mid_snk h y, rfl⟩)
      (fun k _ y => ⟨(mid_snk h y.1).err, rfl, by rcases y.2 with e | e <;> rw [e] <;> decide⟩)

theorem readClasses_keeps (n : Nat) (acc : List (BitVec 2)) {q : Source} (h : q.Good) (hv : q.rdValid = true) :
    (readClasses n acc q).Ends (fun _ p => p.1.Good ∧ p.1.rdValid = true)
      (fun k p => p.1.Bad ∧ (k = .ioError ∨ k = .truncatedStream)) := by
  induction n generalizing acc q with
  | zero => exact ⟨h, hv⟩
  | succ n ih =>
    rw [readClasses]
    have := readBits_keeps 2 h hv
    revert this
    cases readBits 2 q with
    | ok v q' => exact fun x => ih _ x.1 x.2
    | err k q' => exact id
    | stuck f => exact fun _ => trivial

theorem readValues_keeps (cs : List (BitVec 2)) (b : Nat) {p : Source × FreqTable} (h : p.1.Good)
    (hv : p.1.rdValid = true) :
    (readValues cs b p).Ends (fun _ p' => p'.1.Good ∧ p'.1.rdValid = true)
      (fun k p' => p'.1.Bad ∧ (k = .ioError ∨ k = .truncatedStream)) := by
  induction cs generalizing b p with
  | nil => exact ⟨h, hv⟩
  | cons c cs ih =>
    obtain ⟨q, f⟩ := p
    rw [readValues]
    split
    · exact ih _ h hv
    · have := readBits_keeps (classWidth c) h hv
      revert this
      cases readBits (classWidth c) q with
      | ok v q' => exact fun x => ih _ x.1 x.2
      | err k q' => exact id
      | stuck f => exact fun _ => trivial

theorem bodyHdrRead_keeps {s : State} (h : s.Mid) :
    (bodyHdrRead s).Ends (fun _ s' => s'.Mid ∧ s'.status = s.status ∧ s'.src.rdValid = true)
      (fun k s' => s'.MidErr ∧ s'.status = s.status ∧ k ≠ .corruptHeader) := by
  rw [bodyHdrRead]
  split
  · rename_i hv
    rw [ends_bind, hdrClasses, ends_within]
    refine (readClasses_keeps 256 [] (q := (s.withFreq FreqTable.zero).src) h.src hv).mono (fun _ p x => ?_)
      (fun k p x => ⟨?_, rfl, ne_corrupt x.2⟩)
    · rw [hdrValues, ends_within]
      refine (readValues_keeps _ 0 (p := (p.1, FreqTable.zero)) x.1 x.2).mono (fun _ p' y => ⟨?_, rfl, y.2⟩)
        (fun k p' y => ⟨?_, rfl, ne_corrupt y.2⟩)
      · exact ⟨y.1, h.snk, ⟨fun z => by simp at z, fun z => by simp at z, fun i hi => h.tree.unused i hi⟩, h.pq⟩
      · exact ⟨y.1, h.snk, ⟨fun z => by simp at z, fun z => by simp at z, fun i hi => h.tree.unused i hi⟩, h.pq⟩
    · exact ⟨x.1, h.snk, ⟨fun z => by simp at z, fun z => by simp at z, fun i hi => h.tree.unused i hi⟩, h.pq⟩
  · exact ⟨h.err, rfl, by decide⟩

theorem bodyBuild_keeps {s : State} (h : s.Mid) :
    (bodyBuild s).Ends (fun _ s' => s'.Mid ∧ s'.status = s.status ∧ s'.src = s.src)
      (fun k s' => s'.MidErr ∧ s'.status = s.status ∧ k ≠ .corruptHeader) := by
  rw [bodyBuild]
  split
  · rename_i hn
    obtain ⟨e, m, -, -, -, hv, hpq, -⟩ := build_spec ((nonzero_iff s.freq).1 hn)
    refine ⟨⟨h.src, h.snk, ⟨fun _ => ⟨hn, rfl⟩, fun x => by simp at x, ?_⟩, hpq⟩, rfl, rfl⟩
    exact m.grown.unused
  · exact ⟨h.err, rfl, by decide⟩

theorem bodyGencodes_keeps {s : State} (h : s.Mid) : Keeps (bodyGencodes s) s := by
  rw [bodyGencodes]
  split
  · rename_i hv
    split
    · rename_i c hc
      exact ⟨⟨h.src, h.snk, ⟨h.tree.tree, fun _ => ⟨hv, hc⟩, h.tree.unused⟩, h.pq⟩, rfl⟩
    · trivial
  · exact keeps_illegal h

theorem encodeLoop_keeps (c : CodeMap) (n : Nat) {x : Stream} (h : x.src.Good) (hv : x.src.rdValid = false)
    (hk : x.snk.Good) :
    (encodeLoop c n x).Ends (fun _ y => y.src.Good ∧ y.snk.Good)
      (fun k y => y.src.Good ∧ y.snk.Good ∧ k ≠ .corruptHeader) := by
  induction n generalizing x with
  | zero => exact ⟨h, hk⟩
  | succ n ih =>
    rw [encodeLoop]
    rcases srcRead_cases x.src.srcPos x.src with ⟨-, e⟩ | ⟨-, e⟩ | ⟨-, e⟩ <;> rw [e]
    · exact ⟨h, hk⟩
    · exact ⟨good_faults h _, hk, by decide⟩
    · simp only [ends_bind, encodeByte]
      split
      · exact ⟨good_scan h hv _ _, hk, by decide⟩
      · simp only [ends_bind, ends_within, ends_ok]
        exact (writeSeq_good _ hk).mono (fun _ _ y => ih (good_scan h hv _ _) hv y)
          (fun k _ y => ⟨good_scan h hv _ _, y.1, by rw [y.2]; decide⟩)

theorem mid_stream {s : State} (h : s.Mid) {x : Stream} (hq : x.src.Good) (hk : x.snk.Good) : (s.withStream x).Mid :=
  ⟨hq, hk, treeOk_of h.tree rfl rfl rfl rfl, h.pq⟩

theorem bodyEncPayload_keeps {s : State} (h : s.Mid) : Keeps (bodyEncPayload s) s := by
  rw [bodyEncPayload]
  split
  · rw [Keeps, ends_within]
    exact (encodeLoop_keeps _ _ (x := { s.stream with src := s.src.rewind, symCnt := 0 }) (rewind_good h.src.buf) rfl
      h.snk).mono (fun _ _ y => ⟨mid_stream h y.1 y.2, rfl⟩)
      (fun _ _ y => ⟨(mid_stream h y.1 y.2.1).err, rfl, y.2.2⟩)
  · exact keeps_illegal h

theorem emitSymbol_keeps (b : Byte) {x : Stream} (hk : x.snk.Good) :
    (emitSymbol b x).Ends (fun _ y => y.src = x.src ∧ y.snk.Good) (fun k y => y.src = x.src ∧ y.snk.Good ∧ k = .ioError) := by
  rw [emitSymbol, ends_bind, ends_within]
  exact (sinkWrite_good b hk).mono (fun _ _ y => ⟨rfl, y⟩) (fun _ _ y => ⟨rfl, y.1, y.2⟩)

theorem walkBit_keeps (t : Tree) (b : Bool) {x : Stream} (hk : x.snk.Good) :
    (walkBit t b x).Ends (fun _ y => y.src = x.src ∧ y.snk.Good) (fun k y => y.src = x.src ∧ y.snk.Good ∧ k = .ioError) := by
  unfold walkBit
  split
  · exact emitSymbol_keeps _ hk
  · dsimp only
    generalize (if b = true then (t.node (x.cur.getD t.root)).right else (t.node (x.cur.getD t.root)).left) = next
    split
    · rw [ends_bind]
      exact (emitSymbol_keeps _ (x := { x with cur := some next }) hk).mono (fun _ _ y => y) (fun _ _ y => y)
    · exact ⟨rfl, hk⟩

theorem walkLoop_keeps (t : Tree) (total : Wide) (n : Nat) {x : Stream} (h : x.src.Good) (hv : x.src.rdValid = true)
    (hk : x.snk.Good) :
    (walkLoop t total n x).Ends (fun _ y => y.src.Good ∧ y.snk.Good)
      (fun k y => y.src.Bad ∧ y.snk.Good ∧ k ≠ .corruptHeader) := by
  induction n generalizing x with
  | zero =>
    rw [walkLoop]
    split
    · exact ⟨h, hk⟩
    · exact ⟨h.bad, hk, by decide⟩
  | succ n ih =>
    rw [walkLoop]
    split
    · exact ⟨h, hk⟩
    · simp only [ends_bind, ends_within]
      refine (readBit_keeps h hv).mono (fun b q y => ?_) (fun k q y => ⟨y.1, hk, ne_corrupt y.2⟩)
      refine (walkBit_keeps t b (x := { x with src := q }) hk).mono (fun _ z w => ?_) (fun k z w => ?_)
      · exact ih (by rw [w.1]; exact y.1) (by rw [w.1]; exact y.2) w.2
      · exact ⟨by rw [w.1]; exact y.1.bad, w.2.1, by rw [w.2.2]; decide⟩

theorem mid_symCnt {s : State} (h : s.Mid) (v : Wide) : ({ s with symCnt := v } : State).Mid :=
  ⟨h.src, h.snk, treeOk_of h.tree rfl rfl rfl rfl, h.pq⟩

theorem bodyDecPayload_keeps {s : State} (h : s.Mid) : Keeps (bodyDecPayload s) s := by
  have h0 := mid_symCnt h 0
  unfold Keeps bodyDecPayload
  split
  · exact ⟨h0, rfl⟩
  · split
    · rename_i hv
      have hv' : s.src.rdValid = true := by simp at hv; exact hv.1
      rw [decodeWalk, ends_within]
      refine (walkLoop_keeps s.tree s.freq.total s.src.bitsAhead
        (x := { ({ s with symCnt := 0 } : State).stream with cur := some s.tree.root }) h.src hv' h.snk).mono
        (fun _ y z => ⟨?_, rfl⟩) (fun k y z => ⟨?_, rfl, z.2.2⟩)
      · exact ⟨z.1, z.2, treeOk_of h.tree rfl rfl rfl rfl, h.pq⟩
      · exact ⟨z.1, z.2.1, treeOk_of h.tree rfl rfl rfl rfl, h.pq⟩
    · exact keeps_illegal h

theorem mid_fresh {s : State} (h : s.Mid) : s.freshSession.Mid :=
  ⟨h.src, ⟨⟨by simp [Sink.Clean], Nat.zero_le _, fun a ha => absurd ha (by simp)⟩, h.snk.buf⟩,
    treeOk_of h.tree rfl rfl rfl rfl, h.pq⟩

theorem encodeChecks_keeps {s : State} (h : s.Mid) : Keeps (encodeChecks s) s := by
  rw [encodeChecks]
  split
  · exact ⟨h.err, rfl, by decide⟩
  · split
    · exact ⟨h.err, rfl, by decide⟩
    · exact ⟨h, rfl⟩

theorem Keeps.stage {s s' : State} {r : Res State Unit} (h : Keeps r s') (e : s'.status = s.status) : Keeps r s :=
  Res.Ends.mono h (fun _ _ x => ⟨x.1, x.2.trans e⟩) (fun _ _ x => ⟨x.1, x.2.1.trans e, x.2.2⟩)

theorem bodyEncode_keeps {s : State} (h : s.Mid) : Keeps (bodyEncode s) s := by
  rw [bodyEncode]
  refine (bodyCount_keeps (mid_stage (mid_fresh h) _)).bind rfl fun s1 h1 => ?_
  refine (encodeChecks_keeps (mid_stage h1 _)).bind rfl fun s2 h2 => ?_
  refine (bodyHdrWrite_keeps (mid_stage h2 _)).bind rfl fun s3 h3 => ?_
  refine Keeps.bind (s1 := s3.enterStage 0x0A) ?_ rfl fun s4 h4 => ?_
  · exact (bodyBuild_keeps (mid_stage h3 _)).mono (fun _ _ x => ⟨x.1, x.2.1⟩) (fun _ _ x => x)
  refine (bodyGencodes_keeps (mid_stage h4 _)).bind rfl fun s5 h5 => ?_
  refine (bodyEncPayload_keeps (mid_stage h5 _)).bind rfl fun s6 h6 => ?_
  exact (bodyFlush_keeps (mid_stage h6 _)).stage rfl

theorem bodyDecode_keeps {s : State} (h : s.Mid) : Keeps (bodyDecode s) s := by
  rw [bodyDecode]
  refine Keeps.bind (s1 := s.freshSession.enterStage 0x04) ?_ rfl fun s1 h1 => ?_
  · exact (bodyRdInit_keeps (mid_stage (mid_fresh h) _)).mono (fun _ _ x => ⟨x.1, x.2.1⟩) (fun _ _ x => x)
  refine Keeps.bind (s1 := s1.enterStage 0x09) ?_ rfl fun s2 h2 => ?_
  · exact (bodyHdrRead_keeps (mid_stage h1 _)).mono (fun _ _ x => ⟨x.1, x.2.1⟩) (fun _ _ x => x)
  split
  · exact ⟨h2, rfl⟩
  · refine Keeps.bind (s1 := s2.enterStage 0x0A) ?_ rfl fun s3 h3 => ?_
    · exact (bodyBuild_keeps (mid_stage h2 _)).mono (fun _ _ x => ⟨x.1, x.2.1⟩) (fun _ _ x => x)
    exact (bodyDecPayload_keeps (mid_stage h3 _)).stage rfl

end Sys2Proof.Machine
end

