-- ==== Sys2Proof/Laws/PerInstr.lean ====
section
/-! SUPPORT. Laws/PerInstr.lean: the statement family OpField, one lemma per command: the word of a command holds its OP in bits
7:0, its count in bits 13:8 and zeros above (30_encoding.md R91, R94). -/

/-- The fields of a command's word (R91), and its OP in the map of R94. -/
def Sys2Proof.Laws.OpField.Statement (i : Sys2Proof.Instr) : Prop :=
  Sys2Proof.wordOp (Sys2Proof.encode i) = i.op ∧ Sys2Proof.wordCount (Sys2Proof.encode i) = i.countField ∧
    (Sys2Proof.encode i).toNat < 2 ^ 14 ∧ 0x01 ≤ i.op.toNat ∧ i.op.toNat ≤ 0x0F

namespace Sys2Proof.Laws.OpField

theorem clear : Statement .clear := by unfold Statement; decide
theorem wrBits (n : BitVec 6) : Statement (.wrBits n) := by unfold Statement; revert n; decide
theorem flush : Statement .flush := by unfold Statement; decide
theorem rdInit : Statement .rdInit := by unfold Statement; decide
theorem rdBit : Statement .rdBit := by unfold Statement; decide
theorem rdBits (n : BitVec 6) : Statement (.rdBits n) := by unfold Statement; revert n; decide
theorem count : Statement .count := by unfold Statement; decide
theorem hdrWrite : Statement .hdrWrite := by unfold Statement; decide
theorem hdrRead : Statement .hdrRead := by unfold Statement; decide
theorem build : Statement .build := by unfold Statement; decide
theorem gencodes : Statement .gencodes := by unfold Statement; decide
theorem encPayload : Statement .encPayload := by unfold Statement; decide
theorem decPayload : Statement .decPayload := by unfold Statement; decide
theorem encode : Statement .encode := by unfold Statement; decide
theorem decode : Statement .decode := by unfold Statement; decide

end Sys2Proof.Laws.OpField
end

