-- ==== Sys2Proof/Tests/Slice0.lean ====
section
/-! SUPPORT. Tests/Slice0.lean: the WellFormed smoke test; words written out bit by bit from 30_encoding.md R91 and R94 and what
they decode to; one or two vectors of 95_test_vectors.md for each command (the vector's id stands in the comment; the expected
values are the spec's); and, for every statement with hypotheses, a state and operands that meet them all. -/

namespace Sys2Proof.Machine

-- one theorem after another: many kernel evaluations at once take more threads than a small machine has
set_option Elab.async false

-- Helpers

/-- A block just out of reset with the bytes in IN and IN_LEN set (R100 INPUT). -/
def inputState (bs : List Byte) : State :=
  { State.reset with
    src := { Source.reset with inBuf := Memory.writeAll [] 0 bs, inLen := BitVec.ofNat 32 bs.length } }

/-- The next state, where there is one. -/
def afterwards (o : Host.Outcome State Fault Refusal) : State :=
  match o with
  | .next t => t
  | _ => State.reset

def goesOn (o : Host.Outcome State Fault Refusal) : Bool :=
  match o with
  | .next _ => true
  | _ => false

theorem goesOn_next {o : Host.Outcome State Fault Refusal} (h : goesOn o = true) : o = .next (afterwards o) := by
  cases o with
  | next t => rfl
  | _ => cases h

/-- The state after the host writes a word to CMD. -/
def ran (w : Word) (s : State) : State := afterwards (step (s.issueWrite 0x004 w))

/-- The table with the given entries, all others 0. -/
def table (es : List (Byte × Word)) : FreqTable := es.foldl (fun f e => f.setEntry e.1 e.2) FreqTable.zero

/-- A block just out of reset with a table of the host's (R203). -/
def tableState (es : List (Byte × Word)) : State := { State.reset with freq := table es }

/-- The bytes of OUT from index `a` on. -/
def outBytes (s : State) (a n : Nat) : List (Option Byte) := (List.range n).map fun j => s.snk.outBuf.read (a + j)

-- WellFormed

theorem test_wellFormed_refuses_wr_bits_33 : (Instr.wrBits 33).wellFormed = false := by decide
theorem test_wellFormed_refuses_rd_bits_63 : (Instr.rdBits 63).wellFormed = false := by decide
theorem test_wellFormed_admits_32 : (Instr.wrBits 32).wellFormed = true ∧ (Instr.rdBits 32).wellFormed = true := by decide

-- Decoding: ignored bits 31:14, N in 13:8, OP in 7:0 (R91)

theorem test_decode_clear : decode 0b00000000000000000000000000000001#32 = .command .clear := by decide
theorem test_decode_wr_bits : decode 0b00000000000000000000010100000010#32 = .command (.wrBits 5) := by decide
theorem test_decode_wr_bits_33 : decode 0b00000000000000000010000100000010#32 = .illegal (.countTooLarge 33) := by decide
theorem test_decode_flush : decode 0b00000000000000000000000000000011#32 = .command .flush := by decide
theorem test_decode_rd_init : decode 0b00000000000000000000000000000100#32 = .command .rdInit := by decide
theorem test_decode_rd_bit : decode 0b00000000000000000000000000000101#32 = .command .rdBit := by decide
theorem test_decode_rd_bits : decode 0b00000000000000000010000000000110#32 = .command (.rdBits 32) := by decide
theorem test_decode_count : decode 0b00000000000000000000000000000111#32 = .command .count := by decide
theorem test_decode_hdr_write : decode 0b00000000000000000000000000001000#32 = .command .hdrWrite := by decide
theorem test_decode_hdr_read : decode 0b00000000000000000000000000001001#32 = .command .hdrRead := by decide
theorem test_decode_build : decode 0b00000000000000000000000000001010#32 = .command .build := by decide
theorem test_decode_gencodes : decode 0b00000000000000000000000000001011#32 = .command .gencodes := by decide
theorem test_decode_enc_payload : decode 0b00000000000000000000000000001100#32 = .command .encPayload := by decide
theorem test_decode_dec_payload : decode 0b00000000000000000000000000001101#32 = .command .decPayload := by decide
theorem test_decode_encode : decode 0b00000000000000000000000000001110#32 = .command .encode := by decide
theorem test_decode_decode : decode 0b00000000000000000000000000001111#32 = .command .decode := by decide
theorem test_decode_ignores_unused_bits : decode 0b10110000000000000111111100001111#32 = .command .decode := by decide
theorem test_decode_reserved : decode 0b00000000000000000000000000010000#32 = .illegal (.reservedOp 0x10) := by decide
theorem test_decodeTableWord : decodeTableWord 8 0x0E = some .encode ∧ decodeTableWord 14 0x2002 = some (.wrBits 32) := by decide

-- Vectors of 95_test_vectors.md

/-- E9, X1, X2, R202's example. -/
theorem test_clear_leaves_the_error_state :
    readReg (ran 0x0E State.reset) .status = 0x000E0E24 ∧
    readReg (ran 0x07 (ran 0x0E State.reset)) .status = 0x000E0E2C ∧
    readReg (ran 0x01 (ran 0x07 (ran 0x0E State.reset))) .status = 0x00000002 := by decide +kernel

/-- B1, B2. -/
theorem test_wr_bits :
    readReg (ran 0x302 { State.reset with value := 0b101 }) .wstate = 0x305 ∧
    outBytes (ran 0x502 { ran 0x302 { State.reset with value := 0b101 } with value := 0b10011 }) 0 1 = [some 0xB3] := by
  decide +kernel

/-- B10: the byte is discarded. -/
theorem test_wr_bits_full_sink :
    readReg (ran 0x802 { State.reset with value := 0xAB, snk := { Sink.reset with outCap := 0 } }) .status = 0x00020214 ∧
    readReg (ran 0x802 { State.reset with value := 0xAB, snk := { Sink.reset with outCap := 0 } }) .wstate = 0 := by
  decide +kernel

/-- R117's example. -/
theorem test_flush :
    outBytes (ran 0x03 { State.reset with snk := { Sink.reset with wacc := 0b101, wcnt := 3 } }) 0 1 = [some 0xA0] := by
  decide +kernel

/-- B13, B19. -/
theorem test_rd_init :
    readReg (ran 0x04 (inputState [0xB3])) .rstate = 0x28B3 ∧ readReg (ran 0x04 State.reset) .rstate = 0x3000 := by
  decide +kernel

/-- B26: the refill after the eighth bit fails. -/
theorem test_rd_bit_failed_refill :
    let s := ran 0x706 (ran 0x04 { inputState [0xB3, 0x12] with
      src := { (inputState [0xB3, 0x12]).src with faults := [false, true] } })
    readReg (ran 0x05 s) .status = 0x00050514 ∧ readReg (ran 0x05 s) .value = 0x59 ∧
      readReg (ran 0x05 s) .rstate = 0x2000 := by
  decide +kernel

/-- B21. -/
theorem test_rd_bits :
    readReg (ran 0x2006 (ran 0x04 (inputState [0x12, 0x34, 0x56, 0x78]))) .value = 0x12345678 ∧
    readReg (ran 0x2006 (ran 0x04 (inputState [0x12, 0x34, 0x56, 0x78]))) .rstate = 0x3000 := by decide +kernel

/-- H3. -/
theorem test_count_stops_at_a_fault :
    let s := ran 0x07 { inputState [0x41, 0x42, 0x43] with
      src := { (inputState [0x41, 0x42, 0x43]).src with faults := [false, false, true] } }
    readReg s .status = 0x00070714 ∧ readReg s .srcPosLo = 2 ∧ readReg s (.freq 0x42) = 1 ∧ readReg s (.freq 0x43) = 0 := by
  decide +kernel

/-- H4. -/
theorem test_hdr_write :
    let s := ran 0x08 (tableState [(0, 256), (1, 65536), (2, 1), (255, 0xFFFFFFFE)])
    readReg s .outCountLo = 75 ∧ outBytes s 0 2 = [some 0xB4, some 0x00] ∧
      outBytes s 63 12 = [0x03, 0x01, 0x00, 0x00, 0x01, 0x00, 0x00, 0x01, 0xFF, 0xFF, 0xFF, 0xFE].map some := by
  decide +kernel

/-- H9: a header that is not canonical. -/
theorem test_hdr_read :
    let s := ran 0x09 (ran 0x04 (inputState (0x80 :: List.replicate 63 0 ++ [0x00, 0x05])))
    readReg s .status = 0x2 ∧ readReg s (.freq 0) = 5 ∧ readReg s .srcPosLo = 66 := by decide +kernel

/-- T3: the tie goes to the earlier sequence number. -/
theorem test_build :
    let s := ran 0x0A (tableState [(0x41, 1), (0x42, 1), (0x43, 1)])
    readReg s .tree = 0x00040005 ∧ readReg { s with nodeSel := 3 } .nodeInfo = 0x00000200 ∧
      readReg { s with nodeSel := 4 } .nodeInfo = 0x00000602 := by decide +kernel

/-- T1. -/
theorem test_build_empty : readReg (ran 0x0A State.reset) .status = 0x000A0A24 := by decide +kernel

/-- K2. -/
theorem test_gencodes :
    let s := ran 0x0B (ran 0x0A (tableState [(0x41, 1), (0x42, 1), (0x43, 1)]))
    s.codes.code 0x41 = [true, false] ∧ s.codes.code 0x42 = [true, true] ∧ s.codes.code 0x43 = [false] := by
  decide +kernel

/-- K6: a tree of one leaf. -/
theorem test_gencodes_single : (ran 0x0B (ran 0x0A (tableState [(5, 7)]))).codes.code 5 = [false] := by decide +kernel

/-- E2. -/
theorem test_enc_payload_uncoded :
    let s := ran 0x0B (ran 0x0A (ran 0x07 (inputState [0x41, 0x42])))
    let t := ran 0x0C { s with src := { s.src with inBuf := Memory.writeAll [] 0 [0x41, 0x43] } }
    readReg t .status = 0x000C0C74 ∧ readReg t .srcPosLo = 2 ∧ readReg t .symCntLo = 1 ∧ readReg t .wstate = 0x100 := by
  decide +kernel

/-- D7, D8; R228: the IllegalCommand changes nothing but STATUS and CMD. -/
theorem test_dec_payload_checks :
    readReg (ran 0x0D State.reset) .status = 0x2 ∧
    readReg (ran 0x0D (tableState [(0x41, 1)])) .status = 0x000D0D64 ∧
    readReg (ran 0x0D { tableState [(0x41, 1)] with symCnt := 7 }) .symCntLo = 7 := by decide +kernel

/-- E10. -/
theorem test_encode :
    let s := ran 0x0E (inputState [0x41, 0x42])
    readReg s .outCountLo = 67 ∧ outBytes s 15 3 = [some 0x00, some 0x14, some 0x00] ∧
      outBytes s 63 4 = [some 0x00, some 0x01, some 0x01, some 0x40] ∧ readReg s .tree = 0x00020003 := by decide +kernel

/-- S2's "AAA" stream, and D5: the bits of a one-leaf tree are ignored. -/
theorem test_decode_single_leaf :
    let s := ran 0x0F (inputState (List.replicate 16 0 ++ [0x10] ++ List.replicate 47 0 ++ [0x03, 0xFF]))
    readReg s .status = 0x2 ∧ outBytes s 0 4 = [some 0x41, some 0x41, some 0x41, none] ∧ readReg s .rstate = 0x25F8 := by
  decide +kernel

/-- E10's stream decodes to "AB". -/
theorem test_decode :
    let s := ran 0x0F (inputState (List.replicate 16 0 ++ [0x14] ++ List.replicate 47 0 ++ [0x01, 0x01, 0x40]))
    readReg s .status = 0x2 ∧ outBytes s 0 3 = [some 0x41, some 0x42, none] ∧ readReg s .symCntLo = 2 := by decide +kernel

/-- A command placed by withFetchWord runs in the very next step from reset. -/
theorem test_withFetchWord :
    readReg (afterwards (step (State.reset.withFetchWord 32 0x07))) .cmd = 0x07 ∧
    readReg (afterwards (step (State.reset.withFetchWord 8 0x01))) .status = 0x2 := by decide +kernel

-- Witnesses: states and operands that meet the hypotheses of the statements, one for each clause

/-- Two symbols of frequency 1. -/
def two : FreqTable := table [(0, 1), (1, 1)]

/-- The codes of their tree. -/
def twoCodes : CodeMap := (Tree.build two).genCodes.getD CodeMap.empty

theorem two_leaves : two.leaves = 2 := by decide +kernel

theorem two_entry (b : Byte) : two.entry b = if b = 1 then 1 else if b = 0 then 1 else 0 := by simp [two, table]

theorem two_counts : ∀ b : Byte, (two.entry b).toNat = [(0 : Byte), 1].count b := by
  simp only [two_entry]; decide +kernel

theorem two_small : ∀ b : Byte, (two.entry b).toNat ≠ 2 ^ 32 - 1 := by simp only [two_entry]; decide +kernel

theorem two_codes : (Tree.build two).genCodes = some twoCodes := by
  obtain ⟨c, h⟩ := genCodes_build (f := two) (by rw [two_leaves]; decide)
  rw [twoCodes, h]; rfl

/-- One symbol. -/
def one : FreqTable := table [(0, 3)]

theorem two_code : twoCodes.code 0 = [false] ∧ twoCodes.code 1 = [true] := by decide +kernel

theorem one_leaf : one.leaves = 1 := by decide +kernel

/-- A reader with all eight bits of a byte, nothing unfetched. -/
def byteReader (b : Byte) : Source := { Source.reset with rbuf := b, rcnt := 8, rdValid := true }

/-- A block with the tree of a table built. -/
def builtState (f : FreqTable) : State := { State.reset with freq := f, tree := Tree.build f }

theorem built_ok {f : FreqTable} (h : 1 ≤ f.leaves) : (builtState f).tree.treeValid = true ∧ (builtState f).TreeOk := by
  obtain ⟨e, m, -, -, -, hv, -, -⟩ := build_spec h
  exact ⟨hv, fun _ => ⟨(nonzero_iff f).2 h, rfl⟩, fun x => (nomatch x), m.grown.unused⟩

theorem noFault_nil {q : Source} (h : q.faults = []) : q.NoFault := fun _ hx => by rw [h] at hx; cases hx

theorem ready_reset (m : Nat) (h : m ≤ 2 ^ 20) : Sink.reset.Ready m := by
  refine ⟨?_, ?_, fun _ hx => ?_⟩
  · change 0 + m ≤ 2 ^ 20; omega
  · change 0 + m < 2 ^ 64; omega
  · simp [Sink.reset] at hx

theorem holds_of {k : Sink} {a : Nat} {xs : List Byte} (h1 : k.outCount.toNat = a + xs.length)
    (h2 : k.outBuf = Memory.writeAll [] a xs) : k.Holds a xs :=
  ⟨h1, fun j hj => by rw [h2, read_writeAll, if_pos (by omega)]; simp [hj]⟩

theorem witness_DecodeOfEncodeIsTheCommand : (Instr.wrBits 32).wellFormed = true ∧ (Instr.rdBits 0).wellFormed = true := by
  decide

theorem witness_StepRunsTheDecodedCommand :
    (State.reset.status.busy = false ∧ (State.reset.status.err = false ∨ wordOp 0x2006 = 0x01#8) ∧
      decode 0x2006 = .command (.rdBits 32)) ∧
    ∃ s : State, s.status.err = true ∧ s.status.busy = false ∧ wordOp 0x01 = 0x01#8 ∧ decode 0x01 = .command .clear :=
  ⟨by decide, { State.reset with status := { Status.reset with err := true } }, by decide⟩

theorem witness_IllegalWordAborts :
    State.reset.Idle ∧ State.reset.status.err = false ∧ wordOp 0x00 = 0x00#8 ∧ 0x10 ≤ (wordOp 0x10).toNat ∧
      0x10 ≤ (wordOp 0xFF).toNat ∧ wordOp 0x2102 = 0x02#8 ∧ 32 < (wordCount 0x2102).toNat ∧ wordOp 0x3F06 = 0x06#8 ∧
      32 < (wordCount 0x3F06).toNat := ⟨⟨rfl, rfl, rfl, rfl, rfl⟩, by decide⟩

theorem witness_RejectedCmdWriteSetsOnlyRej :
    (∃ s : State, s.status.busy = true) ∧ ∃ s : State, s.status.err = true ∧ wordOp 0x00 ≠ 0x01#8 :=
  ⟨⟨{ State.reset with status := { Status.reset with busy := true } }, rfl⟩,
    { State.reset with status := { Status.reset with err := true } }, by decide⟩

theorem witness_OnlyClearAndResetLeaveTheErrorState :
    ∃ s : State, s.status.busy = false ∧ s.status.err = true ∧
      (∃ t, step (s.issue (.memWrite 0x004 4 0x07)) = .next t) ∧ wordOp 0x07 ≠ 0x01#8 ∧
      (∃ t, step (s.issue .reset) = .next t) ∧ (∃ t, step (s.issue (.memWrite 0x004 4 0x01)) = .next t) ∧
      wordOp 0x01 = 0x01#8 :=
  ⟨{ State.reset with status := { Status.reset with err := true } }, rfl, rfl, ⟨_, rfl⟩, by decide, ⟨_, rfl⟩, ⟨_, rfl⟩,
    by decide⟩

theorem witness_EveryCommandCompletesOrAbortsWithItsKinds :
    ∃ s : State, s.stage = some (Instr.op .build) ∧ (∃ t, exec .build s = .next t) ∧
      (∃ s' : State, s'.stage = some (Instr.op .clear) ∧ ∃ t, exec .clear s' = .next t) ∧
      (∃ s' : State, s'.stage = some (Instr.op .encode) ∧ ∃ t, exec .encode s' = .next t ∧ t.status.errStage = 0x08) ∧
      ∃ s' : State, s'.stage = some (Instr.op .decode) ∧ ∃ t, exec .decode s' = .next t ∧ t.status.errStage = 0x09 :=
  ⟨{ State.reset with stage := some 0x0A }, rfl, ⟨_, goesOn_next (by decide +kernel)⟩,
    ⟨{ State.reset with stage := some 0x01 }, rfl, _, rfl⟩,
    ⟨{ inputState [0, 1] with stage := some 0x0E, snk := { Sink.reset with outCap := 0 } }, rfl, _,
      goesOn_next (by decide +kernel), by decide +kernel⟩,
    { State.reset with stage := some 0x0F }, rfl, _, goesOn_next (by decide +kernel), by decide +kernel⟩

theorem witness_IdleReadReturnsTheRegister : State.reset.status.busy = false := rfl

theorem witness_CodeReadoutShowsTheSelectedCode :
    State.reset.status.busy = false ∧ (State.reset.codes.code State.reset.codeSel).length ≤ 255 ∧
      ∃ s : State, s.status.busy = false ∧ (s.codes.code s.codeSel).length = 255 :=
  ⟨rfl, by decide +kernel,
    { State.reset with codes := CodeMap.empty.setCode 0 (List.replicate 255 true) }, rfl, by decide +kernel⟩

theorem witness_ReservedAndReadOnlyAccesses :
    0x07C % 4 = 0 ∧ 0x07C ≤ 0x07C ∧ 0x07C ≤ 0x3FC ∧ 0x3FC % 4 = 0 ∧ Reg.readOnly .id = true ∧
      Reg.readOnly (.codeW 7) = true ∧ 0x7FC % 4 = 0 ∧ 0x7FC < 0x800 := by decide

theorem witness_AccessesWhileBusy :
    ∃ s : State, s.status.busy = true ∧ Reg.freq 255 ≠ .cmd ∧ Reg.cmd ≠ .id ∧ Reg.cmd ≠ .status :=
  ⟨{ State.reset with status := { Status.reset with busy := true } }, rfl, by decide⟩

theorem witness_IdleWriteStoresTheRegister : State.reset.status.busy = false := rfl

theorem witness_FreqWritesInvalidate :
    (State.reset.status.busy = false ∧ ∃ t, step (State.reset.issueWrite (0x400 + 4 * (255 : Byte).toNat) 7) = .next t) ∧
    (∃ t, exec .clear State.reset = .next t) ∧ (∃ t, exec .count (inputState [0x41]) = .next t) ∧
    ∃ s : State, s.src.rdValid = true ∧ ∃ t, exec .hdrRead s = .next t :=
  ⟨⟨rfl, _, goesOn_next (by decide +kernel)⟩, ⟨_, rfl⟩, ⟨_, goesOn_next (by decide +kernel)⟩,
    { State.reset with src := byteReader 0 }, rfl, _, goesOn_next (by decide +kernel)⟩

theorem witness_AccessesTheModelRefuses :
    (∃ s : State, ¬(4 = 4 ∧ s.host.base ≤ 0x800 ∧ 0x800 < s.host.base + 0x800 ∧ (0x800 - s.host.base) % 4 = 0) ∧
      ¬(2 = 4 ∧ s.host.base ≤ 0 ∧ 0 < s.host.base + 0x800 ∧ (0 - s.host.base) % 4 = 0) ∧
      ¬(4 = 4 ∧ s.host.base ≤ 2 ∧ 2 < s.host.base + 0x800 ∧ (2 - s.host.base) % 4 = 0) ∧
      s.status.busy = false ∧ 2 ^ 32 - 1 < (2 ^ 32 - 1) + [(0 : Byte)].length ∧
      (2 ^ 32 - 2) + [(0 : Byte)].length ≤ 2 ^ 32 - 1) ∧
    0x7FC % 4 = 0 ∧ 0x7FC < 0x800 ∧ ∃ s : State, s.status.busy = true :=
  ⟨⟨State.reset, by decide⟩, by decide, by decide, { State.reset with status := { Status.reset with busy := true } }, rfl⟩

theorem witness_WrBitsAppendsTheField :
    ∃ s : State, (32 : BitVec 6).toNat ≤ 32 ∧ s.snk.Ready ((s.snk.wcnt.toNat + (32 : BitVec 6).toNat) / 8) ∧
      s.snk.outCap = 4 ∧ (0 : BitVec 6).toNat ≤ 32 ∧ s.snk.Ready ((s.snk.wcnt.toNat + (0 : BitVec 6).toNat) / 8) :=
  ⟨{ State.reset with snk := { Sink.reset with outCap := 4 } }, by decide, ⟨by decide, by decide, by decide⟩, rfl, by decide,
    by decide, by decide, by decide⟩

theorem witness_FlushEmitsThePartialByte :
    State.reset.snk.wcnt = 0 ∧ ∃ s : State, s.snk.wcnt = 7 ∧ s.snk.wcnt ≠ 0 ∧ s.snk.Ready 1 :=
  ⟨rfl, { State.reset with snk := { Sink.reset with wcnt := 7, outCap := 1 } }, rfl, by decide, by decide, by decide,
    by decide⟩

/-- A sink of the given capacity, full once it has taken all of it. -/
theorem failsAt_cap (k : Sink) {m : Nat} (hm : m < 2 ^ 64) (hc : k.outCount = 0) (ho : k.outCap = m) (hf : k.faults = []) :
    k.FailsAt m :=
  ⟨⟨by rw [hc, ho]; simp, by rw [hc]; simpa using hm, fun f h => by simp [hf] at h⟩, .inl (by rw [hc, ho]; simp)⟩

/-- WR_BITS at its first byte and at a later one, and FLUSH at a drawn fault; the other commands need the helpers below. -/
theorem witness_AFailedSinkWriteLosesItsByte :
    (∃ s : State, s.snk.FailsAt 0 ∧ (1 : BitVec 6).toNat ≤ 32 ∧ 0 < (s.snk.wcnt.toNat + (1 : BitVec 6).toNat) / 8) ∧
    (∃ s : State, s.snk.FailsAt 3 ∧ (32 : BitVec 6).toNat ≤ 32 ∧ 3 < (s.snk.wcnt.toNat + (32 : BitVec 6).toNat) / 8) ∧
    ∃ s : State, s.snk.FailsAt 0 ∧ s.snk.wcnt ≠ 0 ∧ s.snk.outCount.toNat < s.snk.outCap :=
  ⟨⟨{ State.reset with snk := { Sink.reset with wcnt := 7, outCap := 0 } }, failsAt_cap _ (by decide) rfl rfl rfl, by decide,
      by decide⟩,
    ⟨{ State.reset with snk := { Sink.reset with wcnt := 7, outCap := 3 } }, failsAt_cap _ (by decide) rfl rfl rfl, by decide,
      by decide⟩,
    { State.reset with snk := { Sink.reset with wcnt := 1, outCap := 1, faults := [true] } },
    ⟨⟨by decide, by decide, by decide⟩, .inr rfl⟩, by decide, by decide⟩

theorem witness_RdInitFetchesTheFirstByte :
    State.reset.src.inLen = 0 ∧ ((inputState [0xB3]).src.inLen ≠ 0 ∧ (inputState [0xB3]).src.faults.headD false = false) ∧
      ∃ s : State, s.src.inLen ≠ 0 ∧ s.src.faults.headD false = true :=
  ⟨rfl, by decide, { State.reset with src := { Source.reset with inLen := 1, faults := [true] } }, by decide⟩

theorem witness_RdBitDeliversTheNextBit :
    ∃ s : State, s.src.rdValid = true ∧ s.src.rcnt ≠ 0 ∧ s.src.rcnt.toNat = 8 ∧ s.src.NoFault ∧
      ∃ s' : State, s'.src.rdValid = true ∧ s'.src.rcnt = 1 ∧ s'.src.NoFault :=
  ⟨{ State.reset with src := byteReader 0xB3 }, rfl, by decide, rfl, noFault_nil rfl,
    { State.reset with src := { byteReader 0x80 with rcnt := 1 } }, rfl, rfl, noFault_nil rfl⟩

theorem witness_RdBitsDeliversTheField :
    ∃ s : State, s.src.rdValid = true ∧ s.src.rcnt.toNat ≤ 8 ∧ s.src.NoFault ∧
      (32 : BitVec 6).toNat ≤ 32 ∧ (32 : BitVec 6).toNat = s.src.ahead.length ∧
      ∃ s' : State, s'.src.rdValid = true ∧ s'.src.rcnt = 0 ∧ s'.src.NoFault ∧
        (0 : BitVec 6).toNat ≤ s'.src.ahead.length :=
  ⟨{ State.reset with src := { (inputState [0x12, 0x34, 0x56, 0x78]).src with
      srcPos := 1, rbuf := 0x12, rcnt := 8, rdValid := true } }, rfl, by decide, noFault_nil rfl, by decide, by decide +kernel,
    { State.reset with src := { Source.reset with rdValid := true, reof := true } }, rfl, rfl, noFault_nil rfl, Nat.zero_le _⟩

/-- A reader with one bit left, one more byte to fetch, and a fault drawn for it. -/
def failingReader : Source := { byteReader 0x80 with rcnt := 1, inBuf := [(1, 0)], inLen := 2, srcPos := 1, faults := [true] }

theorem failingReader_fails : failingReader.FailsAt 0 := ⟨by decide, by decide, by decide, by decide, rfl⟩

/-- RD_BIT and RD_BITS; the other commands need the helpers below. -/
theorem witness_AbortedReadsLoseTheirBits :
    ∃ s : State, s.src.rdValid = true ∧ s.src.rcnt.toNat ≤ 8 ∧ s.src.NoFault ∧ (9 : BitVec 6).toNat ≤ 32 ∧
      s.src.ahead.length = 8 ∧ s.src.ahead.length < (9 : BitVec 6).toNat ∧
      (∃ s' : State, s'.src.rdValid = true ∧ s'.src.rcnt = 0) ∧
      (∃ s' : State, s'.src.rdValid = true ∧ s'.src.rcnt.toNat ≤ 8 ∧ s'.src.rcnt = 1 ∧ s'.src.FailsAt 0) ∧
      ∃ s' : State, s'.src.rdValid = true ∧ s'.src.FailsAt 1 ∧ s'.src.bitsTo 1 = (9 : BitVec 6).toNat :=
  ⟨{ State.reset with src := byteReader 0xB3 }, rfl, by decide, noFault_nil rfl, by decide, by decide +kernel,
    by decide +kernel, ⟨{ State.reset with src := { Source.reset with rdValid := true, reof := true } }, rfl, rfl⟩,
    ⟨{ State.reset with src := failingReader }, rfl, by decide, rfl, failingReader_fails⟩,
    { State.reset with src := { failingReader with inLen := 3, faults := [false, true] } }, rfl,
    ⟨by decide, by decide, by decide, by decide, rfl⟩, rfl⟩

theorem witness_PrerequisitesAreChecked :
    State.reset.src.rdValid = false ∧ 32 < (33 : BitVec 6).toNat ∧ State.reset.tree.treeValid = false ∧
      State.reset.codesValid = false ∧
      ∃ s : State, s.freq.sum ≠ 0 ∧ (s.src.rdValid = false ∨ s.tree.treeValid = false) ∧
        ∃ s' : State, s'.freq.sum ≠ 0 ∧ s'.src.rdValid = true ∧ s'.tree.treeValid = false :=
  ⟨rfl, by decide, rfl, rfl, { State.reset with freq := one }, by decide +kernel, .inl rfl,
    { State.reset with freq := one, src := byteReader 0 }, by decide +kernel, rfl, rfl⟩

theorem witness_BitRoundTrip :
    ∃ (fs : List (BitVec 6 × Word)) (s t u r : State), (∀ p ∈ fs, p.1.toNat ≤ 32) ∧ s.status.err = false ∧
      s.snk.wcnt = 0 ∧ s.snk.Ready (((fs.map fun p => p.1.toNat).sum + 7) / 8) ∧ s.writeFields fs = .next t ∧
      exec .flush t = .next u ∧ r.status.err = false ∧ r.src.NoFault ∧
      u.snk.Holds s.snk.outCount.toNat r.src.input :=
  ⟨[(3, 0b101), (5, 0b10011), (0, 7)], State.reset, _, _, inputState [0xB3],
    by intro p hp; simp at hp; rcases hp with rfl | rfl | rfl <;> decide,
    rfl, rfl,
    ready_reset _ (by decide +kernel), goesOn_next (by decide +kernel), goesOn_next (by decide +kernel), rfl, noFault_nil rfl,
    holds_of (by decide +kernel) (by decide +kernel)⟩

theorem witness_CountCountsTheInput :
    (inputState [0x41]).src.NoFault ∧
      ∃ s : State, 1 < s.src.inLen.toNat ∧ (∀ x ∈ s.src.faults.take 1, x = false) ∧ s.src.faults.getD 1 false = true :=
  ⟨noFault_nil rfl, { State.reset with src := { Source.reset with inLen := 2, faults := [false, true] } }, by decide⟩

theorem witness_HdrWriteAppendsTheHeader :
    ∃ s : State, (∀ b : Byte, (s.freq.entry b).toNat ≠ 2 ^ 32 - 1) ∧
      s.snk.Ready ((s.snk.wcnt.toNat + 8 * headerBytes s.freq) / 8) ∧
      ∃ s' : State, ∃ b : Byte, (s'.freq.entry b).toNat = 2 ^ 32 - 1 :=
  ⟨{ State.reset with freq := two }, two_small, ready_reset _ (by decide +kernel),
    tableState [(7, 0xFFFFFFFF)], 7, by decide +kernel⟩

theorem witness_HeaderLengthIsWholeBytes :
    (∀ b : Byte, (FreqTable.zero.entry b).toNat ≠ 2 ^ 32 - 1) ∧ ∀ b : Byte, (two.entry b).toNat ≠ 2 ^ 32 - 1 :=
  ⟨by simp, two_small⟩

/-- The 67 bytes E10's stream has with the symbols 0 and 1. -/
def twoStream : List Byte := 0x50 :: List.replicate 63 0 ++ [1, 1, 0x40]

/-- The classes of its header. -/
def twoClasses : List (BitVec 2) := [1, 1] ++ List.replicate 254 0

theorem twoClasses_fit : ClassesFit twoClasses two := ⟨by decide +kernel, by simp only [two_entry]; decide +kernel⟩

theorem two_stream_bits :
    (inputState twoStream).src.input.flatMap byteBits =
      headerWith twoClasses two ++ payloadBits twoCodes [0, 1] ++ List.replicate 6 false := by decide +kernel

/-- A reader at the start of the header, `n` bytes of `twoStream` long. -/
def headerReader (n : Nat) : Source :=
  { (inputState (twoStream.take n)).src with srcPos := 1, rbuf := 0x50, rcnt := 8, rdValid := true }

theorem witness_HdrReadParsesAHeader :
    (∃ (s : State) (rest : List Bool), s.src.rdValid = true ∧ s.src.rcnt.toNat ≤ 8 ∧ s.src.NoFault ∧
      ClassesFit twoClasses two ∧ s.src.ahead = headerWith twoClasses two ++ rest) ∧
    (∃ s : State, s.src.rdValid = true ∧ s.src.rcnt.toNat ≤ 8 ∧ s.src.NoFault ∧ s.src.ahead.length < 512) ∧
    (∃ (s : State) (rest : List Bool), s.src.rdValid = true ∧ s.src.rcnt.toNat ≤ 8 ∧ s.src.NoFault ∧
      ClassesFit twoClasses two ∧ headerWith twoClasses two = s.src.ahead ++ rest ∧ rest ≠ [] ∧
      valueEnd twoClasses 0 ≤ s.src.ahead.length ∧ s.src.ahead.length < valueEnd twoClasses 1) ∧
    ∃ (s : State) (rest : List Bool), s.src.NoFault ∧ ClassesFit twoClasses two ∧
      headerWith twoClasses two = s.src.input.flatMap byteBits ++ rest ∧ rest ≠ [] ∧
      valueEnd twoClasses 0 ≤ 8 * s.src.inLen.toNat :=
  ⟨⟨{ State.reset with src := headerReader 67 }, [false, true] ++ List.replicate 6 false, rfl, by decide, noFault_nil rfl,
      twoClasses_fit, by decide +kernel⟩,
    ⟨{ State.reset with src := byteReader 0 }, rfl, by decide, noFault_nil rfl, by decide +kernel⟩,
    ⟨{ State.reset with src := headerReader 65 }, byteBits 1, rfl, by decide, noFault_nil rfl, twoClasses_fit,
      by decide +kernel, by decide, by decide +kernel, by decide +kernel⟩,
    inputState (twoStream.take 65), byteBits 1, noFault_nil rfl, twoClasses_fit, by decide +kernel, by decide,
    by decide +kernel⟩

theorem witness_HeaderRoundTrip :
    ∃ s t u r : State, (∀ b : Byte, (s.freq.entry b).toNat ≠ 2 ^ 32 - 1) ∧ s.status.err = false ∧ s.snk.wcnt = 0 ∧
      s.snk.Ready (headerBytes s.freq) ∧ exec .hdrWrite s = .next t ∧ exec .flush t = .next u ∧ r.status.err = false ∧
      r.src.NoFault ∧ u.snk.Holds s.snk.outCount.toNat r.src.input :=
  ⟨{ State.reset with freq := two }, _, _, inputState (twoStream.take 66), two_small, rfl, rfl,
    ready_reset _ (by decide +kernel), goesOn_next (by decide +kernel), goesOn_next (by decide +kernel), rfl, noFault_nil rfl,
    holds_of (by decide +kernel) (by decide +kernel)⟩

theorem witness_BuildMakesTheTreeOfFreq :
    (∃ b : Byte, (tableState [(255, 1)]).freq.entry b ≠ 0) ∧ ∀ b : Byte, State.reset.freq.entry b = 0 :=
  ⟨⟨255, by decide +kernel⟩, entry_zero⟩

/-- Every symbol once (S5). -/
def allOnce : FreqTable := Vector.replicate 256 1

theorem all_leaves : allOnce.leaves = 256 := by decide +kernel

theorem witness_BuiltTreeHasTheStatedShape : one.leaves = 1 ∧ 2 ≤ two.leaves ∧ allOnce.leaves = 256 :=
  ⟨one_leaf, by rw [two_leaves], all_leaves⟩

theorem witness_BuiltLeavesAreTheSymbolsInOrder :
    1 ≤ two.leaves ∧ two.entry 1 ≠ 0 ∧ (Tree.build two).nNodes.toNat ≤ (511 : NodeIx).toNat := by decide +kernel

theorem witness_EachMergeTakesTheTwoLeast :
    1 ≤ two.leaves ∧ two.leaves ≤ (2 : NodeIx).toNat ∧ (2 : NodeIx).toNat < (Tree.build two).nNodes.toNat := by
  decide +kernel

theorem witness_GencodesMakesTheCodes :
    ((builtState one).tree.treeValid = true ∧ (builtState one).TreeOk ∧ (builtState one).freq.leaves = 1) ∧
      (builtState two).tree.treeValid = true ∧ (builtState two).TreeOk ∧ (builtState two).freq.leaves = 2 :=
  ⟨⟨(built_ok (by rw [one_leaf])).1, (built_ok (by rw [one_leaf])).2, one_leaf⟩,
    (built_ok (by rw [two_leaves]; decide)).1, (built_ok (by rw [two_leaves]; decide)).2, two_leaves⟩

theorem witness_CodesArePrefixFree :
    (Tree.build two).genCodes = some twoCodes ∧ (0 : Byte) ≠ 1 ∧ two.entry 0 ≠ 0 ∧ two.entry 1 ≠ 0 :=
  ⟨two_codes, by decide, by decide +kernel, by decide +kernel⟩

theorem witness_CodesCoverAndFit : 1 ≤ two.leaves ∧ (Tree.build two).genCodes = some twoCodes :=
  ⟨by rw [two_leaves]; decide, two_codes⟩

theorem witness_CodesAreComplete :
    (1 ≤ two.leaves ∧ (Tree.build two).genCodes = some twoCodes) ∧
      one.leaves = 1 ∧ ∃ c, (Tree.build one).genCodes = some c :=
  ⟨⟨by rw [two_leaves]; decide, two_codes⟩, one_leaf, genCodes_build (by rw [one_leaf])⟩

/-- A block with codes for the symbols 0 and 1. -/
def codedState (bs : List Byte) : State :=
  { builtState two with codes := twoCodes, codesValid := true, src := (inputState bs).src }

theorem witness_EncPayloadAppendsTheCodes :
    ∃ s : State, s.codesValid = true ∧ s.src.NoFault ∧ (∀ b ∈ s.src.input, s.codes.code b ≠ []) ∧ s.src.input = [0, 1] ∧
      s.snk.Ready ((s.snk.wcnt.toNat + (payloadBits s.codes s.src.input).length) / 8) :=
  ⟨codedState [0, 1], rfl, noFault_nil rfl, by decide +kernel, by decide +kernel, ready_reset _ (by decide +kernel)⟩

theorem witness_AnUncodedByteAborts :
    ∃ s : State, s.codesValid = true ∧ s.src.NoFault ∧ s.src.input = [1] ++ 2 :: [0] ∧
      (∀ x ∈ [(1 : Byte)], s.codes.code x ≠ []) ∧ s.codes.code 2 = [] ∧
      s.snk.Ready ((s.snk.wcnt.toNat + (payloadBits s.codes [1]).length) / 8) :=
  ⟨codedState [1, 2, 0], rfl, noFault_nil rfl, by decide +kernel, by decide +kernel, by decide +kernel,
    ready_reset _ (by decide +kernel)⟩

theorem two_input : (inputState [0, 1]).src.input = [0, 1] := by decide +kernel

theorem two_payload : payloadLength two twoCodes = 2 := by
  rw [← payloadBits_length two_counts]; decide +kernel

theorem witness_EncodeWritesHeaderPayloadAndPad :
    ∃ s : State, s.src.NoFault ∧ two.Counts s.src.input ∧ s.src.inLen ≠ 0 ∧
      (∀ b : Byte, (two.entry b).toNat ≠ 2 ^ 32 - 1) ∧ (Tree.build two).genCodes = some twoCodes ∧
      s.snk.fresh.Ready (headerBytes two + (payloadLength two twoCodes + 7) / 8) :=
  ⟨inputState [0, 1], noFault_nil rfl, two_input ▸ two_counts, by decide, two_small, two_codes,
    ready_reset _ (by rw [two_payload]; decide +kernel)⟩

theorem witness_EncodeChecksBeforeWriting :
    State.reset.src.NoFault ∧ FreqTable.zero.Counts State.reset.src.input ∧ State.reset.src.inLen = 0 :=
  ⟨noFault_nil rfl, fun b => by rw [entry_zero]; rfl, rfl⟩

/-- A block with the tree of `two`, its reader at the given byte. -/
def walkState (b : Byte) : State := { builtState two with src := byteReader b }

theorem walk_ok (b : Byte) : (walkState b).tree.treeValid = true ∧ (walkState b).TreeOk :=
  have h := built_ok (f := two) (by rw [two_leaves]; decide)
  ⟨h.1, h.2.tree, h.2.codes, h.2.unused⟩

theorem witness_DecPayloadEmitsTheSymbols :
    ∃ (s : State) (rest : List Bool), s.src.rdValid = true ∧ s.src.rcnt.toNat ≤ 8 ∧ s.src.NoFault ∧
      s.tree.treeValid = true ∧ s.TreeOk ∧ s.tree.genCodes = some twoCodes ∧ (∀ b ∈ [1, 1], s.freq.entry b ≠ 0) ∧
      [(1 : Byte), 1].length = s.freq.sum ∧ s.src.ahead = payloadBits twoCodes [1, 1] ++ rest ∧
      s.snk.Ready [(1 : Byte), 1].length :=
  ⟨walkState 0xC0, List.replicate 6 false, rfl, by decide, noFault_nil rfl, (walk_ok _).1, (walk_ok _).2, two_codes,
    by decide +kernel, by decide +kernel, by decide +kernel, ready_reset _ (by decide +kernel)⟩

theorem witness_ASingleLeafTakesAnyBit :
    ∃ s : State, s.src.rdValid = true ∧ s.src.rcnt.toNat ≤ 8 ∧ s.src.NoFault ∧ s.tree.treeValid = true ∧ s.TreeOk ∧
      s.freq.leaves = 1 ∧ s.freq.entry 0 ≠ 0 ∧ s.freq.sum ≤ s.src.ahead.length ∧ s.snk.Ready s.freq.sum := by
  have h := built_ok (f := one) (by rw [one_leaf])
  exact ⟨{ builtState one with src := { byteReader 0xFF with rcnt := 3 } }, rfl, by decide, noFault_nil rfl, h.1,
    ⟨h.2.tree, h.2.codes, h.2.unused⟩, one_leaf, by decide +kernel, by decide +kernel, ready_reset _ (by decide +kernel)⟩

theorem two_coded {b : Byte} (h : two.entry b ≠ 0) : ¬twoCodes.code b <+: [] := by
  rw [two_entry] at h
  by_cases h1 : b = 1
  · rw [h1, two_code.2]; decide
  · by_cases h0 : b = 0
    · rw [h0, two_code.1]; decide
    · rw [if_neg h1, if_neg h0] at h; exact absurd rfl h

/-- One symbol nine times (S4, byte 64 = 09). -/
def nine : FreqTable := table [(0, 9)]

theorem nine_leaf : nine.leaves = 1 := by decide +kernel

theorem nineClasses_fit : ClassesFit (1 :: List.replicate 255 0) nine :=
  ⟨by decide +kernel, by simp only [nine, table, List.foldl, entry_setEntry, entry_zero]; decide +kernel⟩

/-- DEC_PAYLOAD of a tree of two leaves and of one, and DECODE of the same. -/
theorem witness_AShortPayloadIsTruncated :
    (∃ s : State, s.src.NoFault ∧ s.src.rdValid = true ∧ s.src.rcnt.toNat ≤ 8 ∧ s.tree.treeValid = true ∧ s.TreeOk ∧
      s.tree.genCodes = some twoCodes ∧ 2 ≤ s.freq.leaves ∧ (∀ b ∈ [(0 : Byte)], s.freq.entry b ≠ 0) ∧
      [(0 : Byte)].length < s.freq.sum ∧ s.src.ahead = payloadBits twoCodes [0] ++ [] ∧
      (∀ b : Byte, s.freq.entry b ≠ 0 → ¬twoCodes.code b <+: []) ∧ s.snk.Ready [(0 : Byte)].length) ∧
    (∃ s : State, s.src.NoFault ∧ s.src.rdValid = true ∧ s.src.rcnt.toNat ≤ 8 ∧ s.tree.treeValid = true ∧ s.TreeOk ∧
      s.freq.leaves = 1 ∧ s.freq.entry 0 ≠ 0 ∧ s.src.ahead.length < s.freq.sum ∧ s.snk.Ready s.src.ahead.length) ∧
    (∃ s : State, s.src.NoFault ∧ ClassesFit twoClasses two ∧ (Tree.build two).genCodes = some twoCodes ∧
      ([] : List Byte).length < two.sum ∧ s.snk.fresh.Ready 0 ∧ 2 ≤ two.leaves ∧
      (∀ b : Byte, two.entry b ≠ 0 → ¬twoCodes.code b <+: []) ∧
      s.src.input.flatMap byteBits = headerWith twoClasses two ++ payloadBits twoCodes [] ++ []) ∧
    ∃ (s : State) (c : CodeMap), s.src.NoFault ∧ ClassesFit (1 :: List.replicate 255 0) nine ∧
      (Tree.build nine).genCodes = some c ∧ (List.replicate 8 (0 : Byte)).length < nine.sum ∧ s.snk.fresh.Ready 8 ∧
      nine.leaves = 1 ∧ (∀ b ∈ List.replicate 8 (0 : Byte), nine.entry b ≠ 0) ∧
      (byteBits 0xFF).length = (List.replicate 8 (0 : Byte)).length ∧
      s.src.input.flatMap byteBits = headerWith (1 :: List.replicate 255 0) nine ++ byteBits 0xFF := by
  have h := built_ok (f := two) (by rw [two_leaves]; decide)
  have h1 := built_ok (f := one) (by rw [one_leaf])
  obtain ⟨c, hc⟩ := genCodes_build (f := nine) (by rw [nine_leaf])
  exact ⟨⟨{ builtState two with src := { byteReader 0x00 with rcnt := 1 } }, noFault_nil rfl, rfl, by decide, h.1,
      ⟨h.2.tree, h.2.codes, h.2.unused⟩, two_codes, Nat.le_of_eq two_leaves.symm, by decide +kernel, by decide +kernel,
      by decide +kernel, fun b hb => two_coded hb, ready_reset _ (by decide +kernel)⟩,
    ⟨{ builtState one with src := { byteReader 0xFF with rcnt := 2 } }, noFault_nil rfl, rfl, by decide, h1.1,
      ⟨h1.2.tree, h1.2.codes, h1.2.unused⟩, one_leaf, by decide +kernel, by decide +kernel,
      ready_reset _ (by decide +kernel)⟩,
    ⟨inputState (twoStream.take 66), noFault_nil rfl, twoClasses_fit, two_codes, by decide +kernel,
      ready_reset _ (by decide), Nat.le_of_eq two_leaves.symm, fun b hb => two_coded hb, by decide +kernel⟩,
    inputState (0x40 :: List.replicate 63 0 ++ [9, 0xFF]), c, noFault_nil rfl, nineClasses_fit, hc, by decide +kernel,
    ready_reset _ (by decide), nine_leaf, by decide +kernel, rfl, by decide +kernel⟩

/-- The failed sink write of HDR_WRITE, ENC_PAYLOAD, DEC_PAYLOAD (two leaves and one) and ENCODE, each at its last byte. -/
theorem witness_AFailedSinkWriteLosesItsByte_of_the_codec :
    (∃ s : State, s.snk.FailsAt 65 ∧ (∀ b : Byte, (s.freq.entry b).toNat ≠ 2 ^ 32 - 1) ∧
      65 < (s.snk.wcnt.toNat + 8 * headerBytes s.freq) / 8) ∧
    (∃ s : State, s.snk.FailsAt 0 ∧ s.codesValid = true ∧ s.src.NoFault ∧ s.src.input = [] ++ 0 :: [1] ∧
      (∀ x ∈ [] ++ [(0 : Byte)], s.codes.code x ≠ []) ∧ (s.snk.wcnt.toNat + (payloadBits s.codes []).length) / 8 ≤ 0 ∧
      0 < (s.snk.wcnt.toNat + (payloadBits s.codes ([] ++ [0])).length) / 8) ∧
    (∃ (s : State) (rest : List Bool), s.snk.FailsAt 1 ∧ s.src.rdValid = true ∧ s.src.rcnt.toNat ≤ 8 ∧ s.src.NoFault ∧
      s.tree.treeValid = true ∧ s.TreeOk ∧ 1 < s.freq.sum ∧ s.tree.genCodes = some twoCodes ∧
      (∀ b ∈ [1, 1], s.freq.entry b ≠ 0) ∧ [(1 : Byte), 1].length = 1 + 1 ∧
      s.src.ahead = payloadBits twoCodes [1, 1] ++ rest) ∧
    (∃ s : State, s.snk.FailsAt 2 ∧ s.src.rdValid = true ∧ s.src.rcnt.toNat ≤ 8 ∧ s.src.NoFault ∧
      s.tree.treeValid = true ∧ s.TreeOk ∧ 2 < s.freq.sum ∧ s.freq.leaves = 1 ∧ s.freq.entry 0 ≠ 0 ∧
      2 < s.src.ahead.length) ∧
    ∃ s : State, s.snk.fresh.FailsAt 66 ∧ s.src.NoFault ∧ two.Counts s.src.input ∧ s.src.inLen ≠ 0 ∧
      (∀ b : Byte, (two.entry b).toNat ≠ 2 ^ 32 - 1) ∧ (Tree.build two).genCodes = some twoCodes ∧
      66 < headerBytes two + (payloadLength two twoCodes + 7) / 8 := by
  have h1 := built_ok (f := one) (by rw [one_leaf])
  exact ⟨⟨{ State.reset with freq := two, snk := { Sink.reset with outCap := 65 } },
      failsAt_cap _ (by decide) rfl rfl rfl, two_small, by decide +kernel⟩,
    ⟨{ codedState [0, 1] with snk := { Sink.reset with wcnt := 7, outCap := 0 } }, failsAt_cap _ (by decide) rfl rfl rfl,
      rfl, noFault_nil rfl, by decide +kernel, by decide +kernel, by decide +kernel, by decide +kernel⟩,
    ⟨{ walkState 0xC0 with snk := { Sink.reset with outCap := 1 } }, List.replicate 6 false,
      failsAt_cap _ (by decide) rfl rfl rfl, rfl, by decide, noFault_nil rfl, (walk_ok 0).1,
      ⟨(walk_ok 0).2.tree, (walk_ok 0).2.codes, (walk_ok 0).2.unused⟩, by decide +kernel, two_codes, by decide +kernel, rfl,
      by decide +kernel⟩,
    ⟨{ builtState one with src := { byteReader 0xFF with rcnt := 3 }, snk := { Sink.reset with outCap := 2 } },
      failsAt_cap _ (by decide) rfl rfl rfl, rfl, by decide, noFault_nil rfl, h1.1,
      ⟨h1.2.tree, h1.2.codes, h1.2.unused⟩, by decide +kernel, one_leaf, by decide +kernel, by decide +kernel⟩,
    { inputState [0, 1] with snk := { Sink.reset with outCap := 66 } }, failsAt_cap _ (by decide) rfl rfl rfl,
    noFault_nil rfl, two_input ▸ two_counts, by decide, two_small, two_codes, by rw [two_payload]; decide +kernel⟩

/-- The failed source read of HDR_READ (at the first value), DEC_PAYLOAD (two leaves and one) and ENC_PAYLOAD. -/
theorem witness_AbortedReadsLoseTheirBits_of_the_codec :
    (∃ (s : State) (rest : List Bool), s.src.rdValid = true ∧ s.src.FailsAt 64 ∧ ClassesFit twoClasses two ∧
      s.src.ahead <+: headerWith twoClasses two ++ rest ∧ s.src.bitsTo 64 ≤ (headerWith twoClasses two).length ∧
      s.src.bitsTo 64 = valueEnd twoClasses 0) ∧
    (∃ (s : State) (rest : List Bool), s.src.rdValid = true ∧ s.src.FailsAt 0 ∧ s.tree.treeValid = true ∧ s.TreeOk ∧
      s.tree.genCodes = some twoCodes ∧ 2 ≤ s.freq.leaves ∧ s.freq.entry 1 ≠ 0 ∧ ([] : List Byte).length < s.freq.sum ∧
      [true] <+: twoCodes.code 1 ∧ s.src.ahead = payloadBits twoCodes [] ++ [true] ++ rest ∧
      s.src.bitsTo 0 = (payloadBits twoCodes [] ++ [true]).length ∧ s.snk.Ready 0) ∧
    (∃ s : State, s.src.rdValid = true ∧ s.src.FailsAt 0 ∧ s.tree.treeValid = true ∧ s.TreeOk ∧ s.freq.leaves = 1 ∧
      s.freq.entry 0 ≠ 0 ∧ s.src.bitsTo 0 ≤ s.freq.sum ∧ s.snk.Ready (s.src.bitsTo 0 - 1)) ∧
    ∃ s : State, s.codesValid = true ∧ 1 < s.src.inLen.toNat ∧ (∀ x ∈ s.src.faults.take 1, x = false) ∧
      s.src.faults.getD 1 false = true ∧ (∀ x ∈ s.src.input.take 1, s.codes.code x ≠ []) ∧
      s.snk.Ready ((s.snk.wcnt.toNat + (payloadBits s.codes (s.src.input.take 1)).length) / 8) := by
  have h := built_ok (f := two) (by rw [two_leaves]; decide)
  have h1 := built_ok (f := one) (by rw [one_leaf])
  exact ⟨⟨{ State.reset with src := { headerReader 67 with faults := List.replicate 64 false ++ [true] } },
      [false, true] ++ List.replicate 6 false, rfl, ⟨by decide, by decide, by decide, by decide +kernel, by decide⟩,
      twoClasses_fit, ⟨[], by decide +kernel⟩, by decide +kernel, by decide +kernel⟩,
    ⟨{ builtState two with src := failingReader }, byteBits 0, rfl, failingReader_fails, h.1,
      ⟨h.2.tree, h.2.codes, h.2.unused⟩, two_codes, Nat.le_of_eq two_leaves.symm, by decide +kernel, by decide +kernel,
      by rw [two_code.2], by decide +kernel, by decide +kernel, ready_reset _ (by decide)⟩,
    ⟨{ builtState one with src := failingReader }, rfl, failingReader_fails, h1.1, ⟨h1.2.tree, h1.2.codes, h1.2.unused⟩,
      one_leaf, by decide +kernel, by decide +kernel, ready_reset _ (by decide)⟩,
    { codedState [0, 1] with src := { (inputState [0, 1]).src with faults := [false, true] } }, rfl, by decide, by decide, rfl,
    by decide +kernel, ready_reset _ (by decide +kernel)⟩

theorem witness_AZeroTotalDecodesToNothing :
    State.reset.freq.sum = 0 ∧ ∃ s : State, ClassesFit (1 :: List.replicate 255 0) FreqTable.zero ∧
      FreqTable.zero.sum = 0 ∧ s.src.NoFault ∧
      s.src.input.flatMap byteBits = headerWith (1 :: List.replicate 255 0) FreqTable.zero ++ [] :=
  ⟨by decide +kernel, inputState (0x40 :: List.replicate 64 0), ⟨by decide +kernel, fun b => by rw [entry_zero]; exact Nat.pow_pos (by decide)⟩,
    by decide +kernel, noFault_nil rfl, by decide +kernel⟩

theorem witness_DecodeEmitsTheSymbols :
    ∃ (s : State) (rest : List Bool), ClassesFit twoClasses two ∧ s.src.NoFault ∧
      (Tree.build two).genCodes = some twoCodes ∧ (∀ b ∈ [0, 1], two.entry b ≠ 0) ∧ [(0 : Byte), 1] ≠ [] ∧
      [(0 : Byte), 1].length = two.sum ∧
      s.src.input.flatMap byteBits = headerWith twoClasses two ++ payloadBits twoCodes [0, 1] ++ rest ∧
      s.snk.fresh.Ready [(0 : Byte), 1].length :=
  ⟨inputState twoStream, _, twoClasses_fit, noFault_nil rfl, two_codes, by decide +kernel, by decide, by decide +kernel,
    two_stream_bits, ready_reset _ (by decide +kernel)⟩

theorem witness_ACompletedDecodeHasTheRightLength :
    ∃ t, exec .decode (inputState twoStream) = .next t ∧ t.status.err = false :=
  ⟨_, goesOn_next (by decide +kernel), by decide +kernel⟩

theorem witness_DecodeOfEncodeIsTheInput :
    ∃ s t r : State, s.status.err = false ∧ exec .encode s = .next t ∧ t.status.err = false ∧ r.status.err = false ∧
      r.src.NoFault ∧ t.snk.Holds 0 r.src.input ∧ r.snk.fresh.Ready s.src.inLen.toNat :=
  ⟨inputState [0, 1], _, inputState twoStream, rfl, goesOn_next (by decide +kernel), by decide +kernel, rfl, noFault_nil rfl,
    holds_of (by decide +kernel) (by decide +kernel), ready_reset _ (by decide +kernel)⟩

/-- The reset state has the invariants' parts that a step's premise needs (the whole is a statement for the provers). -/
theorem witness_StepKeepsTheInvariant :
    State.reset.Idle ∧ State.reset.status.Ok ∧ State.reset.src.ReaderOk ∧ State.reset.snk.Ok ∧ State.reset.TreeOk ∧
      State.reset.src.inBuf.wf ∧ State.reset.snk.outBuf.wf ∧ ∃ t, step State.reset = .next t :=
  ⟨⟨rfl, rfl, rfl, rfl, rfl⟩, ⟨by decide, fun _ => ⟨rfl, rfl, rfl⟩, fun h => (nomatch h)⟩,
    ⟨by decide, fun h => (nomatch h), fun _ => ⟨rfl, rfl, rfl⟩⟩,
    ⟨Nat.zero_lt_one, Nat.zero_le _, fun a h => absurd h (Nat.not_lt_zero a)⟩,
    ⟨fun h => (nomatch h), fun h => (nomatch h), fun i _ => blank_node i⟩, List.Pairwise.nil, List.Pairwise.nil, _, rfl⟩

theorem witness_CommandsLeaveTheHostsRegisters :
    (∃ t, exec .clear State.reset = .next t) ∧ ∃ t, exec .rdInit State.reset = .next t :=
  ⟨⟨_, rfl⟩, _, goesOn_next (by decide +kernel)⟩

theorem witness_CommandsReachOnlyTheirPorts :
    (∃ t, exec .flush State.reset = .next t) ∧ (∃ t, exec .build State.reset = .next t) ∧
      ∃ s t : State, s.snk.outCap < 2 ^ 64 ∧ exec (.wrBits 8) s = .next t ∧ 0 < s.snk.outCount.toNat ∧
        t.snk.outCount.toNat ≤ 2 :=
  ⟨⟨_, goesOn_next (by decide +kernel)⟩, ⟨_, goesOn_next (by decide +kernel)⟩,
    { State.reset with snk := { Sink.reset with outCount := 1, outBuf := [(0, 7)] } }, _, by decide,
    goesOn_next (by decide +kernel), by decide, by decide +kernel⟩

end Sys2Proof.Machine
end

/-! SUPPORT. The invariants of an idle block across a step (10_state.md R50): what a step can come to, that each of it keeps
`State.Inv`, and that no command's body is stuck (43_code_table.md R170). -/

namespace Sys2Proof.Machine

-- A command as its body

/-- A command's pseudocode: what `exec` runs before it completes the command or aborts it (R205, R226). -/
def bodyOf : Instr → State → Res State Unit
  | .clear => bodyClear
  | .wrBits n => bodyWrBits n
  | .flush => bodyFlush
  | .rdInit => bodyRdInit
  | .rdBit => bodyRdBit
  | .rdBits n => bodyRdBits n
  | .count => bodyCount
  | .hdrWrite => bodyHdrWrite
  | .hdrRead => bodyHdrRead
  | .build => bodyBuild
  | .gencodes => bodyGencodes
  | .encPayload => bodyEncPayload
  | .decPayload => bodyDecPayload
  | .encode => bodyEncode
  | .decode => bodyDecode

theorem exec_eq_finish (i : Instr) (s : State) : exec i s = finish (bodyOf i s) := by cases i <;> rfl

-- What a step comes to

/-- Everything a host operation that starts no command can leave (R47, R48, R201, R203, R204, R250; 20_memory.md R85). -/
inductive HostMove (s : State) : State → Prop
  | skip : HostMove s s
  | reject : HostMove s (reject s)
  | write (v : Word) (r : Reg) : HostMove s (writeReg s v r)
  | read (v : Word) : HostMove s (s.logRead v)
  | draw : HostMove s s.busyDraw
  | wait : HostMove s { s with host := { s.host with script := .wait :: s.host.script } }
  | load (a : Nat) (xs : List Byte) : HostMove s (s.loadInput a xs)
  | reset : HostMove s s.assertReset

/-- What a host operation leaves, and which words it starts a command with (R200). -/
def HostAct.Fits (s : State) : HostAct → Prop
  | .done t => HostMove s t
  | .refuse _ => True
  | .issue w t => t = accept w s ∧ rejects s w = false

theorem hostWrite_fits (s : State) (off : Nat) (v : Word) : (hostWrite s off v).Fits s := by
  rw [hostWrite]
  split
  · split
    · exact .reject
    · rename_i hr
      exact ⟨rfl, by simpa using hr⟩
  · split
    · exact .skip
    · exact .write _ _
  · exact .skip

theorem hostRead_fits (s : State) (off : Nat) : HostMove s (hostRead s off) := by
  rw [hostRead]
  split
  · split
    · exact .read _
    · exact .read _
    · exact .draw
    · exact .read _
  · exact .read _

theorem hostAct_fits (op : HostOp) (s : State) : (hostAct op s).Fits s := by
  cases op with
  | memWrite addr width v =>
    rw [hostAct]
    split
    · exact hostWrite_fits ..
    · trivial
  | memRead addr width =>
    rw [hostAct]
    split
    · exact hostRead_fits ..
    · trivial
  | wait =>
    rw [hostAct]
    split
    · exact .wait
    · exact .skip
  | loadIn a xs =>
    rw [hostAct]
    split
    · trivial
    · split
      · trivial
      · exact .load a xs
  | reset => exact .reset

/-- Everything a step can do: wait, move, refuse, or run the word it accepts (R251, R262). -/
theorem step_cases (s : State) :
    step s = .next s ∨ (∃ t, HostMove s.dropOp t ∧ step s = .next t) ∨ (∃ r, step s = .refused r) ∨
      ∃ w, rejects s.dropOp w = false ∧ step s = runWord exec w (accept w s.dropOp) := by
  rw [step, hostStep]
  split
  · exact .inl rfl
  · rename_i op _ _
    have h := hostAct_fits op s.dropOp
    cases ha : hostAct op s.dropOp with
    | done t => exact .inr (.inl ⟨t, by rwa [ha] at h, rfl⟩)
    | refuse r => exact .inr (.inr (.inl ⟨r, rfl⟩))
    | issue w t =>
      rw [ha] at h
      obtain ⟨rfl, hr⟩ := h
      exact .inr (.inr (.inr ⟨w, hr, rfl⟩))

/-- CLEAR's OP decodes to CLEAR, whatever stands above it (R94, R97). -/
theorem decode_clear {w : Word} (h : wordOp w = 0x01#8) : decode w = .command .clear := by
  rw [decode, h]; rfl

/-- In the error state only CLEAR is accepted (R200, R201). -/
theorem err_of_accepted {s : State} {w : Word} {d : Decoded} (hr : rejects s w = false) (hd : decode w = d)
    (hne : d ≠ .command .clear) : s.status.err = false := by
  have hop : wordOp w ≠ 0x01#8 := fun e => hne (hd.symm.trans (decode_clear e))
  simpa [rejects, hop] using (Bool.or_eq_false_iff.1 hr).2

-- The invariants across a step

/-- VALUE, the selectors and the host agent are no part of the invariants. -/
theorem State.Inv.withRegs {s : State} (h : s.Inv) (v : Word) (n : NodeIx) (c : Byte) (x : HostSide) :
    ({ s with value := v, nodeSel := n, codeSel := c, host := x } : State).Inv :=
  ⟨⟨h.idle.busy, h.idle.stage, h.idle.cur, h.idle.cls, h.idle.pq⟩, h.status, h.reader, h.drained, h.sink,
    treeOk_of h.tree rfl rfl rfl rfl, h.inBuf, h.outBuf⟩

theorem State.Inv.withHost {s : State} (h : s.Inv) (x : HostSide) : ({ s with host := x } : State).Inv :=
  h.withRegs _ _ _ x

/-- Neither is IN, nor IN_LEN. -/
theorem State.Inv.withInput {s : State} (h : s.Inv) {m : Memory} (hm : m.wf) (n : BitVec 32) :
    ({ s with src := { s.src with inBuf := m, inLen := n } } : State).Inv :=
  ⟨⟨h.idle.busy, h.idle.stage, h.idle.cur, h.idle.cls, h.idle.pq⟩, h.status,
    ⟨h.reader.short, h.reader.atEnd, h.reader.invalid⟩, h.drained, h.sink,
    treeOk_of h.tree rfl rfl rfl rfl, hm, h.outBuf⟩

/-- The arena of a reset or cleared block holds nothing. -/
theorem empty_treeOk {s : State} (ht : s.tree.treeValid = false) (hc : s.codesValid = false)
    (hn : ∀ i, s.tree.node i = Node.zero) : s.TreeOk :=
  ⟨fun x => absurd x (by simp [ht]), fun x => absurd x (by simp [hc]), fun i _ => hn i⟩

theorem assertReset_inv {s : State} (hi : s.src.inBuf.wf) (ho : s.snk.outBuf.wf) : s.assertReset.Inv where
  idle := ⟨rfl, rfl, rfl, rfl, rfl⟩
  status := ⟨(nomatch ·.1), fun _ => ⟨rfl, rfl, rfl⟩, nofun⟩
  reader := ⟨Nat.zero_le _, fun _ => rfl, fun _ => ⟨rfl, rfl, rfl⟩⟩
  drained := nofun
  sink := ⟨Nat.zero_lt_one, Nat.zero_le _, fun a h => absurd h (Nat.not_lt_zero a)⟩
  tree := empty_treeOk rfl rfl blank_node
  inBuf := hi
  outBuf := ho

theorem reject_inv {s : State} (h : s.Inv) : (reject s).Inv :=
  ⟨⟨h.idle.busy, h.idle.stage, h.idle.cur, h.idle.cls, h.idle.pq⟩,
    ⟨h.status.exclusive, h.status.clear, h.status.kinds⟩, h.reader, h.drained, h.sink,
    treeOk_of h.tree rfl rfl rfl rfl, h.inBuf, h.outBuf⟩

theorem withFreq_inv {s : State} (h : s.Inv) (f : FreqTable) : (s.withFreq f).Inv :=
  ⟨⟨h.idle.busy, h.idle.stage, h.idle.cur, h.idle.cls, h.idle.pq⟩, h.status, h.reader, h.drained, h.sink,
    treeOk_withFreq h.tree f, h.inBuf, h.outBuf⟩

theorem writeReg_inv {s : State} (h : s.Inv) (v : Word) (r : Reg) : (writeReg s v r).Inv := by
  cases r
  case value => exact h.withRegs v _ _ _
  case inLen => exact h.withInput h.inBuf v
  case nodeSel => exact h.withRegs _ (v.extractLsb' 0 9) _ _
  case codeSel => exact h.withRegs _ _ (v.extractLsb' 0 8) _
  case freq b => exact withFreq_inv h _
  all_goals exact h

theorem HostMove.inv {s t : State} (h : s.Inv) (hm : HostMove s t) : t.Inv := by
  cases hm with
  | skip => exact h
  | reject => exact reject_inv h
  | write v r => exact writeReg_inv h v r
  | read v => exact h.withHost _
  | draw => exact h.withHost _
  | wait => exact h.withHost _
  | load a xs => exact h.withInput (writeAll_wf h.inBuf a xs) _
  | reset => exact assertReset_inv h.inBuf h.outBuf

theorem status_complete_ok {st : Status} (he : st.err = false)
    (h : st.errCode = 0 ∧ st.errOp = 0 ∧ st.errStage = 0) : st.complete.Ok :=
  ⟨fun x => by simp [he] at x, fun _ => h, fun x => by simp [he] at x⟩

theorem code_raised {k : ErrorKind} (h : k ≠ .corruptHeader) : k.code ∈ [1#4, 2#4, 3#4, 4#4, 6#4, 7#4] := by
  cases k <;> simp [ErrorKind.code] at h ⊢

theorem status_abort_ok {st : Status} {k : ErrorKind} (hd : st.done = false) (hk : k ≠ .corruptHeader)
    (op stg : BitVec 8) : (st.abort k op stg).Ok :=
  ⟨fun x => by simp [hd] at x, fun x => by simp at x, fun _ => code_raised hk⟩

/-- A completed command leaves an idle block with the invariants. -/
theorem complete_inv {s : State} (h : s.Mid) (hs : s.status.complete.Ok) : (complete s).Inv where
  idle := ⟨rfl, rfl, rfl, rfl, rfl⟩
  status := hs
  reader := h.src.reader
  drained := fun hv h0 => .inl (h.src.drained hv h0)
  sink := h.snk.ok
  tree := treeOk_of h.tree (by simp [← h.pq]) rfl rfl rfl
  inBuf := h.src.buf
  outBuf := h.snk.buf

/-- So does an aborted one: its ERR = 1 stands for the reader an IoError may have left without bits. -/
theorem abort_inv {s : State} {k : ErrorKind} (h : s.MidErr) (hd : s.status.done = false) (hk : k ≠ .corruptHeader) :
    (abort k s).Inv where
  idle := ⟨rfl, rfl, rfl, rfl, rfl⟩
  status := status_abort_ok hd hk _ _
  reader := h.src.reader
  drained := fun _ _ => .inr rfl
  sink := h.snk.ok
  tree := treeOk_of h.tree (by simp [← h.pq]) rfl rfl rfl
  inBuf := h.src.buf
  outBuf := h.snk.buf

/-- A block that accepts a command outside the error state starts its body in a good state (R200). -/
theorem accept_mid {s : State} (h : s.Inv) (he : s.status.err = false) (w : Word) : (accept w s).Mid where
  src := ⟨h.reader, fun hv h0 => (h.drained hv h0).resolve_right (by simp [he]), h.inBuf⟩
  snk := ⟨h.sink, h.outBuf⟩
  tree := treeOk_of h.tree rfl rfl rfl rfl
  pq := h.idle.pq

theorem bodyOf_keeps {i : Instr} (hi : i ≠ .clear) {s : State} (h : s.Mid) : Keeps (bodyOf i s) s := by
  cases i with
  | clear => exact absurd rfl hi
  | wrBits n => exact bodyWrBits_keeps n h
  | flush => exact bodyFlush_keeps h
  | rdInit => exact (bodyRdInit_keeps h).mono (fun _ _ x => ⟨x.1, x.2.1⟩) (fun _ _ x => x)
  | rdBit => exact bodyRdBit_keeps h
  | rdBits n => exact bodyRdBits_keeps n h
  | count => exact bodyCount_keeps h
  | hdrWrite => exact bodyHdrWrite_keeps h
  | hdrRead => exact (bodyHdrRead_keeps h).mono (fun _ _ x => ⟨x.1, x.2.1⟩) (fun _ _ x => x)
  | build => exact (bodyBuild_keeps h).mono (fun _ _ x => ⟨x.1, x.2.1⟩) (fun _ _ x => x)
  | gencodes => exact bodyGencodes_keeps h
  | encPayload => exact bodyEncPayload_keeps h
  | decPayload => exact bodyDecPayload_keeps h
  | encode => exact bodyEncode_keeps h
  | decode => exact bodyDecode_keeps h

theorem clear_inv {s t : State} (h : s.Inv) (w : Word) (ht : exec .clear (accept w s) = .next t) : t.Inv := by
  rw [exec_eq_finish] at ht
  refine Res.Ends.next (r := bodyOf .clear (accept w s)) (complete_inv ?_ (status_complete_ok rfl ⟨rfl, rfl, rfl⟩)) ht
  exact ⟨rewind_good h.inBuf, ⟨⟨Nat.zero_lt_one, Nat.zero_le _, fun a ha => absurd ha (Nat.not_lt_zero a)⟩, h.outBuf⟩,
    empty_treeOk rfl rfl blank_node, h.idle.pq⟩

theorem exec_inv {s t : State} {i : Instr} (hi : i ≠ .clear) (h : s.Inv) (he : s.status.err = false) (w : Word)
    (ht : exec i (accept w s) = .next t) : t.Inv := by
  rw [exec_eq_finish] at ht
  refine Res.Ends.next ((bodyOf_keeps hi (accept_mid h he w)).mono (fun _ s' x => ?_) fun k s' x => ?_) ht
  · obtain ⟨hmid, hst⟩ := x
    exact complete_inv hmid (by rw [hst]; exact status_complete_ok he (h.status.clear he))
  · obtain ⟨hmid, hst, hk⟩ := x
    exact abort_inv hmid (by rw [hst]; rfl) hk

theorem runWord_inv {s t : State} {w : Word} (h : s.Inv) (hr : rejects s w = false)
    (ht : runWord exec w (accept w s) = .next t) : t.Inv := by
  rw [runWord] at ht
  split at ht
  · rename_i i hd
    by_cases hi : i = .clear
    · subst hi; exact clear_inv h w ht
    · exact exec_inv hi h (err_of_accepted hr hd (by simpa using hi)) w ht
  · rename_i e hd
    cases ht
    exact abort_inv (accept_mid h (err_of_accepted hr hd (by simp)) w).err rfl (by decide)

/-- Settles O57: an operation of the host keeps the invariants by itself (`HostMove.inv`), and a command by what its body keeps
(`bodyOf_keeps`). -/
theorem stepKeepsTheInvariant : Obligations.StepKeepsTheInvariant := by
  intro s t h ht
  rcases step_cases s with e | ⟨t', hm, e⟩ | ⟨r, e⟩ | ⟨w, hr, e⟩ <;> rw [e] at ht
  · cases ht; exact h
  · cases ht; exact hm.inv (h.withHost _)
  · cases ht
  · exact runWord_inv (h.withHost _) hr ht

-- No step faults

/-- The pseudocode comes to an end: it goes on or it raises. -/
def Res.Halts {σ α : Type} (r : Res σ α) : Prop :=
  match r with
  | .stuck _ => False
  | .ok _ _ => True
  | .err _ _ => True

section
variable {σ τ α β : Type}

@[simp] theorem halts_within (r : Res σ α) (put : σ → τ) : (r.within put).Halts ↔ r.Halts := by cases r <;> rfl

theorem Res.Halts.bind {r : Res σ α} {f : α → σ → Res σ β} (h : r.Halts) (hf : ∀ a s, (f a s).Halts) :
    (r.bind f).Halts := by
  cases r with
  | ok a s => exact hf a s
  | err k s => trivial
  | stuck x => exact h

/-- A step whose next one halts from what it leaves. -/
theorem Res.Halts.bind_of_ends {r : Res σ α} {f : α → σ → Res σ β} {P : α → σ → Prop} {E : ErrorKind → σ → Prop}
    (h : r.Halts) (hp : r.Ends P E) (hf : ∀ a s, P a s → (f a s).Halts) : (r.bind f).Halts := by
  cases r with
  | ok a s => exact hf a s hp
  | err k s => trivial
  | stuck x => exact h

end

theorem sinkWrite_halts (b : Byte) (k : Sink) : (sinkWrite b k).Halts := by
  rcases sinkWrite_cases b k with ⟨fs, e⟩ | ⟨-, e⟩ <;> rw [e] <;> trivial

theorem writeSeq_halts (bs : List Bool) (k : Sink) : (writeSeq bs k).Halts := by
  induction bs generalizing k with
  | nil => trivial
  | cons b bs ih =>
    refine Res.Halts.bind ?_ fun _ => ih
    rw [writeBit]
    split
    · exact sinkWrite_halts _ _
    · trivial

theorem flushBits_halts (k : Sink) : (flushBits k).Halts := by
  rw [flushBits]
  split
  · trivial
  · exact sinkWrite_halts _ _

theorem fetch_halts (q : Source) : (fetch q).Halts := by
  rw [fetch]
  split <;> trivial

theorem readBit_halts (q : Source) : (readBit q).Halts := by
  rw [readBit]
  split
  · trivial
  · split
    · exact (fetch_halts _).bind fun _ _ => trivial
    · trivial

theorem readBitsFrom_halts (n : Nat) (v : Word) (q : Source) : (readBitsFrom n v q).Halts := by
  induction n generalizing v q with
  | zero => trivial
  | succ n ih => exact (readBit_halts q).bind fun _ => ih _

theorem countLoop_halts (n : Nat) (p : Source × FreqTable) : (countLoop n p).Halts := by
  induction n generalizing p with
  | zero => trivial
  | succ n ih =>
    obtain ⟨q, f⟩ := p
    rw [countLoop]
    split
    · trivial
    · trivial
    · exact ih _

theorem writeClasses_halts (fs : List Word) (k : Sink) : (writeClasses fs k).Halts := by
  induction fs generalizing k with
  | nil => trivial
  | cons f fs ih =>
    rw [writeClasses]
    split
    · exact (writeSeq_halts _ _).bind fun _ => ih
    · trivial

theorem writeValues_halts (fs : List Word) (k : Sink) : (writeValues fs k).Halts := by
  induction fs generalizing k with
  | nil => trivial
  | cons f fs ih =>
    rw [writeValues]
    split
    · exact (writeSeq_halts _ _).bind fun _ => ih
    · trivial

/-- A round of pass 1 of HDR_READ: a class read, then the others (R134). -/
theorem readClasses_succ (n : Nat) (acc : List (BitVec 2)) (q : Source) :
    readClasses (n + 1) acc q = ((readBits 2 q).within fun q' => (q', acc)).bind
      fun v p => readClasses n (acc ++ [v.setWidth 2]) p.1 := by
  rw [readClasses]
  cases readBits 2 q <;> rfl

/-- A round of pass 2 of HDR_READ, for a class that has a value (R134). -/
theorem readValues_cons {c : BitVec 2} (hc : c ≠ 0) (cs : List (BitVec 2)) (b : Nat) (q : Source) (f : FreqTable) :
    readValues (c :: cs) b (q, f) = ((readBits (classWidth c) q).within fun q' => (q', f)).bind
      fun v p => readValues cs (b + 1) (p.1, f.setEntry (BitVec.ofNat 8 b) v) := by
  rw [readValues, if_neg hc]
  cases readBits (classWidth c) q <;> rfl

/-- A round of pass 2 of HDR_READ, for class 0, which has no value (R131, R134). -/
theorem readValues_cons_zero (cs : List (BitVec 2)) (b : Nat) (p : Source × FreqTable) :
    readValues (0 :: cs) b p = readValues cs (b + 1) p := by
  rw [readValues, if_pos rfl]

theorem readClasses_halts (n : Nat) (acc : List (BitVec 2)) (q : Source) : (readClasses n acc q).Halts := by
  induction n generalizing acc q with
  | zero => trivial
  | succ n ih =>
    rw [readClasses_succ]
    exact ((halts_within _ _).2 (readBitsFrom_halts 2 0 q)).bind fun _ _ => ih _ _

theorem readValues_halts (cs : List (BitVec 2)) (b : Nat) (p : Source × FreqTable) : (readValues cs b p).Halts := by
  induction cs generalizing b p with
  | nil => trivial
  | cons c cs ih =>
    by_cases hc : c = 0
    · rw [hc, readValues_cons_zero]
      exact ih _ _
    · rw [readValues_cons hc]
      exact ((halts_within _ _).2 (readBitsFrom_halts _ 0 p.1)).bind fun _ _ => ih _ _

theorem encodeLoop_halts (c : CodeMap) (n : Nat) (x : Stream) : (encodeLoop c n x).Halts := by
  induction n generalizing x with
  | zero => trivial
  | succ n ih =>
    rw [encodeLoop]
    split
    · trivial
    · trivial
    · refine Res.Halts.bind ?_ fun _ => ih
      rw [encodeByte]
      dsimp only
      split
      · trivial
      · exact ((halts_within _ _).2 (writeSeq_halts _ _)).bind fun _ _ => trivial

theorem emitSymbol_halts (b : Byte) (x : Stream) : (emitSymbol b x).Halts :=
  ((halts_within _ _).2 (sinkWrite_halts _ _)).bind fun _ _ => trivial

theorem walkBit_halts (t : Tree) (b : Bool) (x : Stream) : (walkBit t b x).Halts := by
  unfold walkBit
  split
  · exact emitSymbol_halts _ _
  · dsimp only
    generalize (if b = true then (t.node (x.cur.getD t.root)).right else (t.node (x.cur.getD t.root)).left) = next
    split
    · exact (emitSymbol_halts _ _).bind fun _ _ => trivial
    · trivial

theorem walkLoop_halts (t : Tree) (total : Wide) (n : Nat) (x : Stream) : (walkLoop t total n x).Halts := by
  induction n generalizing x with
  | zero =>
    rw [walkLoop]
    split <;> trivial
  | succ n ih =>
    rw [walkLoop]
    split
    · trivial
    · exact ((halts_within _ _).2 (readBit_halts _)).bind fun _ _ => (walkBit_halts ..).bind fun _ => ih

theorem bodyCount_halts (s : State) : (bodyCount s).Halts := (halts_within _ _).2 (countLoop_halts _ _)

theorem bodyRdInit_halts (s : State) : (bodyRdInit s).Halts := (halts_within _ _).2 (fetch_halts _)

theorem bodyFlush_halts (s : State) : (bodyFlush s).Halts := (halts_within _ _).2 (flushBits_halts _)

theorem bodyHdrWrite_halts (s : State) : (bodyHdrWrite s).Halts := by
  rw [bodyHdrWrite]
  split
  · trivial
  · exact (halts_within _ _).2 ((writeClasses_halts _ _).bind fun _ => writeValues_halts _)

theorem bodyHdrRead_halts (s : State) : (bodyHdrRead s).Halts := by
  rw [bodyHdrRead]
  split
  · exact ((halts_within _ _).2 (readClasses_halts _ _ _)).bind fun _ _ => (halts_within _ _).2 (readValues_halts ..)
  · trivial

theorem bodyBuild_halts (s : State) : (bodyBuild s).Halts := by
  rw [bodyBuild]
  split <;> trivial

/-- GENCODES halts: with TREE_VALID = 1 the tree is one BUILD made, on which the walk ends (`genCodes_build`). -/
theorem bodyGencodes_halts {s : State} (h : s.TreeOk) : (bodyGencodes s).Halts := by
  rw [bodyGencodes]
  split
  · rename_i hv
    obtain ⟨hn, ht⟩ := h.tree hv
    obtain ⟨c, hc⟩ := genCodes_build ((nonzero_iff _).1 hn)
    rw [ht, hc]; trivial
  · trivial

theorem bodyEncPayload_halts (s : State) : (bodyEncPayload s).Halts := by
  rw [bodyEncPayload]
  split
  · exact (halts_within _ _).2 (encodeLoop_halts ..)
  · trivial

theorem bodyDecPayload_halts (s : State) : (bodyDecPayload s).Halts := by
  rw [bodyDecPayload]
  split
  · trivial
  · split
    · exact (halts_within _ _).2 (walkLoop_halts ..)
    · trivial

theorem encodeChecks_halts (s : State) : (encodeChecks s).Halts := by
  rw [encodeChecks]
  split
  · trivial
  · split <;> trivial

/-- ENCODE reaches GENCODES with the tree its BUILD made. -/
theorem bodyEncode_halts {s : State} (h : s.Mid) : (bodyEncode s).Halts := by
  rw [bodyEncode]
  refine (bodyCount_halts _).bind_of_ends (bodyCount_keeps (mid_stage (mid_fresh h) _)) fun _ s1 h1 => ?_
  refine (encodeChecks_halts _).bind_of_ends (encodeChecks_keeps (mid_stage h1.1 _)) fun _ s2 h2 => ?_
  refine (bodyHdrWrite_halts _).bind_of_ends (bodyHdrWrite_keeps (mid_stage h2.1 _)) fun _ s3 h3 => ?_
  refine (bodyBuild_halts _).bind_of_ends (bodyBuild_keeps (mid_stage h3.1 _)) fun _ s4 h4 => ?_
  exact (bodyGencodes_halts (mid_stage h4.1 _).tree).bind fun _ s5 =>
    (bodyEncPayload_halts _).bind fun _ s6 => bodyFlush_halts _

theorem bodyDecode_halts (s : State) : (bodyDecode s).Halts := by
  rw [bodyDecode]
  refine (bodyRdInit_halts _).bind fun _ s1 => (bodyHdrRead_halts _).bind fun _ s2 => ?_
  split
  · trivial
  · exact (bodyBuild_halts _).bind fun _ s3 => bodyDecPayload_halts _

theorem bodyOf_halts (i : Instr) {s : State} (h : s.Mid) : (bodyOf i s).Halts := by
  cases i with
  | clear => trivial
  | wrBits n =>
    rw [bodyOf, bodyWrBits]
    split
    · exact (halts_within _ _).2 (writeSeq_halts _ _)
    · trivial
  | flush => exact bodyFlush_halts s
  | rdInit => exact bodyRdInit_halts s
  | rdBit =>
    rw [bodyOf, bodyRdBit]
    split
    · exact ((halts_within _ _).2 (readBit_halts _)).bind fun _ _ => trivial
    · trivial
  | rdBits n =>
    rw [bodyOf, bodyRdBits]
    split
    · split
      · exact ((halts_within _ _).2 (readBitsFrom_halts _ _ _)).bind fun _ _ => trivial
      · trivial
    · trivial
  | count => exact bodyCount_halts s
  | hdrWrite => exact bodyHdrWrite_halts s
  | hdrRead => exact bodyHdrRead_halts s
  | build => exact bodyBuild_halts s
  | gencodes => exact bodyGencodes_halts h.tree
  | encPayload => exact bodyEncPayload_halts s
  | decPayload => exact bodyDecPayload_halts s
  | encode => exact bodyEncode_halts h
  | decode => exact bodyDecode_halts s

theorem finish_ne_fault {r : Res State Unit} (h : r.Halts) (f : Fault) : finish r ≠ .fault f := by
  cases r with
  | ok a s => exact nofun
  | err k s => exact nofun
  | stuck x => exact h.elim

theorem runWord_ne_fault {s : State} {w : Word} (h : s.Inv) (hr : rejects s w = false) (f : Fault) :
    runWord exec w (accept w s) ≠ .fault f := by
  rw [runWord]
  split
  · rename_i i hd
    by_cases hi : i = .clear
    · subst hi; exact nofun
    · rw [exec_eq_finish]
      exact finish_ne_fault (bodyOf_halts i (accept_mid h (err_of_accepted hr hd (by simpa using hi)) w)) f
  · exact nofun

/-- Settles O58: only a command's body can be stuck, and from a state with the invariants every body halts (`bodyOf_halts`). -/
theorem noStepFaults : Obligations.NoStepFaults := by
  intro s f h
  rcases step_cases s with e | ⟨t, -, e⟩ | ⟨r, e⟩ | ⟨w, hr, e⟩ <;> rw [e]
  · exact nofun
  · exact nofun
  · exact nofun
  · exact runWord_ne_fault (h.withHost _) hr f

end Sys2Proof.Machine

/-! SUPPORT. The frames of the commands (10_state.md R22, R28, R29, R51): what no command writes, the ports a command does not
reach, and which part of OUT it leaves alone. -/

namespace Sys2Proof.Machine

/-- `Q` holds of whatever state the pseudocode ends in, going on or raising. -/
def Res.All {σ α : Type} (r : Res σ α) (Q : σ → Prop) : Prop := r.Ends (fun _ s => Q s) fun _ s => Q s

section
variable {σ τ α β : Type}

@[simp] theorem all_within (r : Res σ α) (put : σ → τ) (Q : τ → Prop) :
    (r.within put).All Q ↔ r.All fun x => Q (put x) := by cases r <;> rfl

theorem Res.All.bind {r : Res σ α} {f : α → σ → Res σ β} {Q : σ → Prop} (h : r.All Q)
    (hf : ∀ a s, Q s → (f a s).All Q) : (r.bind f).All Q := by
  cases r with
  | ok a s => exact hf a s h
  | err k s => exact h
  | stuck x => trivial

theorem Res.All.mono {r : Res σ α} {Q Q' : σ → Prop} (h : r.All Q) (hq : ∀ s, Q s → Q' s) : r.All Q' :=
  Res.Ends.mono h (fun _ => hq) fun _ => hq

theorem all_of_forall (r : Res σ α) {Q : σ → Prop} (h : ∀ s, Q s) : r.All Q := by
  cases r with
  | ok a s => exact h s
  | err k s => exact h s
  | stuck x => trivial

end

/-- What holds of every state a command's body ends in, and is not touched by the command's end, holds of its next state. -/
theorem exec_all {i : Instr} {s t : State} {Q : State → Prop} (h : (bodyOf i s).All Q)
    (hc : ∀ s, Q s → Q (complete s)) (ha : ∀ k s, Q s → Q (abort k s)) (ht : exec i s = .next t) : Q t := by
  rw [exec_eq_finish] at ht
  exact Res.Ends.next (Res.Ends.mono h (fun _ => hc) ha) ht

-- The source: IN and IN_LEN stand (R29, R51)

/-- The input and its length are those of `q`. -/
structure Source.Kept (q q' : Source) : Prop where
  inBuf : q'.inBuf = q.inBuf
  inLen : q'.inLen = q.inLen

theorem Source.Kept.refl (q : Source) : q.Kept q := ⟨rfl, rfl⟩

theorem fetch_kept {q0 q : Source} (h : q0.Kept q) : (fetch q).All q0.Kept := by
  rw [fetch]
  rcases srcRead_cases q.srcPos q with ⟨-, e⟩ | ⟨-, e⟩ | ⟨-, e⟩ <;> rw [e] <;> exact ⟨h.inBuf, h.inLen⟩

theorem readBit_kept {q0 q : Source} (h : q0.Kept q) : (readBit q).All q0.Kept := by
  rw [readBit]
  split
  · exact h
  · split
    · refine Res.All.bind (fetch_kept (q0 := q0) ⟨h.inBuf, h.inLen⟩) fun _ _ hq => ?_
      exact hq
    · exact ⟨h.inBuf, h.inLen⟩

theorem readBitsFrom_kept (n : Nat) (v : Word) {q0 q : Source} (h : q0.Kept q) :
    (readBitsFrom n v q).All q0.Kept := by
  induction n generalizing v q with
  | zero => exact h
  | succ n ih => exact (readBit_kept h).bind fun _ _ => ih _

theorem countLoop_kept (n : Nat) {q0 : Source} {p : Source × FreqTable} (h : q0.Kept p.1) :
    (countLoop n p).All fun p' => q0.Kept p'.1 := by
  induction n generalizing p with
  | zero => exact h
  | succ n ih =>
    obtain ⟨q, f⟩ := p
    rw [countLoop]
    rcases srcRead_cases q.srcPos q with ⟨-, e⟩ | ⟨-, e⟩ | ⟨-, e⟩ <;> rw [e]
    · exact h
    · exact ⟨h.inBuf, h.inLen⟩
    · exact ih ⟨h.inBuf, h.inLen⟩

theorem readClasses_kept (n : Nat) (acc : List (BitVec 2)) {q0 q : Source} (h : q0.Kept q) :
    (readClasses n acc q).All fun p => q0.Kept p.1 := by
  induction n generalizing acc q with
  | zero => exact h
  | succ n ih =>
    rw [readClasses_succ]
    refine Res.All.bind ((all_within ..).2 (readBitsFrom_kept 2 0 h)) fun _ _ hq => ?_
    exact ih _ hq

theorem readValues_kept (cs : List (BitVec 2)) (b : Nat) {q0 : Source} {p : Source × FreqTable} (h : q0.Kept p.1) :
    (readValues cs b p).All fun p' => q0.Kept p'.1 := by
  induction cs generalizing b p with
  | nil => exact h
  | cons c cs ih =>
    by_cases hc : c = 0
    · rw [hc, readValues_cons_zero]
      exact ih _ h
    · rw [readValues_cons hc]
      refine Res.All.bind ((all_within ..).2 (readBitsFrom_kept _ 0 h)) fun _ _ hq => ?_
      exact ih _ hq

-- The sink: OUT grows at OUT_COUNT (R30, R72)

/-- OUT_CAP stands; with OUT_CAP below 2^64, so that OUT_COUNT does not wrap, OUT has changed between the old and the new
OUT_COUNT only. -/
structure Sink.Grew (k k' : Sink) : Prop where
  cap : k'.outCap = k.outCap
  count : k.outCap < 2 ^ 64 → k.outCount.toNat ≤ k'.outCount.toNat
  others : k.outCap < 2 ^ 64 → ∀ a, a < k.outCount.toNat ∨ k'.outCount.toNat ≤ a → k'.outBuf.read a = k.outBuf.read a

theorem Sink.Grew.refl (k : Sink) : k.Grew k := ⟨rfl, fun _ => le_refl _, fun _ _ _ => rfl⟩

theorem sinkWrite_grew (b : Byte) {k0 k : Sink} (h : k0.Grew k) : (sinkWrite b k).All k0.Grew := by
  rcases sinkWrite_cases b k with ⟨fs, e⟩ | ⟨hlt, e⟩ <;> rw [e]
  · exact ⟨h.cap, h.count, h.others⟩
  · have hstep (hc : k0.outCap < 2 ^ 64) : (k.outCount + 1).toNat = k.outCount.toNat + 1 := by
      have := h.cap
      rw [BitVec.toNat_add]; simp; omega
    refine ⟨h.cap, fun hc => ?_, fun hc a ha => ?_⟩
    · have := h.count hc
      simp only [hstep hc]; omega
    · have := h.count hc
      simp only [hstep hc] at ha ⊢
      rw [read_write_other _ _ (by omega)]
      exact h.others hc a (by omega)

theorem writeBit_grew (b : Bool) {k0 k : Sink} (h : k0.Grew k) : (writeBit b k).All k0.Grew := by
  rw [writeBit]
  split
  · exact sinkWrite_grew _ ⟨h.cap, h.count, h.others⟩
  · exact ⟨h.cap, h.count, h.others⟩

theorem writeSeq_grew (bs : List Bool) {k0 k : Sink} (h : k0.Grew k) : (writeSeq bs k).All k0.Grew := by
  induction bs generalizing k with
  | nil => exact h
  | cons b bs ih => exact (writeBit_grew b h).bind fun _ _ => ih

theorem flushBits_grew {k0 k : Sink} (h : k0.Grew k) : (flushBits k).All k0.Grew := by
  rw [flushBits]
  split
  · exact h
  · exact sinkWrite_grew _ ⟨h.cap, h.count, h.others⟩

theorem writeClasses_grew (fs : List Word) {k0 k : Sink} (h : k0.Grew k) : (writeClasses fs k).All k0.Grew := by
  induction fs generalizing k with
  | nil => exact h
  | cons f fs ih =>
    rw [writeClasses]
    split
    · exact (writeSeq_grew _ h).bind fun _ _ => ih
    · exact h

theorem writeValues_grew (fs : List Word) {k0 k : Sink} (h : k0.Grew k) : (writeValues fs k).All k0.Grew := by
  induction fs generalizing k with
  | nil => exact h
  | cons f fs ih =>
    rw [writeValues]
    split
    · exact (writeSeq_grew _ h).bind fun _ _ => ih
    · exact h

-- The payload loops: both ports

/-- What the payload loops keep of the ports of `x`. -/
structure Stream.Frame (x y : Stream) : Prop where
  src : x.src.Kept y.src
  snk : x.snk.Grew y.snk

theorem encodeLoop_frame (c : CodeMap) (n : Nat) {x0 x : Stream} (h : x0.Frame x) :
    (encodeLoop c n x).All x0.Frame := by
  induction n generalizing x with
  | zero => exact h
  | succ n ih =>
    rw [encodeLoop]
    rcases srcRead_cases x.src.srcPos x.src with ⟨-, e⟩ | ⟨-, e⟩ | ⟨-, e⟩ <;> rw [e]
    · exact h
    · exact ⟨⟨h.src.inBuf, h.src.inLen⟩, h.snk⟩
    · refine Res.All.bind ?_ fun _ _ => ih
      rw [encodeByte]
      dsimp only
      split
      · exact ⟨⟨h.src.inBuf, h.src.inLen⟩, h.snk⟩
      · refine Res.All.bind ?_ fun _ y hy => ⟨hy.src, hy.snk⟩
        exact (all_within ..).2 ((writeSeq_grew _ h.snk).mono fun _ hk => ⟨⟨h.src.inBuf, h.src.inLen⟩, hk⟩)

theorem emitSymbol_frame (b : Byte) {x0 x : Stream} (h : x0.Frame x) : (emitSymbol b x).All x0.Frame := by
  refine Res.All.bind ?_ fun _ y hy => ⟨hy.src, hy.snk⟩
  exact (all_within ..).2 ((sinkWrite_grew b h.snk).mono fun _ hk => ⟨h.src, hk⟩)

theorem walkBit_frame (t : Tree) (b : Bool) {x0 x : Stream} (h : x0.Frame x) : (walkBit t b x).All x0.Frame := by
  unfold walkBit
  split
  · exact emitSymbol_frame _ h
  · dsimp only
    generalize (if b = true then (t.node (x.cur.getD t.root)).right else (t.node (x.cur.getD t.root)).left) = next
    split
    · refine Res.All.bind (emitSymbol_frame _ (x0 := x0) ⟨h.src, h.snk⟩) fun _ y hy => ?_
      exact ⟨hy.src, hy.snk⟩
    · exact ⟨h.src, h.snk⟩

theorem walkLoop_frame (t : Tree) (total : Wide) (n : Nat) {x0 x : Stream} (h : x0.Frame x) :
    (walkLoop t total n x).All x0.Frame := by
  induction n generalizing x with
  | zero =>
    rw [walkLoop]
    split <;> exact h
  | succ n ih =>
    rw [walkLoop]
    split
    · exact h
    · refine Res.All.bind ?_ fun b y hy => (walkBit_frame t b hy).bind fun _ _ => ih
      exact (all_within ..).2 ((readBit_kept h.src).mono fun _ hq => ⟨hq, h.snk⟩)

-- The state

/-- What a command's body keeps of the state `s` it starts from (R22, R28, R29, R51): all that belongs to the host and to the
platform, with the ports as above. -/
structure State.Frame (s t : State) : Prop where
  cmd : t.cmd = s.cmd
  value : t.value = s.value
  nodeSel : t.nodeSel = s.nodeSel
  codeSel : t.codeSel = s.codeSel
  host : t.host = s.host
  rej : t.status.rej = s.status.rej
  src : s.src.Kept t.src
  snk : s.snk.Grew t.snk

namespace State.Frame

theorem refl (s : State) : s.Frame s := ⟨rfl, rfl, rfl, rfl, rfl, rfl, .refl _, .refl _⟩

theorem complete {s t : State} (h : s.Frame t) : s.Frame (complete t) :=
  ⟨h.cmd, h.value, h.nodeSel, h.codeSel, h.host, h.rej, h.src, h.snk⟩

theorem abort {s t : State} (h : s.Frame t) (k : ErrorKind) : s.Frame (abort k t) :=
  ⟨h.cmd, h.value, h.nodeSel, h.codeSel, h.host, h.rej, h.src, h.snk⟩

theorem enterStage {s t : State} (h : s.Frame t) (op : BitVec 8) : s.Frame (t.enterStage op) :=
  ⟨h.cmd, h.value, h.nodeSel, h.codeSel, h.host, h.rej, h.src, h.snk⟩

theorem withFreq {s t : State} (h : s.Frame t) (f : FreqTable) : s.Frame (t.withFreq f) :=
  ⟨h.cmd, h.value, h.nodeSel, h.codeSel, h.host, h.rej, h.src, h.snk⟩

theorem withSrc {s t : State} (h : s.Frame t) {q : Source} (hq : s.src.Kept q) : s.Frame { t with src := q } :=
  ⟨h.cmd, h.value, h.nodeSel, h.codeSel, h.host, h.rej, hq, h.snk⟩

theorem withSnk {s t : State} (h : s.Frame t) {k : Sink} (hk : s.snk.Grew k) : s.Frame { t with snk := k } :=
  ⟨h.cmd, h.value, h.nodeSel, h.codeSel, h.host, h.rej, h.src, hk⟩

theorem withStream {s t : State} (h : s.Frame t) {x : Stream} (hq : s.src.Kept x.src) (hk : s.snk.Grew x.snk) :
    s.Frame (t.withStream x) :=
  ⟨h.cmd, h.value, h.nodeSel, h.codeSel, h.host, h.rej, hq, hk⟩

theorem withValue {s t : State} (h : s.Frame t) (v : Word) : ({ s with value := v } : State).Frame { t with value := v } :=
  ⟨h.cmd, rfl, h.nodeSel, h.codeSel, h.host, h.rej, h.src, h.snk⟩

end State.Frame

theorem bodyClear_frame (s : State) : (bodyClear s).All s.freshSession.Frame :=
  ⟨rfl, rfl, rfl, rfl, rfl, rfl, ⟨rfl, rfl⟩, .refl _⟩

theorem bodyWrBits_frame (n : BitVec 6) (s : State) : (bodyWrBits n s).All s.Frame := by
  rw [bodyWrBits]
  split
  · exact (all_within ..).2 ((writeSeq_grew _ (.refl _)).mono fun _ => (State.Frame.refl s).withSnk)
  · exact .refl s

theorem bodyFlush_frame {s0 s : State} (h : s0.Frame s) : (bodyFlush s).All s0.Frame :=
  (all_within ..).2 ((flushBits_grew h.snk).mono fun _ => h.withSnk)

theorem bodyRdInit_frame {s0 s : State} (h : s0.Frame s) : (bodyRdInit s).All s0.Frame :=
  (all_within ..).2 ((fetch_kept (q0 := s0.src) (q := { s.src with
    srcPos := 0, rbuf := 0, rcnt := 0, reof := false, rdValid := true }) ⟨h.src.inBuf, h.src.inLen⟩).mono
      fun _ => h.withSrc)

theorem bodyRdBit_frame (s : State) : (bodyRdBit s).All fun t => ∃ v, ({ s with value := v } : State).Frame t := by
  rw [bodyRdBit]
  split
  · refine Res.All.bind ((all_within ..).2 ((readBit_kept (.refl _)).mono fun q hq => ?_)) fun b t ht => ?_
    · exact ⟨s.value, (State.Frame.refl s).withSrc hq⟩
    · obtain ⟨_, ht⟩ := ht
      exact ⟨_, ht.withValue _⟩
  · exact ⟨s.value, .refl s⟩

theorem bodyRdBits_frame (n : BitVec 6) (s : State) :
    (bodyRdBits n s).All fun t => ∃ v, ({ s with value := v } : State).Frame t := by
  rw [bodyRdBits]
  split
  · split
    · refine Res.All.bind ((all_within ..).2 ((readBitsFrom_kept _ 0 (.refl _)).mono fun q hq => ?_)) fun b t ht => ?_
      · exact ⟨s.value, (State.Frame.refl s).withSrc hq⟩
      · obtain ⟨_, ht⟩ := ht
        exact ⟨_, ht.withValue _⟩
    · exact ⟨s.value, .refl s⟩
  · exact ⟨s.value, .refl s⟩

theorem bodyCount_frame {s0 s : State} (h : s0.Frame s) : (bodyCount s).All s0.Frame :=
  (all_within ..).2 ((countLoop_kept _ (q0 := s0.src) (p := (s.src.rewind, FreqTable.zero))
    ⟨h.src.inBuf, h.src.inLen⟩).mono fun p => (h.withFreq p.2).withSrc)

theorem bodyHdrWrite_frame {s0 s : State} (h : s0.Frame s) : (bodyHdrWrite s).All s0.Frame := by
  rw [bodyHdrWrite]
  split
  · exact h
  · refine (all_within ..).2 (Res.All.mono (Q := s0.snk.Grew) ?_ fun _ => h.withSnk)
    exact (writeClasses_grew _ h.snk).bind fun _ _ => writeValues_grew _

theorem hdrClasses_frame {s0 s : State} (h : s0.Frame s) : (hdrClasses s).All s0.Frame :=
  (all_within ..).2 ((readClasses_kept 256 [] h.src).mono fun _ hq =>
    ⟨h.cmd, h.value, h.nodeSel, h.codeSel, h.host, h.rej, hq, h.snk⟩)

theorem hdrValues_frame {s0 s : State} (h : s0.Frame s) : (hdrValues s).All s0.Frame :=
  (all_within ..).2 ((readValues_kept _ 0 (p := (s.src, s.freq)) h.src).mono fun _ hq =>
    ⟨h.cmd, h.value, h.nodeSel, h.codeSel, h.host, h.rej, hq, h.snk⟩)

theorem bodyHdrRead_frame {s0 s : State} (h : s0.Frame s) : (bodyHdrRead s).All s0.Frame := by
  rw [bodyHdrRead]
  split
  · exact (hdrClasses_frame (h.withFreq _)).bind fun _ _ => hdrValues_frame
  · exact h

theorem bodyBuild_frame {s0 s : State} (h : s0.Frame s) : (bodyBuild s).All s0.Frame := by
  rw [bodyBuild]
  split
  · exact ⟨h.cmd, h.value, h.nodeSel, h.codeSel, h.host, h.rej, h.src, h.snk⟩
  · exact h

theorem bodyGencodes_frame {s0 s : State} (h : s0.Frame s) : (bodyGencodes s).All s0.Frame := by
  rw [bodyGencodes]
  split
  · split
    · exact ⟨h.cmd, h.value, h.nodeSel, h.codeSel, h.host, h.rej, h.src, h.snk⟩
    · trivial
  · exact h

theorem bodyEncPayload_frame {s0 s : State} (h : s0.Frame s) : (bodyEncPayload s).All s0.Frame := by
  rw [bodyEncPayload]
  split
  · exact (all_within ..).2 ((encodeLoop_frame _ _ (x0 := s0.stream)
      (x := { s.stream with src := s.src.rewind, symCnt := 0 }) ⟨⟨h.src.inBuf, h.src.inLen⟩, h.snk⟩).mono fun _ hx => h.withStream hx.src hx.snk)
  · exact h

theorem bodyDecPayload_frame {s0 s : State} (h : s0.Frame s) : (bodyDecPayload s).All s0.Frame := by
  have h0 : s0.Frame { s with symCnt := 0 } :=
    ⟨h.cmd, h.value, h.nodeSel, h.codeSel, h.host, h.rej, h.src, h.snk⟩
  unfold bodyDecPayload
  split
  · exact h0
  · split
    · exact (all_within ..).2 ((walkLoop_frame _ _ _ (x0 := s0.stream)
        (x := { ({ s with symCnt := 0 } : State).stream with cur := some s.tree.root }) ⟨h.src, h.snk⟩).mono
        fun _ hx => h0.withStream hx.src hx.snk)
    · exact h

theorem encodeChecks_frame {s0 s : State} (h : s0.Frame s) : (encodeChecks s).All s0.Frame := by
  rw [encodeChecks]
  split
  · exact h
  · split <;> exact h

theorem bodyEncode_frame (s : State) : (bodyEncode s).All s.freshSession.Frame :=
  (bodyCount_frame ((State.Frame.refl _).enterStage _)).bind fun _ _ h =>
  (encodeChecks_frame (h.enterStage _)).bind fun _ _ h =>
  (bodyHdrWrite_frame (h.enterStage _)).bind fun _ _ h =>
  (bodyBuild_frame (h.enterStage _)).bind fun _ _ h =>
  (bodyGencodes_frame (h.enterStage _)).bind fun _ _ h =>
  (bodyEncPayload_frame (h.enterStage _)).bind fun _ _ h => bodyFlush_frame (h.enterStage _)

theorem bodyDecode_frame (s : State) : (bodyDecode s).All s.freshSession.Frame := by
  refine (bodyRdInit_frame ((State.Frame.refl _).enterStage _)).bind fun _ s1 h1 => ?_
  refine (bodyHdrRead_frame (h1.enterStage _)).bind fun _ s2 h2 => ?_
  split
  · exact h2
  · exact (bodyBuild_frame (h2.enterStage _)).bind fun _ s3 h3 => bodyDecPayload_frame (h3.enterStage _)

/-- The state a command's frame is stated from: CLEAR, ENCODE and DECODE start a fresh session (R181, R192, R202). -/
def frameBase (i : Instr) (s : State) : State := if i ∈ [.clear, .encode, .decode] then s.freshSession else s

theorem frameBase_cases (i : Instr) (s : State) : frameBase i s = s ∨ frameBase i s = s.freshSession := by
  rw [frameBase]
  split
  · exact .inr rfl
  · exact .inl rfl

/-- The commands that leave their result in VALUE (R22). -/
def WritesValue (i : Instr) : Prop := i = .rdBit ∨ ∃ n, i = .rdBits n

theorem bodyOf_frame {i : Instr} (hi : ¬WritesValue i) (s : State) : (bodyOf i s).All (frameBase i s).Frame := by
  have h := State.Frame.refl s
  cases i with
  | clear => exact bodyClear_frame s
  | wrBits n => exact bodyWrBits_frame n s
  | flush => exact bodyFlush_frame h
  | rdInit => exact bodyRdInit_frame h
  | rdBit => exact absurd (.inl rfl) hi
  | rdBits n => exact absurd (.inr ⟨n, rfl⟩) hi
  | count => exact bodyCount_frame h
  | hdrWrite => exact bodyHdrWrite_frame h
  | hdrRead => exact bodyHdrRead_frame h
  | build => exact bodyBuild_frame h
  | gencodes => exact bodyGencodes_frame h
  | encPayload => exact bodyEncPayload_frame h
  | decPayload => exact bodyDecPayload_frame h
  | encode => exact bodyEncode_frame s
  | decode => exact bodyDecode_frame s

/-- Every command keeps its frame, but for VALUE where it is the result. -/
theorem exec_frame {i : Instr} {s t : State} (ht : exec i s = .next t) :
    ∃ v, (¬WritesValue i → v = s.value) ∧ ({ frameBase i s with value := v } : State).Frame t := by
  by_cases hi : WritesValue i
  · refine ⟨t.value, absurd hi, ?_⟩
    have hb : (bodyOf i s).All fun t => ∃ v, ({ s with value := v } : State).Frame t := by
      rcases hi with rfl | ⟨n, rfl⟩
      · exact bodyRdBit_frame s
      · exact bodyRdBits_frame n s
    obtain ⟨v, h⟩ := exec_all hb (fun _ ⟨v, h⟩ => ⟨v, h.complete⟩) (fun k _ ⟨v, h⟩ => ⟨v, h.abort k⟩) ht
    have hbase : frameBase i s = s := by rcases hi with rfl | ⟨n, rfl⟩ <;> rfl
    rw [hbase, h.value]
    exact h
  · have h := exec_all (bodyOf_frame hi s) (fun _ h => h.complete) (fun k _ h => h.abort k) ht
    refine ⟨s.value, fun _ => rfl, ?_⟩
    have hbase : (frameBase i s).value = s.value := by rcases frameBase_cases i s with e | e <;> rw [e]; rfl
    rw [← hbase]
    exact h

/-- Settles O59: the frame of every command (`exec_frame`). -/
theorem commandsLeaveTheHostsRegisters : Obligations.CommandsLeaveTheHostsRegisters := by
  intro i s t ht
  obtain ⟨v, hv, h⟩ := exec_frame ht
  have hval : (i ≠ .rdBit ∧ ∀ n, i ≠ .rdBits n) → t.value = s.value := by
    rintro ⟨h1, h2⟩
    exact h.value.trans (hv fun x => x.elim h1 fun ⟨n, e⟩ => h2 n e)
  rcases frameBase_cases i s with e | e <;> rw [e] at h <;>
    exact ⟨h.cmd, h.nodeSel, h.codeSel, h.src.inLen, h.src.inBuf, h.snk.cap, h.host, h.rej, hval⟩

-- The ports a command does not reach

theorem exec_keeps_src {i : Instr} {s t : State}
    (hi : i ∈ [.flush, .hdrWrite, .build, .gencodes] ∨ ∃ n, i = .wrBits n) (ht : exec i s = .next t) :
    t.src = s.src := by
  refine exec_all (Q := fun t => t.src = s.src) ?_ (fun _ h => h) (fun _ _ h => h) ht
  have hput : ∀ r : Res Sink Unit, (r.within fun k => { s with snk := k }).All fun t => t.src = s.src :=
    fun r => (all_within ..).2 (all_of_forall r fun _ => rfl)
  rcases hi with hi | ⟨n, rfl⟩
  · simp only [List.mem_cons, List.not_mem_nil, or_false] at hi
    rcases hi with rfl | rfl | rfl | rfl
    · exact hput _
    · rw [bodyOf, bodyHdrWrite]
      split
      · rfl
      · exact hput _
    · rw [bodyOf, bodyBuild]
      split <;> rfl
    · rw [bodyOf, bodyGencodes]
      split
      · split
        · rfl
        · trivial
      · rfl
  · rw [bodyOf, bodyWrBits]
    split
    · exact hput _
    · rfl

theorem hdrRead_keeps_snk (s : State) : (bodyHdrRead s).All fun t => t.snk = s.snk := by
  rw [bodyHdrRead]
  split
  · refine Res.All.bind ((all_within ..).2 (all_of_forall _ fun _ => rfl)) fun _ s1 h => ?_
    exact (all_within ..).2 (all_of_forall _ fun _ => h)
  · rfl

theorem exec_keeps_snk {i : Instr} {s t : State}
    (hi : i ∈ [.rdInit, .rdBit, .count, .hdrRead, .build, .gencodes] ∨ ∃ n, i = .rdBits n) (ht : exec i s = .next t) :
    t.snk = s.snk := by
  refine exec_all (Q := fun t => t.snk = s.snk) ?_ (fun _ h => h) (fun _ _ h => h) ht
  have hput : ∀ {α : Type} (r : Res Source α), (r.within fun q => { s with src := q }).All fun t => t.snk = s.snk :=
    fun r => (all_within ..).2 (all_of_forall r fun _ => rfl)
  rcases hi with hi | ⟨n, rfl⟩
  · simp only [List.mem_cons, List.not_mem_nil, or_false] at hi
    rcases hi with rfl | rfl | rfl | rfl | rfl | rfl
    · exact hput _
    · rw [bodyOf, bodyRdBit]
      split
      · exact (hput _).bind fun _ _ h => h
      · rfl
    · exact (all_within ..).2 (all_of_forall _ fun _ => rfl)
    · exact hdrRead_keeps_snk s
    · rw [bodyOf, bodyBuild]
      split <;> rfl
    · rw [bodyOf, bodyGencodes]
      split
      · split
        · rfl
        · trivial
      · rfl
  · rw [bodyOf, bodyRdBits]
    split
    · split
      · exact (hput _).bind fun _ _ h => h
      · rfl
    · rfl

theorem clear_keeps_outBuf {s t : State} (ht : exec .clear s = .next t) : t.snk.outBuf = s.snk.outBuf := by
  cases ht; rfl

/-- OUT below the old OUT_COUNT (R72). -/
theorem exec_keeps_below {i : Instr} {s t : State} (ht : exec i s = .next t) (hcap : s.snk.outCap < 2 ^ 64)
    (he : i ≠ .encode) (hd : i ≠ .decode) {a : Nat} (ha : a < s.snk.outCount.toNat) :
    t.snk.outBuf.read a = s.snk.outBuf.read a := by
  by_cases hc : i = .clear
  · subst hc
    rw [clear_keeps_outBuf ht]
  · obtain ⟨v, -, h⟩ := exec_frame ht
    have hbase : frameBase i s = s := by simp [frameBase, hc, he, hd]
    rw [hbase] at h
    exact h.snk.others hcap a (.inl ha)

/-- OUT at the new OUT_COUNT and above. -/
theorem exec_keeps_above {i : Instr} {s t : State} (ht : exec i s = .next t) (hcap : s.snk.outCap < 2 ^ 64) {a : Nat}
    (ha : t.snk.outCount.toNat ≤ a) : t.snk.outBuf.read a = s.snk.outBuf.read a := by
  obtain ⟨v, -, h⟩ := exec_frame ht
  have hbase : (frameBase i s).snk.outCap = s.snk.outCap ∧ (frameBase i s).snk.outBuf = s.snk.outBuf := by
    rcases frameBase_cases i s with e | e <;> rw [e] <;> exact ⟨rfl, rfl⟩
  have := h.snk.others (hbase.1 ▸ hcap) a (.inr ha)
  rwa [hbase.2] at this

/-- Settles O60: the ports by what each body puts back, and OUT by the frame. -/
theorem commandsReachOnlyTheirPorts : Obligations.CommandsReachOnlyTheirPorts := by
  intro i s t ht
  refine ⟨fun hi => exec_keeps_src hi ht, fun hi => exec_keeps_snk hi ht, ?_,
    fun hcap he hd a ha => exec_keeps_below ht hcap he hd ha, fun hcap a ha => exec_keeps_above ht hcap ha⟩
  rintro rfl
  exact clear_keeps_outBuf ht

end Sys2Proof.Machine

/-! SUPPORT. Host accesses and the register window (10_state.md R23, R47, R48; 46_session_control.md R203, R204), TOTAL, the code
readout, FREQ writes and the reset values. -/

namespace Sys2Proof.Machine

-- One access

theorem step_issue (s : State) (op : HostOp) : step (s.issue op) = settleAct exec (hostAct op s) := rfl

theorem admitted_offset {off : Nat} (h4 : off % 4 = 0) (h : off < 0x800) (base : Nat) :
    admitted base (base + off) 4 = true := by
  simp [admitted, Config.windowBytes, h4, h]

/-- A host read of the window (R76). -/
theorem step_issueRead (s : State) {off : Nat} (h4 : off % 4 = 0) (h : off < 0x800) :
    step (s.issueRead off) = .next (hostRead s off) := by
  rw [State.issueRead, step_issue, hostAct, if_pos (admitted_offset h4 h _), Nat.add_sub_cancel_left]
  rfl

/-- A host write of the window (R76). -/
theorem step_issueWrite (s : State) {off : Nat} (h4 : off % 4 = 0) (h : off < 0x800) (v : Word) :
    step (s.issueWrite off v) = settleAct exec (hostWrite s off v) := by
  rw [State.issueWrite, step_issue, hostAct, if_pos (admitted_offset h4 h _), Nat.add_sub_cancel_left]

/-- Every register stands at a word of the window (R23). -/
theorem offset_admitted (r : Reg) : r.offset % 4 = 0 ∧ r.offset < 0x800 := by
  cases r
  case codeW j => have := j.isLt; simp only [Reg.offset]; omega
  case freq b => have := b.isLt; simp only [Reg.offset]; omega
  all_goals decide

/-- The register at a register's offset is that register (R23). -/
theorem regAt_offset (r : Reg) : regAt r.offset = some r := by
  cases r
  case codeW j =>
    have := j.isLt
    rw [regAt, Reg.offset, if_neg (by omega), if_pos (by omega), show (0x05C + 4 * j.toNat - 0x05C) / 4 = j.toNat by omega,
      BitVec.ofNat_toNat, BitVec.setWidth_eq]
  case freq b =>
    rw [regAt, Reg.offset, if_neg (by omega), if_neg (by omega), if_neg (by omega),
      show (0x400 + 4 * b.toNat - 0x400) / 4 = b.toNat by omega, BitVec.ofNat_toNat, BitVec.setWidth_eq]
  all_goals rfl

/-- The reserved offsets (R23, R47). -/
theorem regAt_reserved {off : Nat} (h : 0x07C ≤ off) (h' : off ≤ 0x3FC) : regAt off = none := by
  rw [regAt, if_neg (by omega), if_neg (by omega), if_pos (by omega)]

/-- A read of a register (R48, R204). -/
theorem step_readReg (s : State) (r : Reg) : step (s.issueRead r.offset) = .next (hostRead s r.offset) :=
  step_issueRead s (offset_admitted r).1 (offset_admitted r).2

/-- A read of a register of an idle block (R204). -/
theorem step_readReg_idle {s : State} (h : s.status.busy = false) (r : Reg) :
    step (s.issueRead r.offset) = .next (s.logRead (readReg s r)) := by
  rw [step_readReg, hostRead, if_neg (by simp [h]), idleRead, regAt_offset]

/-- A write of a register other than CMD (R48, R203). -/
theorem step_writeReg (s : State) {r : Reg} (hr : r ≠ .cmd) (v : Word) :
    step (s.issueWrite r.offset v) = .next (if s.status.busy then s else writeReg s v r) := by
  rw [step_issueWrite s (offset_admitted r).1 (offset_admitted r).2, hostWrite, regAt_offset]
  split
  · rename_i h; exact absurd (Option.some.inj h) hr
  · rename_i h
    obtain rfl := Option.some.inj h
    split <;> rfl
  · rename_i h; cases h

theorem step_writeReg_idle {s : State} (h : s.status.busy = false) {r : Reg} (hr : r ≠ .cmd) (v : Word) :
    step (s.issueWrite r.offset v) = .next (writeReg s v r) := by
  rw [step_writeReg s hr, h]; rfl

/-- A write to a read-only register is none (R47). -/
theorem writeReg_readOnly {r : Reg} (h : r.readOnly = true) (s : State) (v : Word) : writeReg s v r = s := by
  cases r <;> simp [Reg.readOnly] at h <;> rfl

/-- Settles O11: every register stands at an admitted offset, where `regAt` finds it. -/
theorem idleReadReturnsTheRegister : Obligations.IdleReadReturnsTheRegister :=
  fun _ r h => step_readReg_idle h r

-- The layout of a register

theorem toNat_append_eq {m n : Nat} (x : BitVec m) (y : BitVec n) :
    (x ++ y).toNat = x.toNat * 2 ^ n + y.toNat := by
  rw [BitVec.toNat_append, ← Nat.shiftLeft_add_eq_or_of_lt y.isLt, Nat.shiftLeft_eq]

/-- LO and HI of a 64-bit register spell it (R77). -/
theorem loWord_add_hiWord (v : Wide) : (loWord v).toNat + 2 ^ 32 * (hiWord v).toNat = v.toNat := by
  have := v.isLt
  rw [loWord, hiWord, BitVec.extractLsb'_toNat, BitVec.extractLsb'_toNat, Nat.shiftRight_zero, Nat.shiftRight_eq_div_pow]
  omega

/-- There is no arena entry 511 (R36, R38). -/
theorem node_511 (t : Tree) {i : NodeIx} (h : i.toNat = 511) : t.node i = Node.zero := by
  simp [Tree.node, h]

/-- Settles O12: each register is its fields side by side (`toNat_append_eq`). -/
theorem registersShowTheirFields : Obligations.RegistersShowTheirFields := by
  intro s
  refine ⟨rfl, ?_, rfl, rfl, ?_, loWord_add_hiWord _, loWord_add_hiWord _, loWord_add_hiWord _, ?_, ?_, ?_, ?_, ?_, ?_,
    loWord_add_hiWord _, fun h => ?_, ?_, fun b => rfl⟩
  · have := s.cmd.isLt
    simp only [readReg, BitVec.toNat_setWidth]; omega
  · simp only [readReg, Status.word, toNat_append_eq, BitVec.toNat_ofBool, BitVec.toNat_ofNat]; omega
  · simp only [readReg, Sink.wstate, toNat_append_eq, BitVec.toNat_ofNat]; omega
  · simp only [readReg, Source.rstate, toNat_append_eq, BitVec.toNat_ofBool, BitVec.toNat_ofNat]; omega
  · simp only [readReg, State.tstate, toNat_append_eq, BitVec.toNat_ofBool, BitVec.toNat_ofNat]; omega
  · simp only [readReg, Tree.word, toNat_append_eq, BitVec.toNat_ofNat]; omega
  · have := s.nodeSel.isLt
    simp only [readReg, BitVec.toNat_setWidth]; omega
  · simp only [readReg, Node.info, toNat_append_eq, BitVec.toNat_ofBool, BitVec.toNat_ofNat]; omega
  · simp only [readReg, node_511 _ h]; decide
  · have := s.codeSel.isLt
    simp only [readReg, BitVec.toNat_setWidth]; omega

-- TOTAL

/-- The entries of FREQ, by symbol. -/
theorem map_entry (f : FreqTable) (g : Word → Nat) :
    ((List.range 256).map fun b => g (f.entry (BitVec.ofNat 8 b))) = f.toList.map g := by
  refine List.ext_getElem (by simp) fun i h _ => ?_
  have hi : i < 256 := by simpa using h
  simp [FreqTable.entry, Nat.mod_eq_of_lt hi]

theorem sumWide_toNat (xs : List Word) (h : xs.length ≤ 256) :
    (sumWide (xs.map fun x => x.setWidth 64)).toNat = (xs.map BitVec.toNat).sum ∧
      (xs.map BitVec.toNat).sum ≤ xs.length * (2 ^ 32 - 1) := by
  induction xs with
  | nil => exact ⟨rfl, le_refl _⟩
  | cons x xs ih =>
    have hx := x.isLt
    rw [List.length_cons] at h
    obtain ⟨h1, h2⟩ := ih (by omega)
    simp only [List.map_cons, List.sum_cons, List.length_cons, sumWide, BitVec.toNat_add, BitVec.toNat_setWidth, h1]
    omega

/-- TOTAL does not wrap (R33). -/
theorem total_toNat (f : FreqTable) : f.total.toNat = f.sum := (sumWide_toNat f.toList (by simp)).1

theorem sum_le (f : FreqTable) : f.sum ≤ 256 * (2 ^ 32 - 1) := by
  have := (sumWide_toNat f.toList (by simp)).2
  rwa [Vector.length_toList] at this

theorem total_zero : FreqTable.zero.total = 0 := by
  apply BitVec.eq_of_toNat_eq
  rw [total_toNat, FreqTable.sum, FreqTable.zero, Vector.toList_replicate, List.map_replicate, List.sum_replicate]
  rfl

/-- Settles O13: the 64-bit sum of 256 words does not wrap (`sumWide_toNat`). -/
theorem totalReadsTheExactSum : Obligations.TotalReadsTheExactSum := by
  intro s
  rw [map_entry s.freq BitVec.toNat]
  exact ⟨(loWord_add_hiWord _).trans (total_toNat _), sum_le _, total_toNat _⟩

-- The code readout

/-- The bits packed into a word, the last of them lowest. -/
theorem getLsbD_packBits (bs : List Bool) {k : Nat} (hk : k < 32) :
    (packBits bs).getLsbD k = bs.reverse.getD k false := by
  induction bs using List.reverseRecOn generalizing k with
  | nil => simp [packBits]
  | append_singleton bs b ih =>
    have e : packBits (bs ++ [b]) = (packBits bs <<< 1) ||| (BitVec.ofBool b).setWidth 32 := by
      simp [packBits]
    rw [e, List.reverse_concat]
    cases k with
    | zero => cases b <;> simp
    | succ k =>
      have hk' : k < 32 := by omega
      rw [BitVec.getLsbD_or, BitVec.getLsbD_shiftLeft, List.getD_cons_succ, ← ih hk']
      simp [hk]

/-- Bit 31 - i of CODE_Wj is bit 32j + i of the code (R40). -/
theorem getLsbD_codeWord (c : Code) (j : Nat) {i : Nat} (hi : i < 32) :
    (codeWord c j).getLsbD (31 - i) = c.getD (32 * j + i) false := by
  have e : 32 - 1 - (31 - i) = i := by omega
  rw [codeWord, getLsbD_packBits _ (by omega), List.getD_eq_getElem?_getD,
    List.getElem?_reverse (by simp; omega)]
  simp [e, hi]

/-- Settles O14: the reads are those of an idle block, and `getLsbD_codeWord` gives the bits. -/
theorem codeReadoutShowsTheSelectedCode : Obligations.CodeReadoutShowsTheSelectedCode := by
  intro s hb
  refine ⟨fun v => ?_, fun hl => ?_, fun j hj => ?_⟩
  · exact (step_writeReg_idle hb (r := .codeSel) nofun v).trans (by rw [writeReg, BitVec.setWidth_eq_extractLsb' (by decide)])
  · have e : readReg s .codeLen = BitVec.ofNat 32 (s.codes.code s.codeSel).length := by
      apply BitVec.eq_of_toNat_eq
      simp only [readReg, BitVec.toNat_setWidth, BitVec.toNat_ofNat]; omega
    exact (step_readReg_idle hb .codeLen).trans (by rw [e]; rfl)
  · have hoff : (Reg.codeW (BitVec.ofNat 3 j)).offset = 0x05C + 4 * j := by
      simp only [Reg.offset, BitVec.toNat_ofNat]; omega
    refine ⟨readReg s (.codeW (BitVec.ofNat 3 j)), by rw [← hoff]; exact step_readReg_idle hb _, fun i hi => ?_⟩
    have hj' : (BitVec.ofNat 3 j).toNat = j := by simp only [BitVec.toNat_ofNat]; omega
    rw [readReg, hj']
    exact getLsbD_codeWord _ j hi

-- Reserved and read-only offsets, and accesses while busy

theorem hostRead_reserved (s : State) {off : Nat} (h : regAt off = none) : hostRead s off = s.logRead 0 := by
  simp only [hostRead, idleRead, h, ite_self]

/-- A host read changes nothing but the log and the counter of draws (R47, R78). -/
theorem hostRead_host (s : State) (off : Nat) :
    ∃ v n, hostRead s off = { s with host := { s.host with readLog := v :: s.host.readLog, busyReads := n } } := by
  rw [hostRead]
  split
  · split
    · exact ⟨_, _, rfl⟩
    · exact ⟨_, _, rfl⟩
    · exact ⟨_, _, rfl⟩
    · exact ⟨_, _, rfl⟩
  · exact ⟨_, _, rfl⟩

/-- Settles O15: no register stands at a reserved offset, and a read changes the log alone. -/
theorem reservedAndReadOnlyAccesses : Obligations.ReservedAndReadOnlyAccesses := by
  intro s
  refine ⟨fun off h4 hlo hhi => ⟨?_, fun v => ?_⟩, fun r v hr => ?_, fun off h4 h => ?_⟩
  · rw [step_issueRead s h4 (by omega), hostRead_reserved s (regAt_reserved hlo hhi)]; rfl
  · rw [step_issueWrite s h4 (by omega), hostWrite, regAt_reserved hlo hhi]; rfl
  · rw [step_writeReg s (by rintro rfl; cases hr), writeReg_readOnly hr, ite_self]
  · obtain ⟨v, n, e⟩ := hostRead_host s off
    exact ⟨v, n, by rw [step_issueRead s h4 h, e]⟩

/-- A CMD write while BUSY = 1 is rejected (R48, R201). -/
theorem step_writeCmd_busy {s : State} (h : s.status.busy = true) (w : Word) :
    step (s.issueWrite 0x004 w) = .next (reject s) := by
  have hr : rejects s w = true := by simp [rejects, h]
  rw [step_issueWrite s (by decide) (by decide)]
  simp only [hostWrite, regAt, lowReg, hr]
  rfl

/-- Settles O16: the branches of `hostWrite` and `hostRead` for BUSY = 1. -/
theorem accessesWhileBusy : Obligations.AccessesWhileBusy := by
  intro s hb
  refine ⟨fun w => step_writeCmd_busy hb w, fun r v hr => ?_, fun r hr => ?_, fun r h1 h2 => ?_⟩
  · rw [step_writeReg s hr, if_pos hb]
  · rcases hr with rfl | rfl <;> rw [step_readReg, hostRead, if_pos hb] <;> rfl
  · rw [step_readReg, hostRead, if_pos hb, regAt_offset]
    split
    · rename_i h; exact absurd (Option.some.inj h) h1
    · rename_i h; exact absurd (Option.some.inj h) h2
    · rfl
    · rename_i h; cases h

/-- Settles O17: `writeReg` of each writable register. -/
theorem idleWriteStoresTheRegister : Obligations.IdleWriteStoresTheRegister := by
  intro s v hb
  refine ⟨step_writeReg_idle hb (r := .value) nofun v, step_writeReg_idle hb (r := .inLen) nofun v,
    (step_writeReg_idle hb (r := .nodeSel) nofun v).trans (by rw [writeReg, BitVec.setWidth_eq_extractLsb' (by decide)]),
    (step_writeReg_idle hb (r := .codeSel) nofun v).trans (by rw [writeReg, BitVec.setWidth_eq_extractLsb' (by decide)]),
    fun b => ⟨s.freq.setEntry b v, step_writeReg_idle hb (r := .freq b) nofun v, fun b' => ?_⟩⟩
  exact entry_setEntry s.freq b b' v

-- FREQ writes

/-- Both valid bits are 0 (R35). -/
def State.Invalid (s : State) : Prop := s.tree.treeValid = false ∧ s.codesValid = false

theorem bodyCount_invalid (s : State) : (bodyCount s).All State.Invalid :=
  (all_within ..).2 (all_of_forall _ fun _ => ⟨rfl, rfl⟩)

theorem bodyHdrRead_invalid {s : State} (h : s.src.rdValid = true) : (bodyHdrRead s).All State.Invalid := by
  rw [bodyHdrRead, if_pos h]
  refine Res.All.bind ((all_within ..).2 (all_of_forall _ fun _ => ⟨rfl, rfl⟩)) fun _ s1 h1 => ?_
  exact (all_within ..).2 (all_of_forall _ fun _ => h1)

/-- Settles O18: a FREQ write by the host, and the bodies that write FREQ, in whichever state they end. -/
theorem freqWritesInvalidate : Obligations.FreqWritesInvalidate := by
  intro s t
  refine ⟨fun hb b v ht => ?_, fun i hi ht => ?_⟩
  · rw [show 0x400 + 4 * b.toNat = (Reg.freq b).offset from rfl, step_writeReg_idle hb (r := .freq b) nofun] at ht
    cases ht
    exact ⟨rfl, rfl⟩
  · refine exec_all (Q := State.Invalid) ?_ (fun _ h => h) (fun _ _ h => h) ht
    rcases hi with rfl | rfl | ⟨rfl, hv⟩
    · exact ⟨rfl, rfl⟩
    · exact bodyCount_invalid s
    · exact bodyHdrRead_invalid hv

-- Reset

/-- Settles O20: the step is `assertReset`, which is that state by definition. -/
theorem resetInputRestoresTheResetState : Obligations.ResetInputRestoresTheResetState := fun _ => rfl

/-- Settles O21. TOTAL is the one value of them that is computed (`total_zero`). -/
theorem resetHasTheListedValues : Obligations.ResetHasTheListedValues := by
  refine ⟨rfl, rfl, by decide, rfl, rfl, rfl, rfl, rfl, entry_zero, ?_, ?_, blank_node, rfl, rfl, rfl, rfl, code_empty, rfl,
    rfl, rfl, rfl, rfl, rfl, rfl, rfl, rfl, rfl, rfl, rfl, rfl⟩
  · rw [readReg, show State.reset.freq.total = 0 from total_zero]; rfl
  · rw [readReg, show State.reset.freq.total = 0 from total_zero]; rfl

/-- Settles O56: the reset input in the reset state changes nothing, and leaves the invariants from any state. -/
theorem resetMeetsTheInvariant : Obligations.ResetMeetsTheInvariant :=
  assertReset_inv (s := State.reset) List.Pairwise.nil List.Pairwise.nil

end Sys2Proof.Machine

/-! SUPPORT. The two scans of the input (41_frequency_header.md R132, 44_encoder.md R180): `n` rounds of the loop of COUNT and
of ENC_PAYLOAD from any byte on, and what the whole scans leave. -/

namespace Sys2Proof.Machine

/-- Counting one and then `n`, as SYMCNT, SRC_POS and FREQ do (R10). -/
theorem add_one_ofNat {w : Nat} (v : BitVec w) (n : Nat) : v + 1 + BitVec.ofNat w n = v + BitVec.ofNat w (n + 1) := by
  rw [BitVec.add_assoc, Nat.add_comm n 1, BitVec.ofNat_add]; rfl

theorem noFault_getD {fs : List Bool} (h : ∀ f ∈ fs, f = false) (j : Nat) : fs.getD j false = false := by
  rw [List.getD_eq_getElem?_getD]
  cases e : fs[j]? with
  | none => rfl
  | some f => exact h f (List.mem_of_getElem? e)

theorem take_getD {fs : List Bool} {i : Nat} (h : ∀ f ∈ fs.take i, f = false) {j : Nat} (hj : j < i) :
    fs.getD j false = false := by
  have := noFault_getD h j
  rwa [List.getD_eq_getElem?_getD, List.getElem?_take, if_pos hj, ← List.getD_eq_getElem?_getD] at this

theorem headD_drop (fs : List Bool) (m : Nat) : (fs.drop m).headD false = fs.getD m false := by
  rw [List.headD_eq_head?_getD, List.head?_drop, List.getD_eq_getElem?_getD]

theorem scanned_srcPos {q : Source} {m : Nat} (h : m ≤ q.inLen.toNat) : (q.scanned m).srcPos.toNat = m := by
  have := q.inLen.isLt
  simp only [Source.scanned, BitVec.toNat_ofNat]; omega

/-- A scan's read of byte `m`, where it succeeds (R71). -/
theorem srcRead_scanned {q : Source} {m : Nat} (h : m < q.inLen.toNat) (hf : q.faults.getD m false = false) :
    srcRead (q.scanned m).srcPos (q.scanned m) =
      (.ok (q.inByte m), { q.scanned m with faults := q.faults.drop (m + 1) }) := by
  have hp := scanned_srcPos (Nat.le_of_lt h)
  rw [srcRead, if_neg (by rw [hp]; exact Nat.not_le.2 h),
    if_neg (by simp only [Source.scanned, headD_drop, hf]; decide), hp]
  simp only [Source.scanned, List.tail_drop]
  rfl

/-- A scan's read of byte `m`, where it fails (R71). -/
theorem srcRead_scanned_err {q : Source} {m : Nat} (h : m < q.inLen.toNat) (hf : q.faults.getD m false = true) :
    srcRead (q.scanned m).srcPos (q.scanned m) = (.err, { q.scanned m with faults := q.faults.drop (m + 1) }) := by
  have hp := scanned_srcPos (Nat.le_of_lt h)
  rw [srcRead, if_neg (by rw [hp]; exact Nat.not_le.2 h), if_pos (by simp only [Source.scanned, headD_drop, hf])]
  simp only [Source.scanned, List.tail_drop]

/-- The scan after byte `m` is read and SRC_POS advanced (R31). -/
theorem scanned_succ (q : Source) (m : Nat) :
    { q.scanned m with srcPos := (q.scanned m).srcPos + 1, faults := q.faults.drop (m + 1) } = q.scanned (m + 1) := by
  simp only [Source.scanned, BitVec.ofNat_add]; rfl

/-- The input bytes of a scan, its next one first. -/
theorem input_take_succ {q : Source} {m : Nat} (h : m < q.inLen.toNat) (n : Nat) :
    (q.input.drop m).take (n + 1) = q.inByte m :: (q.input.drop (m + 1)).take n := by
  rw [List.drop_eq_getElem_cons (by simpa using h), List.take_succ_cons]
  simp [Source.input]

theorem input_take_all (q : Source) : (q.input.drop 0).take q.inLen.toNat = q.input :=
  List.take_of_length_le (by simp)

-- COUNT

/-- FREQ after some bytes are counted into it (R132). -/
def FreqTable.counted (f : FreqTable) (bs : List Byte) : FreqTable :=
  bs.foldl (fun f b => f.setEntry b (f.entry b + 1)) f

theorem counted_entry (f : FreqTable) (bs : List Byte) (a : Byte) :
    (f.counted bs).entry a = f.entry a + BitVec.ofNat 32 (bs.count a) := by
  induction bs generalizing f with
  | nil => simp [FreqTable.counted]
  | cons b bs ih =>
    have e : f.counted (b :: bs) = (f.setEntry b (f.entry b + 1)).counted bs := rfl
    rw [e, ih, entry_setEntry]
    by_cases h : a = b
    · subst h
      rw [if_pos rfl, List.count_cons_self, add_one_ofNat]
    · rw [if_neg h, List.count_cons_of_ne (fun e => h e.symm)]

/-- A count of fewer than 2^32 bytes does not wrap (R34). -/
theorem counted_counts {bs : List Byte} (h : bs.length < 2 ^ 32) : (FreqTable.zero.counted bs).Counts bs := by
  intro b
  have := bs.count_le_length (a := b)
  rw [counted_entry, entry_zero, zero_add, BitVec.toNat_ofNat, Nat.mod_eq_of_lt (by omega)]

theorem input_length_lt (q : Source) : q.input.length < 2 ^ 32 := by
  rw [input_length]; exact q.inLen.isLt

/-- `n` rounds of COUNT's loop from byte `m` on, no read of them failing (R132). -/
theorem countLoop_scan (q : Source) (n r : Nat) {m : Nat} (f : FreqTable) (hn : m + n ≤ q.inLen.toNat)
    (hf : ∀ j, m ≤ j → j < m + n → q.faults.getD j false = false) :
    countLoop (n + r) (q.scanned m, f) = countLoop r (q.scanned (m + n), f.counted ((q.input.drop m).take n)) := by
  induction n generalizing m f with
  | zero => simp [FreqTable.counted]
  | succ n ih =>
    rw [Nat.add_right_comm, countLoop, srcRead_scanned (by omega) (hf m (le_refl _) (by omega))]
    dsimp only
    rw [scanned_succ, ih _ (by omega) (fun j h1 h2 => hf j (by omega) (by omega)), input_take_succ (by omega),
      Nat.add_assoc m 1 n, Nat.add_comm 1 n]
    rfl

/-- COUNT with no read failing (R132). -/
theorem bodyCount_ok {s : State} (h : s.src.NoFault) :
    bodyCount s =
      .ok () { s.withFreq (FreqTable.zero.counted s.src.input) with src := s.src.scanned s.src.inLen.toNat } := by
  have e := countLoop_scan s.src s.src.inLen.toNat 0 (m := 0) FreqTable.zero (by omega) fun j _ _ => noFault_getD h j
  rw [Nat.add_zero, Nat.zero_add, input_take_all] at e
  exact congrArg (Res.within · _) e

/-- COUNT where the read at index `i` is the first to fail (R132, R230). -/
theorem bodyCount_err {s : State} {i : Nat} (hi : i < s.src.inLen.toNat) (hb : ∀ x ∈ s.src.faults.take i, x = false)
    (hf : s.src.faults.getD i false = true) :
    bodyCount s =
      .err .ioError { s.withFreq (FreqTable.zero.counted (s.src.input.take i)) with
        src := { s.src.scanned i with faults := s.src.faults.drop (i + 1) } } := by
  obtain ⟨r, hr⟩ : ∃ r, s.src.inLen.toNat = i + (r + 1) := ⟨s.src.inLen.toNat - i - 1, by omega⟩
  have e := countLoop_scan s.src i (r + 1) (m := 0) FreqTable.zero (by omega) fun j _ h => take_getD hb (by omega)
  rw [Nat.zero_add, ← hr, List.drop_zero, countLoop, srcRead_scanned_err hi hf] at e
  exact congrArg (Res.within · _) e

/-- Settles O31: a scan that runs to its end, or up to its first failing read (`countLoop_scan`). -/
theorem countCountsTheInput : Obligations.CountCountsTheInput := by
  intro s
  refine ⟨fun h => ⟨FreqTable.zero.counted s.src.input, ?_, counted_counts (input_length_lt _)⟩, fun i hi hb hf =>
    ⟨FreqTable.zero.counted (s.src.input.take i), ?_, ?_, counted_counts ?_⟩⟩
  · rw [exec_eq_finish, bodyOf, bodyCount_ok h]; rfl
  · rw [exec_eq_finish, bodyOf, bodyCount_err hi hb hf]; rfl
  · rw [exec_eq_finish, bodyOf, bodyEncode, bodyCount_err (s := s.freshSession.enterStage 0x07) hi hb hf]; rfl
  · have := input_length_lt s.src
    rw [List.length_take]; omega

-- ENC_PAYLOAD

/-- One byte encoded (R180). -/
theorem encodeByte_appended {c : CodeMap} {b : Byte} (hb : c.code b ≠ []) {x : Stream}
    (h : x.snk.Ready ((x.snk.wcnt.toNat + (c.code b).length) / 8)) :
    ∃ k, encodeByte c b x =
        .ok () { x with src := { x.src with srcPos := x.src.srcPos + 1 }, snk := k, symCnt := x.symCnt + 1 } ∧
      x.snk.Appended (c.code b) k := by
  obtain ⟨k, e, a⟩ := writeSeq_appended _ h
  refine ⟨k, ?_, a⟩
  simp only [encodeByte]
  rw [if_neg hb, e]
  rfl

/-- `n` rounds of ENC_PAYLOAD's loop from byte `m` on, no read of them failing, every byte coded and the sink ready (R180). -/
theorem encodeLoop_scan (c : CodeMap) (q : Source) (n r : Nat) {m : Nat} {x : Stream} (hx : x.src = q.scanned m)
    (hn : m + n ≤ q.inLen.toNat) (hf : ∀ j, m ≤ j → j < m + n → q.faults.getD j false = false)
    (hc : ∀ b ∈ (q.input.drop m).take n, c.code b ≠ [])
    (hr : x.snk.Ready ((x.snk.wcnt.toNat + (payloadBits c ((q.input.drop m).take n)).length) / 8)) :
    ∃ k, encodeLoop c (n + r) x =
        encodeLoop c r { x with src := q.scanned (m + n), snk := k, symCnt := x.symCnt + BitVec.ofNat 64 n } ∧
      x.snk.Appended (payloadBits c ((q.input.drop m).take n)) k := by
  induction n generalizing m x with
  | zero =>
    refine ⟨x.snk, ?_, appended_nil _⟩
    rw [Nat.zero_add, Nat.add_zero, ← hx]
    simp
  | succ n ih =>
    have hm : m < q.inLen.toNat := by omega
    rw [input_take_succ hm] at hc hr ⊢
    have hbits : payloadBits c (q.inByte m :: (q.input.drop (m + 1)).take n) =
        c.code (q.inByte m) ++ payloadBits c ((q.input.drop (m + 1)).take n) := List.flatMap_cons
    rw [hbits] at hr ⊢
    obtain ⟨k1, e1, a1⟩ := encodeByte_appended (c := c) (b := q.inByte m) (hc _ (List.mem_cons_self ..))
      (x := { x with src := { q.scanned m with faults := q.faults.drop (m + 1) } })
      (hr.mono (Nat.div_le_div_right (by rw [List.length_append, ← Nat.add_assoc]; exact Nat.le_add_right _ _)))
    obtain ⟨k2, e2, a2⟩ := ih (m := m + 1)
      (x := { x with src := q.scanned (m + 1), snk := k1, symCnt := x.symCnt + 1 }) rfl (by omega)
      (fun j h1 h2 => hf j (by omega) (by omega)) (fun b hb => hc b (List.mem_cons_of_mem _ hb)) (a1.ready hr)
    refine ⟨k2, ?_, a1.trans a2⟩
    rw [Nat.add_right_comm, encodeLoop, hx, srcRead_scanned hm (hf m (le_refl _) (by omega))]
    dsimp only
    rw [e1, bind_ok, scanned_succ, e2, Nat.add_assoc m 1 n, Nat.add_comm 1 n, add_one_ofNat]

/-- Settles O45: the whole input scanned (`encodeLoop_scan`). -/
theorem encPayloadAppendsTheCodes : Obligations.EncPayloadAppendsTheCodes := by
  intro s hv h hc hr
  rw [← input_take_all] at hc hr
  obtain ⟨k, e, a⟩ := encodeLoop_scan s.codes s.src s.src.inLen.toNat 0 (m := 0)
    (x := { s.stream with src := s.src.rewind, symCnt := 0 }) rfl (by omega) (fun j _ _ => noFault_getD h j) hc hr
  rw [Nat.add_zero, Nat.zero_add, encodeLoop] at e
  rw [input_take_all] at a
  refine ⟨k, ?_, a⟩
  rw [exec_eq_finish, bodyOf, bodyEncPayload, if_pos hv, e, within_ok]
  simp only [zero_add, BitVec.ofNat_toNat]
  rfl

end Sys2Proof.Machine

/-! SUPPORT. Paths in a built tree (42_tree_builder.md R151, R157), the codes GENCODES records along them (43_code_table.md
R170), and DEC_PAYLOAD's walk along codes (45_decoder.md R190, R191). -/

namespace Sys2Proof.Machine

-- The leaves

/-- How many symbols of nonzero frequency stand below `b`: the arena index of `b`'s leaf (R150, R151). -/
def FreqTable.below (f : FreqTable) (b : Byte) : Nat := ((f.toList.take b.toNat).filter fun x => x != 0).length

/-- The symbol at place `j` of a table, with nonzero frequency, stands in the list of leaves after those before it. -/
theorem leafList_getElem? (fs : List Word) (b : Nat) {j : Nat} (hj : j < fs.length) (h : fs[j] ≠ 0) :
    (leafList fs b)[((fs.take j).filter fun x => x != 0).length]? = some (b + j, fs[j]) := by
  induction fs generalizing b j with
  | nil => simp at hj
  | cons f fs ih =>
    rw [leafList]
    cases j with
    | zero =>
      have hf : f ≠ 0 := h
      rw [if_neg hf]; rfl
    | succ j =>
      have hih := ih (b + 1) (j := j) (by simpa using hj) h
      rw [List.take_succ_cons, List.filter_cons, List.getElem_cons_succ, ← Nat.add_assoc, Nat.add_right_comm]
      by_cases hf : f = 0
      · rw [if_pos hf, if_neg (by simp [hf])]; exact hih
      · rw [if_neg hf, if_pos (by simpa using hf), List.length_cons, List.getElem?_cons_succ]; exact hih

theorem leafList_below {f : FreqTable} {b : Byte} (hb : f.entry b ≠ 0) :
    f.leafList[f.below b]? = some (b.toNat, f.entry b) := by
  have h := leafList_getElem? f.toList 0 (j := b.toNat) (by simpa using b.isLt) (by simpa [FreqTable.entry] using hb)
  rw [Nat.zero_add] at h
  exact h

theorem below_lt {f : FreqTable} {b : Byte} (hb : f.entry b ≠ 0) : f.below b < f.leaves := by
  rw [← leafList_card]
  exact (List.getElem?_eq_some_iff.1 (leafList_below hb)).1

/-- The leaf of a symbol of nonzero frequency (R151). -/
theorem build_leaf {f : FreqTable} {b : Byte} (hb : f.entry b ≠ 0) :
    (Tree.build f).node (BitVec.ofNat 9 (f.below b)) =
      { w := (f.entry b).setWidth 64, leaf := true, sym := b, left := 0, right := 0 } := by
  have hlt := below_lt hb
  have hle := leaves_le f
  obtain ⟨e, -, -, -, -, -, -, hleaf⟩ := build_spec (f := f) (by omega)
  have hix : (BitVec.ofNat 9 (f.below b)).toNat = f.below b := by rw [BitVec.toNat_ofNat]; omega
  obtain ⟨hl, hget⟩ := List.getElem?_eq_some_iff.1 (leafList_below hb)
  rw [hleaf _ (by rw [hix]; exact hl)]
  simp only [hix, hget, leafNode, BitVec.ofNat_toNat, BitVec.setWidth_eq]

/-- Settles O39: the leaves by `build_leaf`, the rest by `build_spec`. -/
theorem builtLeavesAreTheSymbolsInOrder : Obligations.BuiltLeavesAreTheSymbolsInOrder := by
  intro f hf
  obtain ⟨e, m, -, -, hl, hv, -⟩ := build_spec hf
  exact ⟨hl, hv, fun b hb => build_leaf hb, m.grown.unused⟩

-- Paths

/-- The child on the side of a bit: 0 left, 1 right (R11, R153). -/
def Tree.child (t : Tree) (i : NodeIx) (b : Bool) : NodeIx := if b then (t.node i).right else (t.node i).left

/-- The bits `p` lead from node `i` to node `j`, through internal nodes only before its end. -/
inductive Tree.Path (t : Tree) : NodeIx → Code → NodeIx → Prop
  | nil (i : NodeIx) : Tree.Path t i [] i
  | cons {i j : NodeIx} {b : Bool} {p : Code} (hi : (t.node i).leaf = false) (h : Tree.Path t (t.child i b) p j) :
    Tree.Path t i (b :: p) j

theorem Tree.Path.snoc {t : Tree} {i j : NodeIx} {p : Code} (h : t.Path i p j) (hj : (t.node j).leaf = false)
    (b : Bool) : t.Path i (p ++ [b]) (t.child j b) := by
  induction h with
  | nil i => exact .cons hj (.nil _)
  | cons hi _ ih => exact .cons hi (ih hj)

theorem Tree.Path.eq_of_leaf {t : Tree} {i j : NodeIx} {p : Code} (h : t.Path i p j) (hi : (t.node i).leaf = true) :
    p = [] ∧ j = i := by
  cases h with
  | nil => exact ⟨rfl, rfl⟩
  | cons h0 _ => rw [hi] at h0; cases h0

/-- The bits `p` lead from node `i` to a leaf of symbol `b`, and to no leaf before. -/
def Tree.LeafPath (t : Tree) (i : NodeIx) (p : Code) (b : Byte) : Prop :=
  ∃ j, t.Path i p j ∧ (t.node j).leaf = true ∧ (t.node j).sym = b

theorem Tree.LeafPath.cons {t : Tree} {i : NodeIx} {p : Code} {b : Byte} {d : Bool} (hi : (t.node i).leaf = false)
    (h : t.LeafPath (t.child i d) p b) : t.LeafPath i (d :: p) b := by
  obtain ⟨j, hp, hj⟩ := h
  exact ⟨j, .cons hi hp, hj⟩

/-- Every node of a built tree is on a path from the root (R157): each but the root is a child of an internal node above it. -/
theorem build_path {f : FreqTable} (hf : 1 ≤ f.leaves) (i : NodeIx) (hi : i.toNat < (Tree.build f).nNodes.toNat) :
    ∃ p, (Tree.build f).Path (Tree.build f).root p i := by
  obtain ⟨e, m, hr, -⟩ := build_spec hf
  by_cases hroot : i = (Tree.build f).root
  · exact ⟨[], hroot ▸ .nil _⟩
  · have htaken : (Tree.build f).Taken f.leaves i.toNat (Tree.build f).nNodes.toNat := by
      by_contra h
      obtain ⟨x, hx, hxi⟩ := (m.free _ hi).2 h
      obtain rfl := List.mem_singleton.1 hx
      exact hroot (hr ▸ (BitVec.eq_of_toNat_eq hxi).symm)
    obtain ⟨j, hk, hj, hc⟩ := htaken
    have hbelow := m.below j hk hj
    obtain ⟨p, hp⟩ := build_path hf j hj
    have hjl := (m.inner j hk hj).1
    rcases hc with hc | hc
    · exact ⟨p ++ [false], by rw [← BitVec.eq_of_toNat_eq hc]; exact hp.snoc hjl false⟩
    · exact ⟨p ++ [true], by rw [← BitVec.eq_of_toNat_eq hc]; exact hp.snoc hjl true⟩
termination_by 511 - i.toNat
decreasing_by
  have := m.grown.fit
  omega

-- What GENCODES's walk records

/-- A code after the walk under node `i` is as it was, or the walk's path to a leaf of its symbol (R170). -/
theorem visit_leafPath {t : Tree} (n : Nat) (i : NodeIx) (p : Code) {c c' : CodeMap} (h : visit t n i p c = some c')
    (b : Byte) : c'.code b = c.code b ∨ ∃ q, c'.code b = p ++ q ∧ t.LeafPath i q b := by
  induction n generalizing i p c c' with
  | zero => simp [visit] at h
  | succ n ih =>
    rw [visit] at h
    split at h
    · rename_i hl
      cases h
      rw [code_setCode]
      split
      · exact .inr ⟨[], (List.append_nil p).symm, i, .nil i, hl, by subst_vars; rfl⟩
      · exact .inl rfl
    · rename_i hl
      have hl' : (t.node i).leaf = false := by simpa using hl
      split at h
      · rename_i c1 h1
        rcases ih _ _ h with e | ⟨q, e, hq⟩
        · rcases ih _ _ h1 with e' | ⟨q, e', hq⟩
          · exact .inl (e.trans e')
          · exact .inr ⟨false :: q, by rw [e, e']; simp, .cons hl' hq⟩
        · exact .inr ⟨true :: q, by rw [e]; simp, .cons hl' hq⟩
      · cases h

/-- A symbol with a leaf under node `i` gets its code from the walk. -/
theorem visit_records {t : Tree} (n : Nat) (i : NodeIx) (p : Code) {c c' : CodeMap} (h : visit t n i p c = some c')
    {b : Byte} {u : Code} (hu : t.LeafPath i u b) : ∃ q, c'.code b = p ++ q ∧ t.LeafPath i q b := by
  induction n generalizing i p c c' u with
  | zero => simp [visit] at h
  | succ n ih =>
    rw [visit] at h
    obtain ⟨j, hpath, hjl, hjs⟩ := hu
    split at h
    · rename_i hl
      cases h
      obtain ⟨-, rfl⟩ := hpath.eq_of_leaf hl
      rw [code_setCode, if_pos hjs.symm]
      exact ⟨[], (List.append_nil p).symm, j, .nil j, hjl, hjs⟩
    · rename_i hl
      have hl' : (t.node i).leaf = false := by simpa using hl
      split at h
      · rename_i c1 h1
        have hright : ∀ q, c'.code b = p ++ [true] ++ q ∧ t.LeafPath (t.node i).right q b →
            ∃ q, c'.code b = p ++ q ∧ t.LeafPath i q b :=
          fun q ⟨e, hq⟩ => ⟨true :: q, by rw [e]; simp, .cons hl' hq⟩
        cases hpath with
        | nil => rw [hl'] at hjl; cases hjl
        | @cons _ _ d u _ hsub =>
          cases d with
          | false =>
            rcases visit_leafPath n _ _ h b with e | ⟨q, hq⟩
            · obtain ⟨q, e', hq⟩ := ih _ _ h1 ⟨j, hsub, hjl, hjs⟩
              exact ⟨false :: q, by rw [e, e']; simp, .cons hl' hq⟩
            · exact hright q hq
          | true =>
            obtain ⟨q, hq⟩ := ih _ _ h ⟨j, hsub, hjl, hjs⟩
            exact hright q hq
      · cases h

/-- The code of a symbol of nonzero frequency: of a tree of one leaf the bit 0, else a path from the root (R170, R171). -/
theorem genCodes_code {f : FreqTable} {c : CodeMap} (h : (Tree.build f).genCodes = some c) {b : Byte}
    (hb : f.entry b ≠ 0) :
    (((Tree.build f).node (Tree.build f).root).leaf = true ∧ ((Tree.build f).node (Tree.build f).root).sym = b ∧
        c.code b = [false]) ∨
      (((Tree.build f).node (Tree.build f).root).leaf = false ∧
        (Tree.build f).LeafPath (Tree.build f).root (c.code b) b) := by
  have hlt := below_lt hb
  have hle := leaves_le f
  have hnode := build_leaf hb
  obtain ⟨e, -, -, hn, -⟩ := build_spec (f := f) (by omega)
  have hix : (BitVec.ofNat 9 (f.below b)).toNat = f.below b := by rw [BitVec.toNat_ofNat]; omega
  obtain ⟨u, hu⟩ := build_path (f := f) (by omega) (BitVec.ofNat 9 (f.below b)) (by rw [hix, hn]; omega)
  have hpath : (Tree.build f).LeafPath (Tree.build f).root u b := ⟨_, hu, by rw [hnode], by rw [hnode]⟩
  rw [Tree.genCodes] at h
  split at h
  · rename_i hl
    cases h
    obtain ⟨-, hroot⟩ := hu.eq_of_leaf hl
    have hsym : ((Tree.build f).node (Tree.build f).root).sym = b := by rw [← hroot, hnode]
    exact .inl ⟨hl, hsym, by rw [code_setCode, if_pos hsym.symm]⟩
  · rename_i hl
    obtain ⟨q, e, hq⟩ := visit_records _ _ _ h hpath
    rw [List.nil_append] at e
    exact .inr ⟨by simpa using hl, e ▸ hq⟩

-- Symbols sent to the sink

theorem emitted_nil (k : Sink) : k.emitted [] = k := by
  simp [Sink.emitted, Memory.writeAll]

theorem writeAll_append (m : Memory) (a : Nat) (xs ys : List Byte) :
    m.writeAll a (xs ++ ys) = (m.writeAll a xs).writeAll (a + xs.length) ys := by
  induction xs generalizing m a with
  | nil => rfl
  | cons x xs ih => rw [List.cons_append, Memory.writeAll, ih, Memory.writeAll, List.length_cons, Nat.add_assoc, Nat.add_comm 1]

theorem emitted_outCount {k : Sink} {xs : List Byte} (h : k.Ready xs.length) :
    (k.emitted xs).outCount.toNat = k.outCount.toNat + xs.length := by
  obtain ⟨-, h64, -⟩ := h
  simp only [Sink.emitted, BitVec.toNat_add, BitVec.toNat_ofNat]; omega

theorem emitted_append {k : Sink} {xs : List Byte} (h : k.Ready xs.length) (ys : List Byte) :
    (k.emitted xs).emitted ys = k.emitted (xs ++ ys) := by
  have hc := emitted_outCount h
  rw [Sink.emitted, hc]
  simp only [Sink.emitted, writeAll_append, List.length_append, List.drop_drop, BitVec.add_assoc, BitVec.ofNat_add]

theorem emitted_ready {k : Sink} {xs : List Byte} {n : Nat} (h : k.Ready (xs.length + n)) :
    (k.emitted xs).Ready n := by
  obtain ⟨hcap, h64, hf⟩ := h
  have hc := emitted_outCount (k := k) (xs := xs) ⟨by omega, by omega, fun f hx =>
    hf f (List.take_subset_take_left _ (Nat.le_add_right _ _) hx)⟩
  refine ⟨by rw [hc, Nat.add_assoc]; exact hcap, by rw [hc]; omega, fun f hx => hf f ?_⟩
  simp only [Sink.emitted, List.take_drop] at hx
  exact List.drop_subset _ _ hx

theorem emitSymbol_ready {x : Stream} (h : x.snk.Ready 1) (b : Byte) :
    emitSymbol b x = .ok () { x with snk := x.snk.emitted [b], symCnt := x.symCnt + 1 } := by
  rw [emitSymbol, sinkWrite_ready h]
  simp only [Sink.emitted, Memory.writeAll, List.length_singleton, List.drop_one]
  rfl

-- The walk of DEC_PAYLOAD

/-- A walk that has emitted all its symbols is over (R190). -/
theorem walkLoop_done (t : Tree) {total : Wide} (n : Nat) {x : Stream} (h : total.toNat ≤ x.symCnt.toNat) :
    walkLoop t total n x = .ok () x := by
  cases n <;> rw [walkLoop, if_pos h]

/-- One bit of the walk (R190): the next bit of the stream. -/
theorem walkLoop_bit (t : Tree) {total : Wide} {x : Stream} {d : Bool} {u : List Bool} (hf : x.src.NoFault)
    (h8 : x.src.rcnt.toNat ≤ 8) (hah : x.src.ahead = d :: u) (ht : x.symCnt.toNat < total.toNat) :
    ∃ q, x.src.Consumed 1 q ∧ ∀ n, walkLoop t total (n + 1) x =
      (walkBit t d { x with src := q }).bind fun _ x' => walkLoop t total n x' := by
  have h0 : x.src.rcnt ≠ 0 := fun e => by rw [ahead_nil e] at hah; cases hah
  obtain ⟨q, e, htop, hc⟩ := readBit_consumed hf h8 h0
  have hd : x.src.rbuf.msb = d := by rw [hah] at htop; exact (List.cons.inj htop).1.symm
  refine ⟨q, hc, fun n => ?_⟩
  rw [walkLoop, if_neg (by omega), e, hd]
  rfl

/-- One bit at an internal node `i` (R190). -/
theorem walkBit_child {t : Tree} (hr : (t.node t.root).leaf = false) {x : Stream} {i : NodeIx} (hx : x.cur = some i)
    (d : Bool) :
    walkBit t d x =
      if (t.node (t.child i d)).leaf then
        (emitSymbol (t.node (t.child i d)).sym { x with cur := some (t.child i d) }).bind
          fun _ x' => .ok () { x' with cur := some t.root }
      else .ok () { x with cur := some (t.child i d) } := by
  rw [walkBit, if_neg (by simp [hr]), hx]
  rfl

/-- A bit that leads to a leaf emits its symbol (R190). -/
theorem walkBit_leaf {t : Tree} (hr : (t.node t.root).leaf = false) {x : Stream} {i : NodeIx} (hx : x.cur = some i)
    {d : Bool} (hl : (t.node (t.child i d)).leaf = true) (hk : x.snk.Ready 1) :
    walkBit t d x =
      .ok () { x with
        snk := x.snk.emitted [(t.node (t.child i d)).sym], symCnt := x.symCnt + 1, cur := some t.root } := by
  rw [walkBit_child hr hx, if_pos hl, emitSymbol_ready (x := { x with cur := some (t.child i d) }) hk]
  rfl

/-- A bit of a tree of one leaf (R191). -/
theorem walkBit_single {t : Tree} (hr : (t.node t.root).leaf = true) (d : Bool) {x : Stream} (hk : x.snk.Ready 1) :
    walkBit t d x = .ok () { x with snk := x.snk.emitted [(t.node t.root).sym], symCnt := x.symCnt + 1 } := by
  rw [walkBit, if_pos hr, emitSymbol_ready hk]

/-- The walk has taken the bits `u` and with them emitted the symbols `xs`, and is back at the root. -/
def Walked (t : Tree) (total : Wide) (x : Stream) (u : List Bool) (xs : List Byte) : Prop :=
  ∃ q, x.src.Consumed u.length q ∧ ∀ n, walkLoop t total (u.length + n) x =
    walkLoop t total n
      { src := q, snk := x.snk.emitted xs, symCnt := x.symCnt + BitVec.ofNat 64 xs.length, cur := some t.root }

/-- The walk along a path to a leaf (R190). -/
theorem walked_path {t : Tree} (hr : (t.node t.root).leaf = false) {total : Wide} {i j : NodeIx} {u : Code}
    (h : t.Path i u j) (hi : (t.node i).leaf = false) (hj : (t.node j).leaf = true) {x : Stream} (hx : x.cur = some i)
    (hf : x.src.NoFault) (h8 : x.src.rcnt.toNat ≤ 8) {rest : List Bool} (hah : x.src.ahead = u ++ rest)
    (ht : x.symCnt.toNat < total.toNat) (hk : x.snk.Ready 1) :
    Walked t total x u [(t.node j).sym] := by
  induction h generalizing x with
  | nil i => rw [hi] at hj; cases hj
  | @cons i j d u _ hsub ih =>
    obtain ⟨q, hc, hstep⟩ := walkLoop_bit t hf h8 hah ht
    by_cases hl : (t.node (t.child i d)).leaf = true
    · obtain ⟨rfl, rfl⟩ := hsub.eq_of_leaf hl
      refine ⟨q, hc, fun n => ?_⟩
      rw [List.length_singleton, Nat.add_comm, hstep, walkBit_leaf hr (x := { x with src := q }) hx hl hk]
      rfl
    · have hl' : (t.node (t.child i d)).leaf = false := by simpa using hl
      obtain ⟨q', hc', hrest⟩ := ih hl' hj (x := { x with src := q, cur := some (t.child i d) }) rfl
        (NoFault.of_consumed hf hc) hc.short (by rw [hc.ahead, hah]; rfl) ht hk
      refine ⟨q', by rw [List.length_cons, Nat.add_comm]; exact hc.trans hc', fun n => ?_⟩
      rw [List.length_cons, Nat.add_right_comm, hstep, walkBit_child hr (x := { x with src := q }) hx, if_neg hl]
      exact hrest n

/-- The walk of a tree of one leaf takes one bit, of any value, for its symbol (R191). -/
theorem walked_single {t : Tree} (hr : (t.node t.root).leaf = true) {total : Wide} {x : Stream}
    (hx : x.cur = some t.root) (hf : x.src.NoFault) (h8 : x.src.rcnt.toNat ≤ 8) {d : Bool} {rest : List Bool}
    (hah : x.src.ahead = d :: rest) (ht : x.symCnt.toNat < total.toNat) (hk : x.snk.Ready 1) :
    Walked t total x [d] [(t.node t.root).sym] := by
  obtain ⟨q, hc, hstep⟩ := walkLoop_bit t hf h8 hah ht
  refine ⟨q, hc, fun n => ?_⟩
  rw [List.length_singleton, Nat.add_comm, hstep, walkBit_single hr d (x := { x with src := q }) hk, ← hx]
  rfl

/-- The walk from the root along the code of a symbol. -/
theorem walked_code {f : FreqTable} {c : CodeMap} (h : (Tree.build f).genCodes = some c) {b : Byte}
    (hb : f.entry b ≠ 0) {total : Wide} {x : Stream} (hx : x.cur = some (Tree.build f).root) (hf : x.src.NoFault)
    (h8 : x.src.rcnt.toNat ≤ 8) {rest : List Bool} (hah : x.src.ahead = c.code b ++ rest)
    (ht : x.symCnt.toNat < total.toNat) (hk : x.snk.Ready 1) :
    Walked (Tree.build f) total x (c.code b) [b] := by
  rcases genCodes_code h hb with ⟨hr, hs, hcode⟩ | ⟨hr, j, hp, hj, hs⟩
  · rw [hcode] at hah ⊢
    exact hs ▸ walked_single hr hx hf h8 hah ht hk
  · exact hs ▸ walked_path hr hp hr hj hx hf h8 hah ht hk

/-- The walk along the codes of symbols (R190). -/
theorem walked_codes {f : FreqTable} {c : CodeMap} (h : (Tree.build f).genCodes = some c) {total : Wide}
    (xs : List Byte) (hxs : ∀ b ∈ xs, f.entry b ≠ 0) {x : Stream} (hx : x.cur = some (Tree.build f).root)
    (hf : x.src.NoFault) (h8 : x.src.rcnt.toNat ≤ 8) {rest : List Bool} (hah : x.src.ahead = payloadBits c xs ++ rest)
    (ht : x.symCnt.toNat + xs.length ≤ total.toNat) (hk : x.snk.Ready xs.length) :
    Walked (Tree.build f) total x (payloadBits c xs) xs := by
  induction xs generalizing x with
  | nil =>
    refine ⟨x.src, consumed_zero h8, fun n => ?_⟩
    rw [emitted_nil, ← hx]
    simp [payloadBits]
  | cons b xs ih =>
    have hbits : payloadBits c (b :: xs) = c.code b ++ payloadBits c xs := List.flatMap_cons
    rw [List.length_cons] at ht hk
    rw [hbits, List.append_assoc] at hah
    have h1 : x.snk.Ready 1 := hk.mono (by omega)
    have htotal := total.isLt
    have hcnt : (x.symCnt + 1).toNat = x.symCnt.toNat + 1 := by rw [BitVec.toNat_add]; simp; omega
    obtain ⟨q1, c1, e1⟩ := walked_code h (hxs b (List.mem_cons_self ..)) hx hf h8 hah (total := total) (by omega) h1
    obtain ⟨q2, c2, e2⟩ := ih (fun b hb => hxs b (List.mem_cons_of_mem _ hb))
      (x := { src := q1, snk := x.snk.emitted [b], symCnt := x.symCnt + 1, cur := some (Tree.build f).root }) rfl
      (NoFault.of_consumed hf c1) c1.short (by rw [c1.ahead, hah, List.drop_left]) (by simp only [hcnt]; omega)
      (emitted_ready (xs := [b]) (by rw [List.length_singleton, Nat.add_comm]; exact hk))
    refine ⟨q2, by rw [hbits, List.length_append]; exact c1.trans c2, fun n => ?_⟩
    rw [hbits, List.length_append, Nat.add_assoc, e1]
    refine (e2 n).trans ?_
    simp only [emitted_append (xs := [b]) h1, add_one_ofNat]
    rfl

/-- The bits ahead are no more than the walk's bound (R190). -/
theorem ahead_length_le (q : Source) : q.ahead.length ≤ q.bitsAhead := by
  rw [Source.ahead, Source.bitsAhead]
  split
  · exact Nat.zero_le _
  · have h8 : (q.unfetched.flatMap byteBits).length = 8 * (q.inLen.toNat - q.srcPos.toNat) := by
      simp [List.length_flatMap, Source.unfetched, Nat.mul_comm]
    rw [List.length_append, h8, List.length_take, byteBits_length]
    omega

theorem sum_pos {f : FreqTable} (h : f.nonzero = true) : 0 < f.sum := by
  obtain ⟨x, hx, hne⟩ := List.any_eq_true.1 h
  have hpos : 0 < x.toNat := Nat.pos_of_ne_zero fun e => (by simpa using hne : x ≠ 0) (BitVec.eq_of_toNat_eq e)
  exact lt_of_lt_of_le hpos (List.le_sum_of_mem (List.mem_map_of_mem hx))

/-- The ports, SYMCNT and CUR where the walk starts (R44, R190). -/
def State.walkStart (s : State) : Stream := { src := s.src, snk := s.snk, symCnt := 0, cur := some s.tree.root }

/-- DEC_PAYLOAD past its checks (R190, R228). -/
theorem bodyDecPayload_walk {s : State} (hn : s.freq.total ≠ 0) (hr : s.src.rdValid = true)
    (hv : s.tree.treeValid = true) :
    bodyDecPayload s = (walkLoop s.tree s.freq.total s.src.bitsAhead s.walkStart).within
      fun x => s.withStream { x with cur := none } := by
  rw [bodyDecPayload, if_neg hn, if_pos (by rw [hr, hv]; rfl)]
  rfl

theorem total_ne_zero {f : FreqTable} (h : f.nonzero = true) : f.total ≠ 0 := fun e => by
  have := sum_pos h
  rw [← total_toNat, e] at this
  exact absurd this (by decide)

/-- Settles O49: the walk along the codes (`walked_codes`) ends with SYMCNT at TOTAL. -/
theorem decPayloadEmitsTheSymbols : Obligations.DecPayloadEmitsTheSymbols := by
  intro s c xs rest hrd h8 hf hv htree hgen hxs hlen hah hk
  obtain ⟨hnz, ht⟩ := htree.tree hv
  have htotal := total_toNat s.freq
  rw [ht] at hgen
  have hw : Walked (Tree.build s.freq) s.freq.total s.walkStart (payloadBits c xs) xs :=
    walked_codes hgen xs hxs (by rw [← ht]; rfl) hf h8 hah (by rw [htotal, hlen]; simp [State.walkStart]) hk
  rw [← ht] at hw
  obtain ⟨q, hc, hwalk⟩ := hw
  refine ⟨q, ?_, hc⟩
  obtain ⟨n, hn⟩ : ∃ n, s.src.bitsAhead = (payloadBits c xs).length + n := by
    have := ahead_length_le s.src
    rw [hah, List.length_append] at this
    exact ⟨_, (Nat.add_sub_cancel' (by omega)).symm⟩
  have hcnt : s.walkStart.symCnt + BitVec.ofNat 64 xs.length = BitVec.ofNat 64 xs.length := zero_add _
  have hdone : s.freq.total.toNat ≤ (BitVec.ofNat 64 xs.length).toNat := by
    have := s.freq.total.isLt
    rw [BitVec.toNat_ofNat]; omega
  rw [exec_eq_finish, bodyOf, bodyDecPayload_walk (total_ne_zero hnz) hrd hv, hn, hwalk, hcnt, walkLoop_done _ _ hdone]
  rfl

end Sys2Proof.Machine

/-! SUPPORT. HDR_READ (41_frequency_header.md R134): its two passes over a header that stands ahead, canonical or not, and over
the beginning of one; and the same after RD_INIT, in DECODE. -/

namespace Sys2Proof.Machine

/-- A field read from a stream that begins with it (R75, R115). -/
theorem readBits_field {n : Nat} (hn : n ≤ 32) {v : Word} (hv : v.toNat < 2 ^ n) {q : Source} (h : q.NoFault)
    (h8 : q.rcnt.toNat ≤ 8) {rest : List Bool} (hah : q.ahead = fieldBits n v ++ rest) :
    ∃ q', readBits n q = .ok v q' ∧ q.Consumed n q' ∧ q'.ahead = rest := by
  have hl := fieldBits_length n v
  obtain ⟨q', e, hc⟩ := readBits_consumed (n := n) h h8 (by rw [hah, List.length_append]; omega)
  rw [hah, List.take_left' hl] at e
  have hval : shiftIn 0 (fieldBits n v) = v := by
    apply BitVec.eq_of_toNat_eq
    rw [shiftIn_zero_toNat (by omega), bitsValue_fieldBits, Nat.mod_eq_of_lt hv]
  exact ⟨q', hval ▸ e, hc, by rw [hc.ahead, hah, List.drop_left' hl]⟩

-- The classes

/-- The bits of the classes of a header (R79, R133). -/
def classBits (cs : List (BitVec 2)) : List Bool := cs.flatMap fun c => fieldBits 2 (c.setWidth 32)

theorem classBits_length (cs : List (BitVec 2)) : (classBits cs).length = 2 * cs.length := by
  induction cs with
  | nil => rfl
  | cons c cs ih =>
    have e : classBits (c :: cs) = fieldBits 2 (c.setWidth 32) ++ classBits cs := List.flatMap_cons
    rw [e, List.length_append, fieldBits_length, ih, List.length_cons]; omega

/-- Pass 1 over classes that stand ahead (R134). -/
theorem readClasses_classes (cs acc : List (BitVec 2)) {q : Source} (h : q.NoFault) (h8 : q.rcnt.toNat ≤ 8)
    {rest : List Bool} (hah : q.ahead = classBits cs ++ rest) :
    ∃ q', readClasses cs.length acc q = .ok () (q', acc ++ cs) ∧ q.Consumed (classBits cs).length q' := by
  induction cs generalizing acc q with
  | nil => exact ⟨q, by rw [List.append_nil]; rfl, consumed_zero h8⟩
  | cons c cs ih =>
    have hbits : classBits (c :: cs) = fieldBits 2 (c.setWidth 32) ++ classBits cs := List.flatMap_cons
    rw [hbits, List.append_assoc] at hah
    have hv : (c.setWidth 32).toNat < 2 ^ 2 := by have := c.isLt; rw [BitVec.toNat_setWidth]; omega
    obtain ⟨q1, e1, c1, a1⟩ := readBits_field (by omega) hv h h8 hah
    obtain ⟨q2, e2, c2⟩ := ih (acc ++ [c]) (NoFault.of_consumed h c1) c1.short a1
    have hc : (c.setWidth 32).setWidth 2 = c := by
      apply BitVec.eq_of_toNat_eq
      have := c.isLt
      simp only [BitVec.toNat_setWidth]; omega
    refine ⟨q2, ?_, by rw [hbits, List.length_append, fieldBits_length]; exact c1.trans c2⟩
    rw [List.length_cons, readClasses_succ, e1, within_ok, bind_ok, hc, e2, List.append_assoc]
    rfl

/-- Pass 1 over a stream that ends before the classes do (R134, R224). -/
theorem readClasses_truncated (n : Nat) (acc : List (BitVec 2)) {q : Source} (h : q.NoFault) (h8 : q.rcnt.toNat ≤ 8)
    (hn : q.ahead.length < 2 * n) :
    ∃ q' acc', readClasses n acc q = .err .truncatedStream (q', acc') ∧ q.Consumed q.ahead.length q' ∧ q'.rcnt = 0 := by
  induction n generalizing acc q with
  | zero => omega
  | succ n ih =>
    rw [readClasses_succ]
    by_cases h2 : q.ahead.length < 2
    · obtain ⟨q1, e1, c1, r1⟩ := readBitsFrom_truncated 2 0 h h8 h2
      exact ⟨q1, acc, by rw [readBits, e1]; rfl, c1, r1⟩
    · obtain ⟨q1, e1, c1⟩ := readBits_consumed (n := 2) h h8 (by omega)
      have hl : q1.ahead.length = q.ahead.length - 2 := by rw [c1.ahead, List.length_drop]
      obtain ⟨q2, acc2, e2, c2, r2⟩ := ih (acc ++ [(shiftIn 0 (q.ahead.take 2)).setWidth 2])
        (NoFault.of_consumed h c1) c1.short (by omega)
      refine ⟨q2, acc2, by rw [e1]; exact e2, ?_, r2⟩
      have := c1.trans c2
      rwa [hl, show 2 + (q.ahead.length - 2) = q.ahead.length by omega] at this

-- The values

/-- The bits of the values of a header, symbol by symbol (R79, R134). -/
def valueFields (cs : List (BitVec 2)) (f : FreqTable) : List (List Bool) :=
  List.zipWith (fun c x => fieldBits (classWidth c) x) cs f.toList

theorem headerWith_eq (cs : List (BitVec 2)) (f : FreqTable) :
    headerWith cs f = classBits cs ++ (valueFields cs f).flatten := rfl

/-- `g` holds the values of the first `m` symbols of `f`, and 0 for the others. -/
def FreqTable.Upto (f : FreqTable) (m : Nat) (g : FreqTable) : Prop :=
  ∀ b : Byte, g.entry b = if b.toNat < m then f.entry b else 0

theorem upto_zero (f : FreqTable) : f.Upto 0 FreqTable.zero := fun b => entry_zero b

theorem upto_all {f g : FreqTable} (h : f.Upto 256 g) : g = f := by
  apply Vector.ext
  intro i hi
  have := h (BitVec.ofNat 8 i)
  simpa [FreqTable.entry, Nat.mod_eq_of_lt hi, hi] using this

theorem upto_succ_set {f g : FreqTable} {m : Nat} (hm : m < 256) (h : f.Upto m g) :
    f.Upto (m + 1) (g.setEntry (BitVec.ofNat 8 m) (f.entry (BitVec.ofNat 8 m))) := by
  intro b
  have hb : b = BitVec.ofNat 8 m ↔ b.toNat = m := by
    rw [BitVec.toNat_eq, BitVec.toNat_ofNat, Nat.mod_eq_of_lt (show m < 2 ^ 8 by omega)]
  rw [entry_setEntry, h b]
  by_cases e : b = BitVec.ofNat 8 m
  · rw [if_pos e, if_pos (by have := hb.1 e; omega), e]
  · have hne : b.toNat ≠ m := fun x => e (hb.2 x)
    rw [if_neg e]
    exact if_congr (by omega) rfl rfl

theorem upto_succ_skip {f g : FreqTable} {m : Nat} (h : f.Upto m g)
    (h0 : f.entry (BitVec.ofNat 8 m) = 0) : f.Upto (m + 1) g := by
  intro b
  rw [h b]
  by_cases e : b.toNat = m
  · have hb : b = BitVec.ofNat 8 m := by rw [← e, BitVec.ofNat_toNat, BitVec.setWidth_eq]
    rw [hb, h0, ite_self, ite_self]
  · exact if_congr (by omega) rfl rfl

theorem classWidth_le (c : BitVec 2) : classWidth c ≤ 32 := by revert c; decide

section
variable {cs : List (BitVec 2)} {f : FreqTable} (hfit : ClassesFit cs f)
include hfit

theorem valueFields_length : (valueFields cs f).length = 256 := by
  simp [valueFields, hfit.1]

theorem valueFields_getElem {m : Nat} (hm : m < 256) :
    (valueFields cs f)[m]'(by rw [valueFields_length hfit]; exact hm) =
      fieldBits (classWidth (cs[m]'(by rw [hfit.1]; exact hm))) (f.entry (BitVec.ofNat 8 m)) := by
  simp [valueFields, FreqTable.entry, Nat.mod_eq_of_lt hm]

/-- A value fits its field (R131). -/
theorem value_fits {m : Nat} (hm : m < 256) :
    (f.entry (BitVec.ofNat 8 m)).toNat < 2 ^ classWidth (cs[m]'(by rw [hfit.1]; exact hm)) := by
  have hl : m < cs.length := by rw [hfit.1]; exact hm
  have := hfit.2 (BitVec.ofNat 8 m)
  rwa [BitVec.toNat_ofNat, Nat.mod_eq_of_lt (show m < 2 ^ 8 by omega), List.getD_eq_getElem _ _ hl] at this

/-- `n` values of pass 2 from symbol `m` on, where they stand ahead (R134). -/
theorem readValues_scan (n : Nat) {m : Nat} (hmn : m + n ≤ 256) {q : Source} (h : q.NoFault) (h8 : q.rcnt.toNat ≤ 8)
    {g : FreqTable} (hg : f.Upto m g) {rest : List Bool}
    (hah : q.ahead = (((valueFields cs f).drop m).take n).flatten ++ rest) :
    ∃ q' g', readValues (cs.drop m) m (q, g) = readValues (cs.drop (m + n)) (m + n) (q', g') ∧ f.Upto (m + n) g' ∧
      q.Consumed (((valueFields cs f).drop m).take n).flatten.length q' ∧ q'.ahead = rest := by
  induction n generalizing m q g with
  | zero => exact ⟨q, g, rfl, hg, consumed_zero h8, hah⟩
  | succ n ih =>
    have hm : m < 256 := by omega
    have hl : m < cs.length := by rw [hfit.1]; exact hm
    have hbits : (((valueFields cs f).drop m).take (n + 1)).flatten =
        fieldBits (classWidth cs[m]) (f.entry (BitVec.ofNat 8 m)) ++
          (((valueFields cs f).drop (m + 1)).take n).flatten := by
      rw [List.drop_eq_getElem_cons (by rw [valueFields_length hfit]; exact hm), List.take_succ_cons,
        valueFields_getElem hfit hm, List.flatten_cons]
    rw [hbits, List.append_assoc] at hah
    rw [hbits, List.length_append, fieldBits_length, List.drop_eq_getElem_cons hl, ← Nat.add_assoc, Nat.add_right_comm]
    have hv := value_fits hfit hm
    by_cases hc : cs[m] = 0
    · have hw : classWidth cs[m] = 0 := by rw [hc]; rfl
      rw [hw] at hv hah
      have h0 : f.entry (BitVec.ofNat 8 m) = 0 := BitVec.eq_of_toNat_eq (Nat.lt_one_iff.1 hv)
      rw [hw, Nat.zero_add, hc, readValues_cons_zero]
      exact ih (by omega) h h8 (upto_succ_skip hg h0) hah
    · obtain ⟨q1, e1, c1, a1⟩ := readBits_field (classWidth_le _) hv h h8 hah
      obtain ⟨q2, g2, e2, u2, c2, a2⟩ := ih (m := m + 1) (by omega) (NoFault.of_consumed h c1) c1.short
        (upto_succ_set hm hg) a1
      exact ⟨q2, g2, by rw [readValues_cons hc, e1]; exact e2, u2, c1.trans c2, a2⟩

/-- Pass 2 over all the values (R134). -/
theorem readValues_values {q : Source} (h : q.NoFault) (h8 : q.rcnt.toNat ≤ 8) {rest : List Bool}
    (hah : q.ahead = (valueFields cs f).flatten ++ rest) :
    ∃ q', readValues cs 0 (q, FreqTable.zero) = .ok () (q', f) ∧ q.Consumed (valueFields cs f).flatten.length q' := by
  have hall : ((valueFields cs f).drop 0).take 256 = valueFields cs f :=
    List.take_of_length_le (Nat.le_of_eq (valueFields_length hfit))
  have hscan := readValues_scan hfit 256 (m := 0) (Nat.le_refl _) h h8 (upto_zero f) (rest := rest) (by rw [hall]; exact hah)
  rw [hall] at hscan
  obtain ⟨q', g, e, hg, hc, -⟩ := hscan
  refine ⟨q', ?_, hc⟩
  rw [upto_all hg] at e
  exact e.trans (by rw [List.drop_of_length_le (Nat.le_of_eq hfit.1), readValues])

end

/-- A beginning of the concatenation of some lists ends within one of them. -/
theorem flatten_cut {α : Type} {vs : List (List α)} {as rest : List α} (h : vs.flatten = as ++ rest) (hr : rest ≠ []) :
    ∃ (m : Nat) (hm : m < vs.length) (u : List α), as = (vs.take m).flatten ++ u ∧ u.length < vs[m].length := by
  induction vs generalizing as with
  | nil => exact absurd (List.append_eq_nil_iff.1 h.symm).2 hr
  | cons v vs ih =>
    rw [List.flatten_cons] at h
    rcases List.append_eq_append_iff.1 h with ⟨w, rfl, hw⟩ | ⟨w, rfl, rfl⟩
    · obtain ⟨m, hm, u, rfl, hu⟩ := ih hw
      exact ⟨m + 1, Nat.succ_lt_succ hm, u, by simp, hu⟩
    · cases w with
      | nil =>
        obtain ⟨m, hm, u, e, hu⟩ := ih (as := []) rfl
        exact ⟨m + 1, Nat.succ_lt_succ hm, u, by simpa using e, hu⟩
      | cons x w => exact ⟨0, Nat.zero_lt_succ _, as, rfl, by simp⟩

/-- The widths of the first `m` values (R131). -/
def widthSum (cs : List (BitVec 2)) (m : Nat) : Nat := ((cs.take m).map classWidth).sum

theorem widthSum_succ {cs : List (BitVec 2)} {m : Nat} (h : m < cs.length) :
    widthSum cs (m + 1) = widthSum cs m + classWidth cs[m] := by
  rw [widthSum, List.take_succ_eq_append_getElem h, List.map_append, List.sum_append]
  rfl

theorem widthSum_mono {cs : List (BitVec 2)} {m n : Nat} (h : m ≤ n) : widthSum cs m ≤ widthSum cs n := by
  have hs : (cs.take m).Sublist (cs.take n) := List.take_sublist_take_left h
  exact (hs.map classWidth).sum_le_sum fun _ _ => Nat.zero_le _

theorem valueFields_take_length {cs : List (BitVec 2)} {f : FreqTable} (hfit : ClassesFit cs f) {m : Nat}
    (hm : m ≤ 256) : ((valueFields cs f).take m).flatten.length = widthSum cs m := by
  induction m with
  | zero => rfl
  | succ m ih =>
    rw [List.take_succ_eq_append_getElem (by rw [valueFields_length hfit]; omega), List.flatten_concat,
      List.length_append, ih (by omega), valueFields_getElem hfit (by omega), fieldBits_length,
      widthSum_succ (by rw [hfit.1]; omega)]

/-- Pass 2 over a stream that ends before the values do (R134, R224): the values read whole are in FREQ. -/
theorem readValues_truncated {cs : List (BitVec 2)} {f : FreqTable} (hfit : ClassesFit cs f) {q : Source}
    (h : q.NoFault) (h8 : q.rcnt.toNat ≤ 8) {rest : List Bool} (hah : (valueFields cs f).flatten = q.ahead ++ rest)
    (hr : rest ≠ []) :
    ∃ q' g, readValues cs 0 (q, FreqTable.zero) = .err .truncatedStream (q', g) ∧
      (∀ b : Byte, g.entry b = if valueEnd cs b ≤ 512 + q.ahead.length then f.entry b else 0) ∧
      q.Consumed q.ahead.length q' ∧ q'.rcnt = 0 := by
  obtain ⟨m, hm, u, hu, hlt⟩ := flatten_cut hah hr
  have hm' : m < 256 := by rwa [valueFields_length hfit] at hm
  have hl : m < cs.length := by rw [hfit.1]; exact hm'
  obtain ⟨q1, g, e1, hg, c1, a1⟩ := readValues_scan hfit m (m := 0) (by omega) h h8 (upto_zero f) hu
  rw [valueFields_getElem hfit hm', fieldBits_length] at hlt
  have hc0 : cs[m] ≠ 0 := fun e => by rw [e] at hlt; exact absurd hlt (Nat.not_lt_zero _)
  obtain ⟨q2, e2, c2, r2⟩ := readBitsFrom_truncated (classWidth cs[m]) 0 (NoFault.of_consumed h c1) c1.short
    (by rw [a1]; exact hlt)
  have hlen : q.ahead.length = widthSum cs m + u.length := by
    rw [hu, List.length_append, valueFields_take_length hfit (by omega)]
  rw [Nat.zero_add] at e1 hg
  refine ⟨q2, g, ?_, fun b => ?_, ?_, r2⟩
  · refine e1.trans ?_
    rw [List.drop_eq_getElem_cons hl, readValues_cons hc0, readBits, e2]; rfl
  · rw [hg b]
    have hsucc := widthSum_succ hl
    have hend : valueEnd cs b = 512 + widthSum cs (b.toNat + 1) := rfl
    refine if_congr ⟨fun hb => ?_, fun hb => ?_⟩ rfl rfl
    · have := widthSum_mono (cs := cs) (show b.toNat + 1 ≤ m by omega)
      omega
    · by_contra hge
      have := widthSum_mono (cs := cs) (show m + 1 ≤ b.toNat + 1 by omega)
      omega
  · have := c1.trans c2
    rwa [List.drop_zero, a1, valueFields_take_length hfit (by omega), ← hlen] at this

-- The whole command

/-- HDR_READ once its classes are read (R134). -/
theorem bodyHdrRead_of_classes {s : State} (hv : s.src.rdValid = true) {cs : List (BitVec 2)} {q : Source}
    (h : readClasses 256 [] s.src = .ok () (q, cs)) :
    bodyHdrRead s = (readValues cs 0 (q, FreqTable.zero)).within
      fun p => { s.withFreq p.2 with src := p.1, cls := none } := by
  rw [bodyHdrRead, if_pos hv, hdrClasses, withFreq_src, h]
  rfl

/-- HDR_READ where its classes do not end (R134, R230). -/
theorem bodyHdrRead_of_truncated {s : State} (hv : s.src.rdValid = true) {cs : List (BitVec 2)} {q : Source}
    (h : readClasses 256 [] s.src = .err .truncatedStream (q, cs)) :
    bodyHdrRead s = .err .truncatedStream { s.withFreq FreqTable.zero with src := q, cls := some cs } := by
  rw [bodyHdrRead, if_pos hv, hdrClasses, withFreq_src, h]
  rfl

theorem classBits_fit {cs : List (BitVec 2)} {f : FreqTable} (hfit : ClassesFit cs f) : (classBits cs).length = 512 := by
  rw [classBits_length, hfit.1]

/-- HDR_READ of a header that stands ahead (R134). -/
theorem bodyHdrRead_ok {s : State} (hv : s.src.rdValid = true) (h8 : s.src.rcnt.toNat ≤ 8) (h : s.src.NoFault)
    {cs : List (BitVec 2)} {f : FreqTable} (hfit : ClassesFit cs f) {rest : List Bool}
    (hah : s.src.ahead = headerWith cs f ++ rest) :
    ∃ q, bodyHdrRead s = .ok () { s.withFreq f with src := q, cls := none } ∧
      s.src.Consumed (headerWith cs f).length q := by
  rw [headerWith_eq, List.append_assoc] at hah
  obtain ⟨q1, e1, c1⟩ := readClasses_classes cs [] h h8 hah
  rw [hfit.1, List.nil_append] at e1
  obtain ⟨q2, e2, c2⟩ := readValues_values hfit (NoFault.of_consumed h c1) c1.short (rest := rest)
    (by rw [c1.ahead, hah, List.drop_left])
  exact ⟨q2, by rw [bodyHdrRead_of_classes hv e1, e2]; rfl,
    by rw [headerWith_eq, List.length_append]; exact c1.trans c2⟩

/-- HDR_READ of a stream of fewer than 512 bits (R134, R224). -/
theorem bodyHdrRead_short {s : State} (hv : s.src.rdValid = true) (h8 : s.src.rcnt.toNat ≤ 8) (h : s.src.NoFault)
    (hlt : s.src.ahead.length < 512) :
    ∃ q cs, bodyHdrRead s = .err .truncatedStream { s.withFreq FreqTable.zero with src := q, cls := some cs } ∧
      s.src.Consumed s.src.ahead.length q ∧ q.rcnt = 0 := by
  obtain ⟨q, cs, e, hc, hr⟩ := readClasses_truncated 256 [] h h8 hlt
  exact ⟨q, cs, bodyHdrRead_of_truncated hv e, hc, hr⟩

/-- HDR_READ of the beginning of a header and no more (R134, R224, R230). -/
theorem bodyHdrRead_truncated {s : State} (hv : s.src.rdValid = true) (h8 : s.src.rcnt.toNat ≤ 8) (h : s.src.NoFault)
    {cs : List (BitVec 2)} {f : FreqTable} (hfit : ClassesFit cs f) {rest : List Bool}
    (hah : headerWith cs f = s.src.ahead ++ rest) (hr : rest ≠ []) :
    ∃ q g cl, bodyHdrRead s = .err .truncatedStream { s.withFreq g with src := q, cls := cl } ∧
      (∀ b : Byte, g.entry b = if valueEnd cs b ≤ s.src.ahead.length then f.entry b else 0) ∧
      s.src.Consumed s.src.ahead.length q ∧ q.rcnt = 0 := by
  have h512 := classBits_fit hfit
  by_cases hlt : s.src.ahead.length < 512
  · obtain ⟨q, cl, e, hc, hq⟩ := bodyHdrRead_short hv h8 h hlt
    refine ⟨q, FreqTable.zero, some cl, e, fun b => ?_, hc, hq⟩
    have hend : 512 ≤ valueEnd cs b := Nat.le_add_right _ _
    rw [entry_zero, if_neg (by omega)]
  · obtain ⟨as, has⟩ : ∃ as, s.src.ahead = classBits cs ++ as := by
      rw [headerWith_eq] at hah
      have := congrArg (List.take 512) hah
      rw [List.take_left' h512, List.take_append_of_le_length (by omega)] at this
      exact ⟨s.src.ahead.drop 512, by rw [this, List.take_append_drop]⟩
    have hvals : (valueFields cs f).flatten = as ++ rest := by
      rw [headerWith_eq, has, List.append_assoc] at hah
      exact List.append_cancel_left hah
    obtain ⟨q1, e1, c1⟩ := readClasses_classes cs [] h h8 has
    have ha1 : q1.ahead = as := by rw [c1.ahead, has, List.drop_left]
    rw [hfit.1, List.nil_append] at e1
    obtain ⟨q2, g, e2, hg, c2, r2⟩ := readValues_truncated hfit (NoFault.of_consumed h c1) c1.short
      (by rw [ha1]; exact hvals) hr
    have hlen : s.src.ahead.length = 512 + q1.ahead.length := by rw [has, List.length_append, ha1, h512]
    refine ⟨q2, g, none, by rw [bodyHdrRead_of_classes hv e1, e2]; rfl, by rw [hlen]; exact hg, ?_, r2⟩
    rw [hlen, ← h512]
    exact c1.trans c2

-- RD_INIT in front of it

/-- The source where RD_INIT makes its first fetch (R118). -/
def Source.opened (q : Source) : Source := { q with srcPos := 0, rbuf := 0, rcnt := 0, reof := false, rdValid := true }

theorem bodyRdInit_eq (s : State) : bodyRdInit s = (fetch s.src.opened).within fun q => { s with src := q } := rfl

/-- After a fetch that succeeds, all the input is ahead (R113, R118). -/
theorem fetch_opened {q : Source} (h : q.NoFault) :
    ∃ q0, fetch q.opened = .ok () q0 ∧ q0.NoFault ∧ q0.rcnt.toNat ≤ 8 ∧ q0.rdValid = true ∧
      q0.ahead = q.input.flatMap byteBits := by
  by_cases hl : q.inLen.toNat = 0
  · refine ⟨{ q.opened with reof := true, rcnt := 0 }, ?_, h, Nat.zero_le _, rfl, ?_⟩
    · rw [fetch, srcRead_eof (by simp [Source.opened, hl])]
    · have : q.input = [] := List.eq_nil_of_length_eq_zero (by rw [input_length, hl])
      rw [ahead_nil rfl, this]; rfl
  · have hpos : 0 < q.inLen.toNat := Nat.pos_of_ne_zero hl
    refine ⟨{ q.opened with rbuf := q.inByte 0, rcnt := 8, srcPos := 1, faults := q.faults.tail }, ?_, NoFault.tail h,
      Nat.le_refl 8, rfl, ?_⟩
    · rw [fetch, srcRead_ok (q := q.opened) (by simpa [Source.opened] using hpos) h]; rfl
    · have hin : q.input = q.inByte 0 :: q.input.drop 1 := unfetched_cons (q := q.opened) hpos
      rw [hin, List.flatMap_cons, Source.ahead, if_neg eight_ne]
      rfl

theorem input_bits_length (q : Source) : (q.input.flatMap byteBits).length = 8 * q.inLen.toNat := by
  simp [List.length_flatMap, Nat.mul_comm]

/-- DECODE where HDR_READ raises (R192). -/
theorem bodyDecode_of_hdrRead {s : State} {q0 : Source} (h0 : fetch s.src.opened = .ok () q0) {k : ErrorKind} {t : State}
    (h : bodyHdrRead { s.freshSession with src := q0, stage := some 0x09 } = .err k t) : bodyDecode s = .err k t := by
  have e : bodyRdInit (s.freshSession.enterStage 0x04) =
      .ok () { s.freshSession.enterStage 0x04 with src := q0 } := by
    rw [bodyRdInit_eq]
    exact congrArg (Res.within · _) h0
  rw [bodyDecode, e, bind_ok]
  exact congrArg (Res.bind · _) h

/-- Settles O35: a whole header (`bodyHdrRead_ok`), or one cut short among its classes or its values
(`bodyHdrRead_truncated`), by itself and after RD_INIT. -/
theorem hdrReadParsesAHeader : Obligations.HdrReadParsesAHeader := by
  intro s
  refine ⟨fun hv h8 h => ⟨fun cs f rest hfit hah => ?_, fun hlt => ?_, fun cs f rest hfit hah hr => ?_⟩,
    fun cs f rest h hfit hah hr => ?_⟩
  · obtain ⟨q, e, hc⟩ := bodyHdrRead_ok hv h8 h hfit hah
    exact ⟨q, by rw [exec_eq_finish, bodyOf, e]; rfl, hc⟩
  · obtain ⟨q, cs, e, hc, hq⟩ := bodyHdrRead_short hv h8 h hlt
    exact ⟨q, by rw [exec_eq_finish, bodyOf, e]; rfl, hc, hq⟩
  · obtain ⟨q, g, cl, e, hg, hc, hq⟩ := bodyHdrRead_truncated hv h8 h hfit hah hr
    exact ⟨q, g, by rw [exec_eq_finish, bodyOf, e]; rfl, hg, hc, hq⟩
  · obtain ⟨q0, e0, h0, h8, hv, ha⟩ := fetch_opened h
    obtain ⟨q, g, cl, e, hg, hc, hq⟩ := bodyHdrRead_truncated (s := { s.freshSession with src := q0, stage := some 0x09 })
      hv h8 h0 hfit (by rw [ha]; exact hah) hr
    simp only [ha, input_bits_length] at hg hc
    refine ⟨q0, q, g, ?_, hc, hq, ?_, hg⟩
    · rw [exec_eq_finish, bodyOf, bodyRdInit_eq, e0]; rfl
    · rw [exec_eq_finish, bodyOf, bodyDecode_of_hdrRead e0 e]; rfl

end Sys2Proof.Machine

/-! SUPPORT. The accesses the model refuses, and that it refuses no others (20_memory.md R70, R76, R85). -/

namespace Sys2Proof.Machine

/-- What the block admits (R76). -/
theorem admitted_iff (base addr width : Nat) :
    admitted base addr width = true ↔
      width = 4 ∧ base ≤ addr ∧ addr < base + 0x800 ∧ (addr - base) % 4 = 0 := by
  simp only [admitted, Bool.and_eq_true, decide_eq_true_eq, beq_iff_eq]
  rw [Config.windowBytes]
  constructor
  · rintro ⟨⟨⟨hw, hlo⟩, hhi⟩, h4⟩
    exact ⟨hw, hlo, by omega, h4⟩
  · rintro ⟨hw, hlo, hhi, h4⟩
    exact ⟨⟨⟨hw, hlo⟩, by omega⟩, h4⟩

/-- An access outside that rule is refused (R76). -/
theorem step_not_admitted (s : State) {addr width : Nat} (h : ¬admitted s.host.base addr width = true) (v : Word) :
    step (s.issue (.memWrite addr width v)) = .refused (.hostAccessNotAdmitted addr width) ∧
      step (s.issue (.memRead addr width)) = .refused (.hostAccessNotAdmitted addr width) := by
  constructor
  · rw [step_issue, hostAct, if_neg h]; rfl
  · rw [step_issue, hostAct, if_neg h]; rfl

/-- A command completes, aborts or does not end; it refuses nothing. -/
theorem exec_ne_refused (i : Instr) (s : State) (r : Refusal) : exec i s ≠ .refused r := by
  rw [exec_eq_finish]
  cases bodyOf i s with
  | ok a t => exact nofun
  | err k t => exact nofun
  | stuck f => exact nofun

theorem runWord_ne_refused (w : Word) (s : State) (r : Refusal) : runWord exec w s ≠ .refused r := by
  rw [runWord]
  split
  · exact exec_ne_refused _ s r
  · exact nofun

/-- Neither does a write at an offset of the window (R76). -/
theorem settle_hostWrite_ne_refused (s : State) (off : Nat) (v : Word) (r : Refusal) :
    settleAct exec (hostWrite s off v) ≠ .refused r := by
  rw [hostWrite]
  split
  · split
    · exact nofun
    · exact runWord_ne_refused v _ r
  · split
    · exact nofun
    · exact nofun
  · exact nofun

/-- The platform's load of IN where it may make it (R70, R85). -/
theorem step_loadIn {s : State} (hb : s.status.busy = false) {a : Nat} {xs : List Byte}
    (h : a + xs.length ≤ 2 ^ 32 - 1) :
    step (s.issue (.loadIn a xs)) = .next (s.loadInput a xs) := by
  rw [step_issue, hostAct, if_neg (by simp [hb]), if_neg (Nat.not_lt.2 h : ¬Config.inMax < _)]
  rfl

/-- Settles O19: what is refused is what `admitted` and `hostAct` refuse, and IN after a load is `read_writeAll`. -/
theorem accessesTheModelRefuses : Obligations.AccessesTheModelRefuses := by
  intro s
  refine ⟨fun addr width v h => step_not_admitted s (fun ha => h ((admitted_iff ..).1 ha)) v,
    fun off v h4 h => ⟨fun r => ?_, fun r => ?_⟩, fun a xs hb => ?_, fun a xs hb h => ?_, fun a xs hb h => ?_⟩
  · rw [step_issueWrite s h4 h]
    exact settle_hostWrite_ne_refused s off v r
  · rw [step_issueRead s h4 h]
    exact nofun
  · rw [step_issue, hostAct, if_pos hb]; rfl
  · have hmax : Config.inMax < a + xs.length := h
    rw [step_issue, hostAct, if_neg (by simp [hb]), if_pos hmax]; rfl
  · exact ⟨s.src.inBuf.writeAll a xs, step_loadIn hb h, read_writeAll _ a xs⟩

end Sys2Proof.Machine

/-! SUPPORT. WR_BITS, HDR_WRITE and the pad of FLUSH as one bit sequence each (40_bitpack.md R111, R112, R116,
41_frequency_header.md R133), and the length of a header (20_memory.md R80). -/

namespace Sys2Proof.Machine

-- WR_BITS

/-- The counts the encoding admits (R92). -/
theorem countOk_of_le {n : BitVec 6} (h : n.toNat ≤ 32) : countOk n = true := decide_eq_true h

/-- A field of VALUE is VALUE's low bits (R93, R116). -/
theorem fieldBits_valueOperand {n : Nat} (hn : n ≤ 32) (v : Word) : fieldBits n (valueOperand n v) = fieldBits n v := by
  refine List.map_congr_left fun j hj => ?_
  have hlt : j < n := List.mem_range.1 hj
  have hbit : (BitVec.ofNat 32 (2 ^ n - 1)).getLsbD (n - 1 - j) = true := by
    rw [BitVec.getLsbD_ofNat, Nat.testBit_two_pow_sub_one]
    simp; omega
  rw [valueOperand, BitVec.getLsbD_and, hbit, Bool.and_true]

/-- WR_BITS with a count the encoding admits (R96, R116). -/
theorem bodyWrBits_eq {n : BitVec 6} (hn : n.toNat ≤ 32) (s : State) :
    bodyWrBits n s = (writeSeq (fieldBits n.toNat s.value) s.snk).within fun k => { s with snk := k } := by
  rw [bodyWrBits, if_pos (countOk_of_le hn), writeBits, countOperand,
    fieldBits_valueOperand hn]

/-- Settles O22: the field's bits are a bit sequence the writer appends (`writeSeq_appended`). -/
theorem wrBitsAppendsTheField : Obligations.WrBitsAppendsTheField := by
  intro n s hn hr
  obtain ⟨k, e, a⟩ := writeSeq_appended (fieldBits n.toNat s.value) (by rwa [fieldBits_length])
  refine ⟨k, by rw [exec_eq_finish, bodyOf, bodyWrBits_eq hn, e]; rfl, a, fun h0 => ?_⟩
  subst h0
  cases e
  rfl

-- The length of a header

/-- The width of a frequency's value in a header (R80, R131). -/
def headerWidth (x : Word) : Nat := classWidth ((sizeClass x).getD 0)

theorem headerWidth_bytes (x : Word) : headerWidth x = 8 * (headerWidth x / 8) ∧ headerWidth x / 8 ≤ 4 := by
  rw [headerWidth]
  generalize (sizeClass x).getD 0 = c
  revert c
  decide

/-- Only the frequency 0 takes no bits, but for the one that has no class (R130, R131). -/
theorem headerWidth_eq_zero {x : Word} (hx : x.toNat ≠ 2 ^ 32 - 1) : headerWidth x / 8 = 0 ↔ x = 0 := by
  have hlt := x.isLt
  have h0 : x = 0 ↔ x.toNat = 0 := BitVec.toNat_eq
  rw [h0, headerWidth, sizeClass]
  split
  · simp [*, classWidth]
  · split
    · simp [*, classWidth]
    · split
      · simp [*, classWidth]
      · rw [if_pos (by omega)]
        simp [*, classWidth]

theorem headerBytes_eq (f : FreqTable) : headerBytes f = 64 + (f.toList.map fun x => headerWidth x / 8).sum := rfl

/-- 256 classes of two bits, then a value for every symbol (R80). -/
theorem headerBits_length (f : FreqTable) : (headerBits f).length = 512 + (f.toList.map headerWidth).sum := by
  have hc : (f.toList.flatMap fun x => fieldBits 2 (((sizeClass x).getD 0).setWidth 32)).length = 512 := by
    simp only [List.length_flatMap, fieldBits_length, List.map_const', Vector.length_toList, List.sum_replicate]
    rfl
  have hv : (f.toList.flatMap fun x => fieldBits (classWidth ((sizeClass x).getD 0)) x).length =
      (f.toList.map headerWidth).sum := by
    simp only [List.length_flatMap, fieldBits_length]
    rfl
  rw [headerBits, List.length_append, hc, hv]

/-- A header is a whole number of bytes (R80). -/
theorem headerBits_length_bytes (f : FreqTable) : (headerBits f).length = 8 * headerBytes f := by
  have hsum : (f.toList.map headerWidth).sum = 8 * (f.toList.map fun x => headerWidth x / 8).sum := by
    rw [← List.sum_map_mul_left]
    exact congrArg List.sum (List.map_congr_left fun x _ => (headerWidth_bytes x).1)
  rw [headerBits_length, headerBytes_eq, hsum]; omega

theorem mem_toList_iff {f : FreqTable} {x : Word} : x ∈ f.toList ↔ ∃ b : Byte, f.entry b = x := by
  constructor
  · intro h
    obtain ⟨i, hi, rfl⟩ := List.getElem_of_mem h
    rw [Vector.length_toList] at hi
    exact ⟨BitVec.ofNat 8 i, by simp [FreqTable.entry, Nat.mod_eq_of_lt hi]⟩
  · rintro ⟨b, rfl⟩
    rw [Vector.mem_toList_iff]
    exact Vector.getElem_mem b.isLt

/-- Settles O34: the length is a sum over the symbols, each width 0 to 4 bytes (`headerWidth_bytes`). -/
theorem headerLengthIsWholeBytes : Obligations.HeaderLengthIsWholeBytes := by
  intro f hf
  refine ⟨?_, headerBits_length_bytes f, Nat.le_add_right 64 _, ?_, ?_⟩
  · rw [headerBits_length, ← map_entry f headerWidth]; rfl
  · have h := List.sum_le_card_nsmul (f.toList.map fun x => headerWidth x / 8) 4 (by
      intro n hn
      obtain ⟨x, -, rfl⟩ := List.mem_map.1 hn
      exact (headerWidth_bytes x).2)
    rw [headerBytes_eq]
    simp at h; omega
  · rw [headerBytes_eq, Nat.add_eq_left, List.sum_eq_zero_iff]
    constructor
    · intro h b
      exact (headerWidth_eq_zero (hf b)).1 (h _ (List.mem_map_of_mem (mem_toList_iff.2 ⟨b, rfl⟩)))
    · intro h n hn
      obtain ⟨x, hx, rfl⟩ := List.mem_map.1 hn
      obtain ⟨b, rfl⟩ := mem_toList_iff.1 hx
      exact (headerWidth_eq_zero (hf b)).2 (h b)

-- HDR_WRITE

/-- Some entry has no size class (R130, R133). -/
theorem outOfRange_iff (f : FreqTable) : f.outOfRange = true ↔ ∃ b : Byte, (f.entry b).toNat = 2 ^ 32 - 1 := by
  rw [FreqTable.outOfRange, List.any_eq_true]
  constructor
  · rintro ⟨x, hx, he⟩
    obtain ⟨b, rfl⟩ := mem_toList_iff.1 hx
    exact ⟨b, by rw [beq_iff_eq.1 he]; rfl⟩
  · rintro ⟨b, hb⟩
    exact ⟨_, mem_toList_iff.2 ⟨b, rfl⟩, beq_iff_eq.2 (BitVec.eq_of_toNat_eq hb)⟩

/-- Every frequency but 2^32 - 1 has a size class (R130). -/
theorem sizeClass_eq {x : Word} (hx : x.toNat ≠ 2 ^ 32 - 1) : sizeClass x = some ((sizeClass x).getD 0) := by
  have hlt := x.isLt
  rw [sizeClass]
  split
  · rfl
  · split
    · rfl
    · split
      · rfl
      · rw [if_pos (by omega)]; rfl

/-- Pass 1 of HDR_WRITE is one bit sequence (R133). -/
theorem writeClasses_eq (fs : List Word) (hfs : ∀ x ∈ fs, x.toNat ≠ 2 ^ 32 - 1) (k : Sink) :
    writeClasses fs k = writeSeq (fs.flatMap fun x => fieldBits 2 (((sizeClass x).getD 0).setWidth 32)) k := by
  induction fs generalizing k with
  | nil => rfl
  | cons x fs ih =>
    rw [writeClasses, sizeClass_eq (hfs x (List.mem_cons_self ..)), List.flatMap_cons, writeSeq_append]
    exact congrArg (Res.bind _) (funext fun _ => funext fun k' => ih (fun y hy => hfs y (List.mem_cons_of_mem _ hy)) k')

/-- So is pass 2 (R133). -/
theorem writeValues_eq (fs : List Word) (hfs : ∀ x ∈ fs, x.toNat ≠ 2 ^ 32 - 1) (k : Sink) :
    writeValues fs k = writeSeq (fs.flatMap fun x => fieldBits (classWidth ((sizeClass x).getD 0)) x) k := by
  induction fs generalizing k with
  | nil => rfl
  | cons x fs ih =>
    rw [writeValues, sizeClass_eq (hfs x (List.mem_cons_self ..)), List.flatMap_cons, writeSeq_append]
    exact congrArg (Res.bind _) (funext fun _ => funext fun k' => ih (fun y hy => hfs y (List.mem_cons_of_mem _ hy)) k')

/-- HDR_WRITE of a table it can write (R133). -/
theorem bodyHdrWrite_eq {s : State} (hf : ∀ b : Byte, (s.freq.entry b).toNat ≠ 2 ^ 32 - 1) :
    bodyHdrWrite s = (writeSeq (headerBits s.freq) s.snk).within fun k => { s with snk := k } := by
  have hall : ∀ x ∈ s.freq.toList, x.toNat ≠ 2 ^ 32 - 1 := fun x hx => by
    obtain ⟨b, rfl⟩ := mem_toList_iff.1 hx
    exact hf b
  have hr : ¬s.freq.outOfRange = true := fun h => by
    obtain ⟨b, hb⟩ := (outOfRange_iff _).1 h
    exact hf b hb
  rw [bodyHdrWrite, if_neg hr, headerBits, writeSeq_append, writeClasses_eq _ hall]
  exact congrArg (Res.within · _) (congrArg (Res.bind _) (funext fun _ => funext fun k => writeValues_eq _ hall k))

/-- Settles O33: both passes are the header's bits in one sequence (`bodyHdrWrite_eq`). -/
theorem hdrWriteAppendsTheHeader : Obligations.HdrWriteAppendsTheHeader := by
  intro s
  refine ⟨fun hf hr => ?_, fun h => ?_⟩
  · rw [← headerBits_length_bytes] at hr
    obtain ⟨k, e, a⟩ := writeSeq_appended _ hr
    exact ⟨k, by rw [exec_eq_finish, bodyOf, bodyHdrWrite_eq hf, e]; rfl, a⟩
  · rw [exec_eq_finish, bodyOf, bodyHdrWrite, if_pos ((outOfRange_iff _).2 h)]; rfl

end Sys2Proof.Machine

/-! SUPPORT. A sink that fails part of the way through a bit sequence (20_memory.md R73, 40_bitpack.md R110 to R112), and the
bits ENC_PAYLOAD and ENCODE write (44_encoder.md R180, R181). -/

namespace Sys2Proof.Machine

-- The pad of FLUSH

theorem or_zero_bit (v : Byte) : v ||| (BitVec.ofBool false).setWidth 8 = v := by simp

theorem wcnt_succ {k : Sink} (h : k.wcnt.toNat < 7) : (k.wcnt + 1).toNat = k.wcnt.toNat + 1 := by
  rw [BitVec.toNat_add]; simp; omega

/-- Zero bits up to the end of the byte emit it shifted to the top (R110, R112). -/
theorem writeSeq_zeros (n : Nat) {k : Sink} (h : k.wcnt.toNat + n = 7) :
    writeSeq (List.replicate (n + 1) false) k = sinkWrite (k.wacc <<< (n + 1)) { k with wacc := 0, wcnt := 0 } := by
  induction n generalizing k with
  | zero =>
    have h7 : k.wcnt = 7 := BitVec.eq_of_toNat_eq h
    rw [List.replicate_one, writeSeq, writeBit, if_pos h7, or_zero_bit]
    rcases sinkWrite_cases (k.wacc <<< 1) { k with wacc := 0, wcnt := 0 } with ⟨fs, e⟩ | ⟨-, e⟩
    · rw [e]; rfl
    · rw [e]; rfl
  | succ n ih =>
    have h7 : k.wcnt ≠ 7 := fun e => by rw [e] at h; simp at h
    have hs := wcnt_succ (k := k) (by omega)
    rw [List.replicate_succ, writeSeq, writeBit, if_neg h7, bind_ok, or_zero_bit, ih (by simp only [hs]; omega),
      ← BitVec.shiftLeft_add, Nat.add_comm 1]

/-- FLUSH's pad is a bit sequence of zeros (R112). -/
theorem flushBits_eq (k : Sink) : flushBits k = writeSeq (List.replicate ((8 - k.wcnt.toNat) % 8) false) k := by
  have hw := wcnt_le k
  rw [flushBits]
  by_cases h0 : k.wcnt = 0
  · rw [if_pos h0, h0]; rfl
  · have h0' : k.wcnt.toNat ≠ 0 := fun e => h0 (BitVec.eq_of_toNat_eq e)
    rw [if_neg h0, show (8 - k.wcnt.toNat) % 8 = 7 - k.wcnt.toNat + 1 by omega, writeSeq_zeros _ (by omega),
      show 8 - k.wcnt.toNat = 7 - k.wcnt.toNat + 1 by omega]

-- What is written before the sink fails, and what is lost

/-- How many bits are pending after a bit sequence is appended (R41). -/
theorem Sink.Appended.wcnt {k k' : Sink} {bs : List Bool} (h : k.Appended bs k') :
    k'.wcnt.toNat = (k.wcnt.toNat + bs.length) % 8 := by
  have hl := congrArg List.length h.rest
  simp only [pending_length, List.length_drop, List.length_append] at hl
  omega

theorem pending_append_length (k : Sink) (bs : List Bool) : (k.pending ++ bs).length = k.wcnt.toNat + bs.length := by
  rw [List.length_append, pending_length]

/-- A sink that has taken some bytes fails as many bytes earlier (R73). -/
theorem Sink.Appended.failsAt {k k' : Sink} {bs : List Bool} {m n : Nat} (a : k.Appended bs k')
    (h : k.FailsAt ((k.wcnt.toNat + bs.length) / 8 + n)) (hm : (k.wcnt.toNat + bs.length) / 8 = m) : k'.FailsAt n := by
  have hc := a.count
  have hf := a.faults
  rw [pending_append_length, hm] at hc hf
  rw [hm] at h
  obtain ⟨hcap, h64, hb⟩ := h.ready
  refine ⟨⟨by rw [hc, a.cap]; omega, by rw [hc]; omega, fun f hx => hb f ?_⟩, ?_⟩
  · rw [hf, List.take_drop] at hx
    exact List.drop_subset _ _ hx
  · rw [a.cap, hc, hf, List.getD_eq_getElem?_getD, List.getElem?_drop, ← List.getD_eq_getElem?_getD, Nat.add_assoc]
    exact h.fails

/-- The bytes lost and drawn after some bits are appended (R73, R230). -/
theorem Sink.Appended.lost {k k' k'' : Sink} {as bs : List Bool} {m n : Nat} (a : k.Appended as k')
    (l : k'.Lost bs n k'') (hm : (k.wcnt.toNat + as.length) / 8 = m) : k.Lost (as ++ bs) (m + n) k'' := by
  have hcount := a.count
  have hbytes := a.bytes
  have hothers := a.others
  have hrest := a.rest
  have hfaults := a.faults
  rw [pending_append_length, hm] at hcount hbytes hothers hrest hfaults
  have hlen : 8 * m ≤ (k.pending ++ as).length := by rw [pending_append_length]; omega
  have hall : k.pending ++ (as ++ bs) = k.pending ++ as ++ bs := (List.append_assoc ..).symm
  have hsplit : k'.pending ++ bs = (k.pending ++ as ++ bs).drop (8 * m) := by
    rw [hrest, List.drop_append_of_le_length hlen]
  refine { count := by rw [l.count, hcount, Nat.add_assoc], bytes := fun j hj => ?_, others := fun i hi => ?_,
           wacc := l.wacc, wcnt := l.wcnt, cap := l.cap.trans a.cap, faults := ?_ }
  · rw [hall]
    by_cases hjm : j < m
    · rw [l.others _ (.inl (by rw [hcount]; omega)), hbytes j hjm,
        List.drop_append_of_le_length (l₁ := k.pending ++ as) (by omega),
        List.take_append_of_le_length (by rw [List.length_drop]; omega)]
    · rw [show k.outCount.toNat + j = k'.outCount.toNat + (j - m) by omega, l.bytes _ (by omega), hsplit,
        List.drop_drop, show 8 * m + 8 * (j - m) = 8 * j by omega]
  · rw [l.others i (by omega), hothers i (by omega)]
  · rw [l.faults, Sink.faultsFailed, Sink.faultsFailed, a.cap, hcount, hfaults, List.drop_drop, List.drop_drop,
      Nat.add_assoc, Nat.add_assoc]

/-- What was lost of a bit sequence was lost of every longer one. -/
theorem Sink.Lost.append {k k' : Sink} {bs : List Bool} {m : Nat} (l : k.Lost bs m k')
    (hm : 8 * m ≤ k.wcnt.toNat + bs.length) (cs : List Bool) : k.Lost (bs ++ cs) m k' := by
  refine { l with bytes := fun j hj => ?_ }
  have hlen := pending_append_length k bs
  rw [l.bytes j hj, ← List.append_assoc, List.drop_append_of_le_length (l₁ := k.pending ++ bs) (by omega),
    List.take_append_of_le_length (by rw [List.length_drop]; omega)]

/-- A bit sequence of which byte `m`, counted from before the bits `as`, is the first the sink does not take. -/
theorem writeSeq_lost_after {k k' : Sink} {as bs : List Bool} {m : Nat} (h : k.FailsAt m) (a : k.Appended as k')
    (hlo : (k.wcnt.toNat + as.length) / 8 ≤ m) (hhi : m < (k.wcnt.toNat + (as ++ bs).length) / 8) :
    ∃ k'', writeSeq bs k' = .err .ioError k'' ∧ k.Lost (as ++ bs) m k'' := by
  obtain ⟨n, rfl⟩ := Nat.exists_eq_add_of_le hlo
  have hw := a.wcnt
  rw [List.length_append] at hhi
  obtain ⟨k'', e, l⟩ := writeSeq_lost bs (a.failsAt h rfl) (by omega)
  exact ⟨k'', e, a.lost l rfl⟩

-- ENC_PAYLOAD

/-- The codes of one run of bytes and then of another (R79). -/
theorem payloadBits_append (c : CodeMap) (xs ys : List Byte) :
    payloadBits c (xs ++ ys) = payloadBits c xs ++ payloadBits c ys := List.flatMap_append

/-- ENC_PAYLOAD once its first `i` bytes are encoded: the rest of its loop (R180). -/
theorem bodyEncPayload_after {s : State} (hv : s.codesValid = true) {i : Nat} (hi : i ≤ s.src.inLen.toNat)
    (hf : ∀ x ∈ s.src.faults.take i, x = false) (hc : ∀ x ∈ s.src.input.take i, s.codes.code x ≠ [])
    (hr : s.snk.Ready ((s.snk.wcnt.toNat + (payloadBits s.codes (s.src.input.take i)).length) / 8)) :
    ∃ k, bodyEncPayload s =
        (encodeLoop s.codes (s.src.inLen.toNat - i)
          { src := s.src.scanned i, snk := k, symCnt := BitVec.ofNat 64 i, cur := s.cur }).within s.withStream ∧
      s.snk.Appended (payloadBits s.codes (s.src.input.take i)) k := by
  obtain ⟨k, e, a⟩ := encodeLoop_scan s.codes s.src i (s.src.inLen.toNat - i) (m := 0)
    (x := { s.stream with src := s.src.rewind, symCnt := 0 }) rfl (by omega) (fun j _ h => take_getD hf (by omega)) hc hr
  refine ⟨k, ?_, a⟩
  rw [Nat.add_sub_cancel' hi, Nat.zero_add, zero_add] at e
  rw [bodyEncPayload, if_pos hv, e]
  rfl

/-- ENC_PAYLOAD over the whole input (R180). -/
theorem bodyEncPayload_ok {s : State} (hv : s.codesValid = true) (h : s.src.NoFault)
    (hc : ∀ x ∈ s.src.input, s.codes.code x ≠ [])
    (hr : s.snk.Ready ((s.snk.wcnt.toNat + (payloadBits s.codes s.src.input).length) / 8)) :
    ∃ k, bodyEncPayload s =
        .ok () { s with src := s.src.scanned s.src.inLen.toNat, snk := k, symCnt := s.src.inLen.setWidth 64 } ∧
      s.snk.Appended (payloadBits s.codes s.src.input) k := by
  have hall : s.src.input.take s.src.inLen.toNat = s.src.input := input_take_all s.src
  rw [← hall] at hc hr
  obtain ⟨k, e, a⟩ := bodyEncPayload_after hv (le_refl _) (fun x hx => h x (List.mem_of_mem_take hx)) hc hr
  rw [hall] at a
  rw [Nat.sub_self, encodeLoop, BitVec.ofNat_toNat] at e
  exact ⟨k, e, a⟩

/-- ENC_PAYLOAD where the sink does not take byte `m`, which falls in the code of the input byte after `xs` (R180, R230). -/
theorem bodyEncPayload_lost {s : State} {m : Nat} (hfail : s.snk.FailsAt m) (hv : s.codesValid = true)
    (h : s.src.NoFault) {xs ys : List Byte} {b : Byte} (hin : s.src.input = xs ++ b :: ys)
    (hc : ∀ x ∈ xs ++ [b], s.codes.code x ≠ []) (hlo : (s.snk.wcnt.toNat + (payloadBits s.codes xs).length) / 8 ≤ m)
    (hhi : m < (s.snk.wcnt.toNat + (payloadBits s.codes (xs ++ [b])).length) / 8) :
    ∃ k, bodyEncPayload s =
        .err .ioError { s with
          src := s.src.scanned (xs.length + 1), snk := k, symCnt := BitVec.ofNat 64 xs.length } ∧
      s.snk.Lost (payloadBits s.codes (xs ++ [b])) m k := by
  have hlen : xs.length < s.src.inLen.toNat := by
    rw [← input_length, hin, List.length_append, List.length_cons]; omega
  have htake : s.src.input.take xs.length = xs := by rw [hin, List.take_left]
  have hbyte : s.src.inByte xs.length = b := by
    have := input_take_succ hlen 0
    rw [hin, List.drop_left] at this
    exact (List.cons.inj this).1.symm
  obtain ⟨k1, e1, a1⟩ := bodyEncPayload_after hv (i := xs.length) (by omega)
    (fun x hx => h x (List.mem_of_mem_take hx)) (by rw [htake]; exact fun x hx => hc x (by simp [hx]))
    (by rw [htake]; exact hfail.ready.mono hlo)
  rw [htake] at a1
  have hone : payloadBits s.codes [b] = s.codes.code b := List.flatMap_singleton ..
  rw [payloadBits_append, hone] at hhi ⊢
  obtain ⟨k2, e2, l2⟩ := writeSeq_lost_after hfail a1 hlo hhi
  refine ⟨k2, ?_, l2⟩
  obtain ⟨r, hr⟩ : ∃ r, s.src.inLen.toNat - xs.length = r + 1 := ⟨s.src.inLen.toNat - xs.length - 1, by omega⟩
  have hb : s.codes.code b ≠ [] := hc b (by simp)
  rw [e1, hr, encodeLoop, srcRead_scanned hlen (noFault_getD h _), hbyte]
  dsimp only
  rw [encodeByte, if_neg hb, e2, within_err, bind_err, bind_err, within_err, scanned_succ]
  rfl

end Sys2Proof.Machine

/-! SUPPORT. ENCODE as the three bit sequences it writes (20_memory.md R79, 44_encoder.md R181): the header, the payload and the
pad. -/

namespace Sys2Proof.Machine

/-- The counts of an input are one table (R34). -/
theorem FreqTable.Counts.unique {f g : FreqTable} {bs : List Byte} (hf : f.Counts bs) (hg : g.Counts bs) : f = g := by
  apply Vector.ext
  intro i hi
  have h : f.entry (BitVec.ofNat 8 i) = g.entry (BitVec.ofNat 8 i) :=
    BitVec.eq_of_toNat_eq ((hf _).trans (hg _).symm)
  simpa [FreqTable.entry, Nat.mod_eq_of_lt hi] using h

theorem nonzero_of_entry {f : FreqTable} {b : Byte} (h : f.entry b ≠ 0) : f.nonzero = true :=
  List.any_eq_true.2 ⟨_, mem_toList_iff.2 ⟨b, rfl⟩, by simpa using h⟩

/-- A byte of the input has a nonzero count. -/
theorem FreqTable.Counts.entry_ne_zero {f : FreqTable} {bs : List Byte} (h : f.Counts bs) {b : Byte} (hb : b ∈ bs) :
    f.entry b ≠ 0 := fun e => by
  have hc := h b
  rw [e] at hc
  exact absurd (List.count_pos_iff.2 hb) (by rw [← hc]; decide)

/-- A symbol of nonzero frequency has a code (R170, R171). -/
theorem code_ne_nil {f : FreqTable} {c : CodeMap} (h : (Tree.build f).genCodes = some c) {b : Byte}
    (hb : f.entry b ≠ 0) : c.code b ≠ [] := by
  rcases genCodes_code h hb with ⟨-, -, e⟩ | ⟨hr, j, hp, hj, -⟩
  · rw [e]; exact List.cons_ne_nil _ _
  · intro e
    rw [e] at hp
    cases hp
    rw [hr] at hj; cases hj

/-- The state ENCODE's HDR_WRITE leaves with the sink `k`, the counts `f` in FREQ (R181). -/
def State.encodeHeaded (s : State) (f : FreqTable) (k : Sink) : State :=
  { s.freshSession.withFreq f with src := s.src.scanned s.src.inLen.toNat, snk := k, stage := some 0x08 }

theorem enterStage_enterStage (s : State) (a b : BitVec 8) : (s.enterStage a).enterStage b = s.enterStage b := rfl

theorem enterStage_encodeHeaded (s : State) (f : FreqTable) (k : Sink) :
    (s.encodeHeaded f k).enterStage 0x08 = s.encodeHeaded f k := rfl

/-- The state in which ENCODE's ENC_PAYLOAD starts, with the sink `k` and the tree and the codes of `f` (R181). -/
def State.encodeCoded (s : State) (f : FreqTable) (c : CodeMap) (k : Sink) : State :=
  { s.encodeHeaded f k with tree := Tree.build f, codes := c, codesValid := true, stage := some 0x0C }

/-- BUILD and GENCODES, as ENCODE runs them after the header (R150, R170, R181). -/
theorem encode_build_gencodes {f : FreqTable} {c : CodeMap} (hn : f.nonzero = true)
    (hc : (Tree.build f).genCodes = some c) (s : State) (k : Sink) (g : State → Res State Unit) :
    ((bodyBuild ((s.encodeHeaded f k).enterStage 0x0A)).bind fun _ s4 =>
      (bodyGencodes (s4.enterStage 0x0B)).bind fun _ s5 => g (s5.enterStage 0x0C)) = g (s.encodeCoded f c k) := by
  obtain ⟨-, -, -, -, -, hv, -⟩ := build_spec ((nonzero_iff f).1 hn)
  have hb : bodyBuild ((s.encodeHeaded f k).enterStage 0x0A) =
      .ok () { (s.encodeHeaded f k).enterStage 0x0A with tree := Tree.build f, codesValid := false } := by
    rw [bodyBuild]; exact if_pos hn
  rw [hb, bind_ok, bodyGencodes, enterStage_tree, if_pos hv, hc]
  rfl

/-- An input ENCODE can encode: it is not empty, `f` holds its counts, each with a size class, and `c` the codes of the tree of
`f` (R181, R182). -/
structure State.Encodable (s : State) (f : FreqTable) (c : CodeMap) : Prop where
  noFault : s.src.NoFault
  counts : f.Counts s.src.input
  nonempty : s.src.inLen ≠ 0
  small : ∀ b : Byte, (f.entry b).toNat ≠ 2 ^ 32 - 1
  codes : (Tree.build f).genCodes = some c

section
variable {s : State} {f : FreqTable} {c : CodeMap} (h : s.Encodable f c)
include h

theorem State.Encodable.nonzero : f.nonzero = true := by
  have hpos : 0 < s.src.input.length := by
    rw [input_length]
    exact Nat.pos_of_ne_zero fun e => h.nonempty (BitVec.eq_of_toNat_eq e)
  obtain ⟨b, hb⟩ := List.exists_mem_of_length_pos hpos
  exact nonzero_of_entry (h.counts.entry_ne_zero hb)

theorem State.Encodable.coded {b : Byte} (hb : b ∈ s.src.input) : c.code b ≠ [] :=
  code_ne_nil h.codes (h.counts.entry_ne_zero hb)

/-- ENCODE of an encodable input: the header, ENC_PAYLOAD and the pad (R181). -/
theorem bodyEncode_eq :
    bodyEncode s = ((writeSeq (headerBits f) s.snk.fresh).within (s.encodeHeaded f)).bind fun _ t =>
      (bodyEncPayload (s.encodeCoded f c t.snk)).bind fun _ u => bodyFlush (u.enterStage 0x03) := by
  have hcounted : FreqTable.zero.counted s.src.input = f := (counted_counts (input_length_lt _)).unique h.counts
  have hcount : bodyCount (s.freshSession.enterStage 0x07) =
      .ok () ((s.encodeHeaded f s.snk.fresh).enterStage 0x07) := by
    rw [← hcounted]
    exact bodyCount_ok (s := s.freshSession.enterStage 0x07) h.noFault
  have hcheck : encodeChecks ((s.encodeHeaded f s.snk.fresh).enterStage 0x0E) =
      .ok () ((s.encodeHeaded f s.snk.fresh).enterStage 0x0E) := by
    have hr : ¬f.outOfRange = true := fun x => by
      obtain ⟨b, hb⟩ := (outOfRange_iff f).1 x
      exact h.small b hb
    rw [encodeChecks]
    exact (if_neg (total_ne_zero h.nonzero)).trans (if_neg hr)
  have hheader : bodyHdrWrite (s.encodeHeaded f s.snk.fresh) =
      (writeSeq (headerBits f) s.snk.fresh).within (s.encodeHeaded f) := bodyHdrWrite_eq h.small
  rw [bodyEncode, hcount, bind_ok, enterStage_enterStage, hcheck, bind_ok, enterStage_enterStage,
    enterStage_encodeHeaded, hheader]
  cases writeSeq (headerBits f) s.snk.fresh with
  | ok a k =>
    exact encode_build_gencodes h.nonzero h.codes s k fun t =>
      (bodyEncPayload t).bind fun _ u => bodyFlush (u.enterStage 0x03)
  | err e k => rfl
  | stuck x => rfl

end

/-- FLUSH pads what is pending with a bit sequence of zeros (R112, R117). -/
theorem bodyFlush_eq (s : State) :
    bodyFlush s = (writeSeq (List.replicate ((8 - s.snk.wcnt.toNat) % 8) false) s.snk).within
      fun k => { s with snk := k } := by
  rw [bodyFlush, flushBits_eq]

-- The whole stream

/-- The zero bits after a payload of `n` bits (R79, R181). -/
def padBits (n : Nat) : List Bool := List.replicate ((8 - n % 8) % 8) false

theorem padBits_length (n : Nat) : (padBits n).length = (8 - n % 8) % 8 := List.length_replicate

/-- The stream of `EncodeWritesHeaderPayloadAndPad` before its pad (R79). -/
def unpadded (f : FreqTable) (c : CodeMap) (xs : List Byte) : List Bool := headerBits f ++ payloadBits c xs

theorem fresh_clean (k : Sink) : k.fresh.Clean := Nat.zero_lt_one

/-- The writer of a sink whose stream is a whole number of bytes is empty (R41). -/
theorem wacc_wcnt_of_whole {k k' : Sink} {bs : List Bool} (a : k.Appended bs k') (hk : k.Clean)
    (hw : (k.wcnt.toNat + bs.length) % 8 = 0) : k'.wacc = 0 ∧ k'.wcnt = 0 := by
  have h0 : k'.wcnt = 0 := BitVec.eq_of_toNat_eq (a.wcnt.trans hw)
  have hclean := a.clean hk
  rw [Sink.Clean, h0] at hclean
  exact ⟨BitVec.eq_of_toNat_eq (Nat.lt_one_iff.1 hclean), h0⟩

section
variable {s : State} {f : FreqTable} {c : CodeMap} (h : s.Encodable f c)
include h

theorem unpadded_length : (unpadded f c s.src.input).length = 8 * headerBytes f + payloadLength f c := by
  rw [unpadded, List.length_append, headerBits_length_bytes, payloadBits_length h.counts]

/-- Where the sink has taken ENCODE's header and payload, the pad is `padBits` (R112). -/
theorem flush_unpadded {k : Sink} (a : s.snk.fresh.Appended (unpadded f c s.src.input) k) :
    (8 - k.wcnt.toNat) % 8 = (8 - payloadLength f c % 8) % 8 := by
  have hw := a.wcnt
  rw [unpadded_length h] at hw
  have : s.snk.fresh.wcnt.toNat = 0 := rfl
  omega

/-- ENCODE up to the payload, where the sink takes it (R181). -/
theorem bodyEncode_after_payload (hr : s.snk.fresh.Ready ((unpadded f c s.src.input).length / 8)) :
    ∃ k, s.snk.fresh.Appended (unpadded f c s.src.input) k ∧
      bodyEncode s = (writeSeq (padBits (payloadLength f c)) k).within fun k' =>
        { s.encodeCoded f c k' with
          src := { s.src.scanned s.src.inLen.toNat with faults := s.src.faults.drop (2 * s.src.inLen.toNat) }
          symCnt := s.src.inLen.setWidth 64
          stage := some 0x03 } := by
  have hlen : (unpadded f c s.src.input).length = (headerBits f).length + (payloadBits c s.src.input).length :=
    List.length_append
  have hw0 : s.snk.fresh.wcnt.toNat = 0 := rfl
  obtain ⟨k1, e1, a1⟩ := writeSeq_appended (headerBits f) (k := s.snk.fresh) (hr.mono (by omega))
  obtain ⟨k2, e2, a2⟩ := bodyEncPayload_ok (s := s.encodeCoded f c k1) rfl
    (fun x hx => h.noFault x (List.drop_subset _ _ hx)) (fun x hx => h.coded hx)
    (a1.ready (bs := payloadBits c s.src.input) (by rw [hw0, Nat.zero_add]; exact hr))
  have a : s.snk.fresh.Appended (unpadded f c s.src.input) k2 := a1.trans a2
  refine ⟨k2, a, ?_⟩
  have hfaults : (s.src.scanned s.src.inLen.toNat).scanned s.src.inLen.toNat =
      { s.src.scanned s.src.inLen.toNat with faults := s.src.faults.drop (2 * s.src.inLen.toNat) } := by
    simp only [Source.scanned, Source.rewind, Source.resetReader, List.drop_drop, Nat.two_mul]
  rw [bodyEncode_eq h, e1, within_ok, bind_ok]
  refine (congrArg (Res.bind · _) e2).trans ?_
  rw [bind_ok, bodyFlush_eq, padBits, ← flush_unpadded h a, ← hfaults]
  rfl

end

/-- Settles O47: the header, the payload and the pad are appended one after the other (`bodyEncode_after_payload`). -/
theorem encodeWritesHeaderPayloadAndPad : Obligations.EncodeWritesHeaderPayloadAndPad := by
  intro s f c hnf hcnt h0 hsmall hgen hr
  have h : s.Encodable f c := ⟨hnf, hcnt, h0, hsmall, hgen⟩
  have hlen := unpadded_length h
  have hpad := padBits_length (payloadLength f c)
  have hw0 : s.snk.fresh.wcnt.toNat = 0 := rfl
  have hall : (unpadded f c s.src.input ++ padBits (payloadLength f c)).length =
      8 * (headerBytes f + (payloadLength f c + 7) / 8) := by
    rw [List.length_append]; omega
  obtain ⟨k1, a1, e1⟩ := bodyEncode_after_payload h (hr.mono (by omega))
  obtain ⟨k2, e2, a2⟩ := writeSeq_appended (padBits (payloadLength f c)) (a1.ready (bs := padBits (payloadLength f c))
    (by rw [hw0, hall, Nat.zero_add, Nat.mul_div_cancel_left _ (by decide)]; exact hr))
  have a := a1.trans a2
  obtain ⟨hacc, hcnt⟩ := wacc_wcnt_of_whole a (fresh_clean _) (by omega)
  have hcount := a.count
  rw [pending_append_length, hw0, hall, Nat.zero_add, Nat.mul_div_cancel_left _ (by decide)] at hcount
  refine ⟨k2, ?_, hacc, hcnt, hcount.trans (Nat.zero_add _), a⟩
  rw [exec_eq_finish, bodyOf, e1, e2]
  rfl

end Sys2Proof.Machine

/-! SUPPORT. ENCODE where the sink fails (44_encoder.md R181, 60_exceptions.md R227, R230): in the header, in the payload or at the
pad. -/

namespace Sys2Proof.Machine

/-- The byte of the input in whose code byte `m` of the stream ends, with `w` bits written before the payload. -/
theorem payload_cut (c : CodeMap) {w m : Nat} (bs : List Byte) (hlo : w / 8 ≤ m)
    (hhi : m < (w + (payloadBits c bs).length) / 8) :
    ∃ xs b ys, bs = xs ++ b :: ys ∧ (w + (payloadBits c xs).length) / 8 ≤ m ∧
      m < (w + (payloadBits c (xs ++ [b])).length) / 8 := by
  induction bs using List.reverseRecOn with
  | nil => exact absurd hhi (Nat.not_lt.2 hlo)
  | append_singleton bs b ih =>
    by_cases h : m < (w + (payloadBits c bs).length) / 8
    · obtain ⟨xs, x, ys, rfl, h1, h2⟩ := ih h
      exact ⟨xs, x, ys ++ [b], by simp, h1, h2⟩
    · exact ⟨bs, b, [], rfl, Nat.not_lt.1 h, hhi⟩

/-- What ENCODE leaves where the sink does not take byte `m`: STATUS and CMD as they were, the stage that wrote byte `m`, and
the bytes before it in OUT (R181, R227, R230). -/
structure State.EncodeLost (s : State) (bs : List Bool) (m : Nat) (stg : BitVec 8) (t : State) : Prop where
  status : t.status = s.status
  cmd : t.cmd = s.cmd
  stage : t.stage = some stg
  lost : s.snk.fresh.Lost bs m t.snk

section
variable {s : State} {f : FreqTable} {c : CodeMap} {m : Nat} (h : s.Encodable f c) (hfail : s.snk.fresh.FailsAt m)
include h hfail

/-- ENCODE where byte `m` is of its header (R181). -/
theorem bodyEncode_lost_in_header (hm : m < headerBytes f) (bs : List Bool) :
    ∃ t, bodyEncode s = .err .ioError t ∧ s.EncodeLost (headerBits f ++ bs) m 0x08 t := by
  have hlen := headerBits_length_bytes f
  have hw0 : s.snk.fresh.wcnt.toNat = 0 := rfl
  obtain ⟨k, e, l⟩ := writeSeq_lost (headerBits f) hfail (by omega)
  refine ⟨s.encodeHeaded f k, ?_, rfl, rfl, rfl, l.append (by omega) bs⟩
  rw [bodyEncode_eq h, e]; rfl

/-- ENCODE where byte `m` ends within a code of its payload (R181). -/
theorem bodyEncode_lost_in_payload (hlo : headerBytes f ≤ m)
    (hhi : 8 * (m + 1) ≤ 8 * headerBytes f + payloadLength f c) (bs : List Bool) :
    ∃ t, bodyEncode s = .err .ioError t ∧ s.EncodeLost (unpadded f c s.src.input ++ bs) m 0x0C t := by
  have hlen := headerBits_length_bytes f
  have hplen := payloadBits_length h.counts c
  have hw0 : s.snk.fresh.wcnt.toNat = 0 := rfl
  obtain ⟨k1, e1, a1⟩ := writeSeq_appended (headerBits f) (k := s.snk.fresh) (hfail.ready.mono (by omega))
  have hdiv : (s.snk.fresh.wcnt.toNat + (headerBits f).length) / 8 = headerBytes f := by omega
  obtain ⟨n, rfl⟩ := Nat.exists_eq_add_of_le hlo
  have hw1 := a1.wcnt
  obtain ⟨xs, b, ys, hin, h1, h2⟩ := payload_cut c (w := k1.wcnt.toNat) (m := n) s.src.input (by omega) (by omega)
  have hmem : ∀ x ∈ xs ++ [b], x ∈ s.src.input := fun x hx => by
    rw [hin, List.append_cons]
    exact List.mem_append_left _ hx
  obtain ⟨k2, e2, l2⟩ := bodyEncPayload_lost (s := s.encodeCoded f c k1) (a1.failsAt (hdiv.symm ▸ hfail) hdiv) rfl
    (fun x hx => h.noFault x (List.drop_subset _ _ hx)) hin (fun x hx => h.coded (hmem x hx)) h1 h2
  have e := bodyEncode_eq h
  rw [e1, within_ok, bind_ok, show bodyEncPayload (s.encodeCoded f c (s.encodeHeaded f k1).snk) = _ from e2,
    bind_err] at e
  refine ⟨_, e, rfl, rfl, rfl, ?_⟩
  have hcut : unpadded f c s.src.input ++ bs =
      headerBits f ++ payloadBits c (xs ++ [b]) ++ (payloadBits c ys ++ bs) := by
    rw [unpadded, hin, List.append_cons, payloadBits_append c (xs ++ [b]) ys]
    simp only [List.append_assoc]
  rw [hcut]
  exact (a1.lost (bs := payloadBits c (xs ++ [b])) l2 hdiv).append (by rw [List.length_append]; omega) _

/-- ENCODE where byte `m` is the one its pad fills (R181). -/
theorem bodyEncode_lost_in_pad (hlo : 8 * headerBytes f + payloadLength f c < 8 * (m + 1))
    (hhi : m < headerBytes f + (payloadLength f c + 7) / 8) :
    ∃ t, bodyEncode s = .err .ioError t ∧
      s.EncodeLost (unpadded f c s.src.input ++ padBits (payloadLength f c)) m 0x03 t := by
  have hlen := unpadded_length h
  have hpad := padBits_length (payloadLength f c)
  have hw0 : s.snk.fresh.wcnt.toNat = 0 := rfl
  obtain ⟨k1, a1, e1⟩ := bodyEncode_after_payload h (hfail.ready.mono (by omega))
  obtain ⟨k2, e2, l2⟩ := writeSeq_lost_after (bs := padBits (payloadLength f c)) hfail a1 (by omega)
    (by rw [List.length_append]; omega)
  rw [e2, within_err] at e1
  exact ⟨_, e1, rfl, rfl, rfl, l2⟩

/-- ENCODE where the sink does not take byte `m` of its stream: the stage is the one byte `m` belongs to (R181, R227). -/
theorem bodyEncode_lost (hm : m < headerBytes f + (payloadLength f c + 7) / 8) :
    ∃ t, bodyEncode s = .err .ioError t ∧
      s.EncodeLost (unpadded f c s.src.input ++ padBits (payloadLength f c)) m
        (if m < headerBytes f then 0x08
          else if 8 * (m + 1) ≤ 8 * headerBytes f + payloadLength f c then 0x0C
          else 0x03) t := by
  by_cases h1 : m < headerBytes f
  · rw [if_pos h1, unpadded, List.append_assoc]
    exact bodyEncode_lost_in_header h hfail h1 _
  · rw [if_neg h1]
    by_cases h2 : 8 * (m + 1) ≤ 8 * headerBytes f + payloadLength f c
    · rw [if_pos h2]
      exact bodyEncode_lost_in_payload h hfail (Nat.not_lt.1 h1) h2 _
    · rw [if_neg h2]
      exact bodyEncode_lost_in_pad h hfail (Nat.not_le.1 h2) hm

end

end Sys2Proof.Machine

/-! SUPPORT. A reader bit by bit, whatever becomes of the bits after (40_bitpack.md R113 to R115): the bits it delivers before a
refill fails, and what RD_BITS and HDR_READ leave where one does (41_frequency_header.md R134, 60_exceptions.md R230). -/

namespace Sys2Proof.Machine

/-- Reading bit by bit, the reader delivers the bits `u` and stands at `q'` (R114). -/
inductive Source.Delivers : Source → List Bool → Source → Prop
  | nil (q : Source) : Source.Delivers q [] q
  | cons {q q1 q2 : Source} {d : Bool} {u : List Bool} (h : readBit q = .ok d q1) (h' : Source.Delivers q1 u q2) :
    Source.Delivers q (d :: u) q2

/-- A reader with no faults to come delivers what is ahead of it (R114). -/
theorem delivers_of_noFault (u : List Bool) {q : Source} (h : q.NoFault) (h8 : q.rcnt.toNat ≤ 8) {rest : List Bool}
    (hah : q.ahead = u ++ rest) : ∃ q', q.Delivers u q' ∧ q.Consumed u.length q' := by
  induction u generalizing q with
  | nil => exact ⟨q, .nil q, consumed_zero h8⟩
  | cons d u ih =>
    have h0 : q.rcnt ≠ 0 := fun e => by rw [ahead_nil e] at hah; cases hah
    obtain ⟨q1, e1, htop, c1⟩ := readBit_consumed h h8 h0
    rw [hah] at htop
    obtain ⟨hd, htail⟩ := List.cons.inj htop
    obtain ⟨q2, d2, c2⟩ := ih (NoFault.of_consumed h c1) c1.short (by rw [c1.ahead, hah]; rfl)
    exact ⟨q2, .cons (hd ▸ e1) d2, by rw [List.length_cons, Nat.add_comm]; exact c1.trans c2⟩

/-- A fetch that succeeds owes nothing to the fault draws (R71, R113). -/
theorem fetch_without_faults {q q' : Source} (h : fetch q = .ok () q') :
    fetch { q with faults := [] } = .ok () { q' with faults := [] } := by
  rw [fetch] at h
  rcases srcRead_cases q.srcPos q with ⟨hp, e⟩ | ⟨hp, e⟩ | ⟨hp, e⟩ <;> rw [e] at h <;> cases h
  · rw [fetch, srcRead_eof (q := { q with faults := [] }) hp]
  · rw [fetch, srcRead_ok (q := { q with faults := [] }) hp nofun]; rfl

/-- Neither does a bit that is delivered (R114). -/
theorem readBit_without_faults {q q' : Source} {d : Bool} (h : readBit q = .ok d q') :
    readBit { q with faults := [] } = .ok d { q' with faults := [] } := by
  rw [readBit] at h ⊢
  split at h
  · cases h
  · rename_i h0
    rw [if_neg h0]
    split at h
    · rename_i h1
      rw [if_pos h1]
      cases hf : fetch { q with rbuf := q.rbuf <<< 1, rcnt := 0 } with
      | ok a q1 =>
        rw [hf] at h
        cases h
        exact congrArg (Res.bind · _) (fetch_without_faults hf)
      | err k q1 => rw [hf] at h; cases h
      | stuck x => rw [hf] at h; cases h
    · rename_i h1
      rw [if_neg h1]
      cases h; rfl

/-- A bit that is delivered is the next one ahead (R42, R114). -/
theorem readBit_ahead {q q' : Source} {d : Bool} (h8 : q.rcnt.toNat ≤ 8) (h : readBit q = .ok d q') :
    q.ahead = d :: q'.ahead := by
  have h0 : q.rcnt ≠ 0 := fun e => by rw [readBit, if_pos e] at h; cases h
  obtain ⟨q1, e, htop, hc⟩ := readBit_consumed (q := { q with faults := [] }) nofun h8 h0
  rw [readBit_without_faults h] at e
  cases e
  have ha : q'.ahead = q.ahead.tail := hc.ahead.trans List.drop_one
  rw [ha]
  exact htop

/-- All that is ahead of a reader whose refill fails: more bits than it delivers (R42, R71). -/
theorem Source.FailsAt.bitsTo_lt {q : Source} {m : Nat} (h : q.FailsAt m) : q.bitsTo m < q.ahead.length := by
  have hin := h.inside
  have h8 := h.short
  have hl : (q.unfetched.flatMap byteBits).length = 8 * (q.inLen.toNat - q.srcPos.toNat) := by
    simp [List.length_flatMap, Source.unfetched, Nat.mul_comm]
  rw [Source.ahead, if_neg h.unread, List.length_append, List.length_take, byteBits_length, hl, Source.bitsTo]
  omega

/-- `q'` is `q` after it has delivered `n` bits, with the refill that fails still to come (R114). -/
structure Source.Nearer (q : Source) (m n : Nat) (q' : Source) (m' : Nat) : Prop where
  fails : q'.FailsAt m'
  bits : q'.bitsTo m' + n = q.bitsTo m
  lost : q'.refillFailed m' = q.refillFailed m

/-- A reader whose refill fails delivers the bits before the one that refill loses (R114, R230). -/
theorem Source.FailsAt.delivers (u : List Bool) {q : Source} {m : Nat} (h : q.FailsAt m) {rest : List Bool}
    (hah : q.ahead = u ++ rest) (hu : u.length < q.bitsTo m) :
    ∃ q' m', q.Delivers u q' ∧ q.Nearer m u.length q' m' ∧ q'.ahead = rest := by
  induction u generalizing q m with
  | nil => exact ⟨q, m, .nil q, ⟨h, rfl, rfl⟩, hah⟩
  | cons d u ih =>
    rw [List.length_cons] at hu
    rcases readBit_failing h with ⟨h1, -⟩ | ⟨q1, m1, e1, h1, hb, hl, -⟩
    · omega
    · have ha := readBit_ahead h.short e1
      rw [hah] at ha
      obtain ⟨hd, hrest⟩ := List.cons.inj ha
      obtain ⟨q2, m2, d2, n2, a2⟩ := ih h1 hrest.symm (by omega)
      exact ⟨q2, m2, .cons (hd ▸ e1) d2,
        ⟨n2.fails, by have := n2.bits; rw [List.length_cons]; omega, n2.lost.trans hl⟩, a2⟩

/-- The bit the refill loses (R114, R230). -/
theorem Source.FailsAt.readBit {q : Source} {m : Nat} (h : q.FailsAt m) (h1 : q.bitsTo m = 1) :
    Machine.readBit q = .err .ioError (q.refillFailed m) := by
  rcases readBit_failing h with ⟨-, e⟩ | ⟨q', m', -, h', hb, -⟩
  · exact e
  · have := rcnt_pos h'
    rw [Source.bitsTo] at hb; omega

-- Fields

/-- A field whose bits are delivered (R115). -/
theorem readBitsFrom_delivers (u : List Bool) (v : Word) {q q' : Source} (h : q.Delivers u q') :
    readBitsFrom u.length v q = .ok (shiftIn v u) q' := by
  induction h generalizing v with
  | nil q => rfl
  | cons h _ ih => rw [List.length_cons, readBitsFrom, h, bind_ok, ih]; rfl

theorem Source.Delivers.split (u : List Bool) {v : List Bool} {q q' : Source} (h : q.Delivers (u ++ v) q') :
    ∃ q1, q.Delivers u q1 ∧ q1.Delivers v q' := by
  induction u generalizing q with
  | nil => exact ⟨q, .nil q, h⟩
  | cons d u ih =>
    cases h with
    | cons e h =>
      obtain ⟨q1, h1, h2⟩ := ih h
      exact ⟨q1, .cons e h1, h2⟩

/-- A field whose bits are delivered gives its value (R75, R115). -/
theorem readBits_delivers {n : Nat} (hn : n ≤ 32) {v : Word} (hv : v.toNat < 2 ^ n) {q q' : Source}
    (h : q.Delivers (fieldBits n v) q') : readBits n q = .ok v q' := by
  have e := readBitsFrom_delivers _ 0 h
  have hval : shiftIn 0 (fieldBits n v) = v := by
    apply BitVec.eq_of_toNat_eq
    rw [shiftIn_zero_toNat (by rw [fieldBits_length]; exact hn), bitsValue_fieldBits, Nat.mod_eq_of_lt hv]
  rwa [fieldBits_length, hval] at e

-- HDR_READ

/-- Pass 1 over classes that are delivered (R134). -/
theorem readClasses_delivers (cs acc : List (BitVec 2)) {q q' : Source} (h : q.Delivers (classBits cs) q') :
    readClasses cs.length acc q = .ok () (q', acc ++ cs) := by
  induction cs generalizing acc q with
  | nil => cases h; rw [List.append_nil]; rfl
  | cons c cs ih =>
    obtain ⟨q1, h1, h2⟩ := Source.Delivers.split (fieldBits 2 (c.setWidth 32)) h
    have hv : (c.setWidth 32).toNat < 2 ^ 2 := by have := c.isLt; rw [BitVec.toNat_setWidth]; omega
    have hc : (c.setWidth 32).setWidth 2 = c := by
      apply BitVec.eq_of_toNat_eq
      have := c.isLt
      simp only [BitVec.toNat_setWidth]; omega
    rw [List.length_cons, readClasses_succ, readBits_delivers (by omega) hv h1, within_ok, bind_ok, hc, ih _ h2,
      List.append_assoc]
    rfl

/-- Pass 1 across the refill that fails (R134, R230). -/
theorem readClasses_failing (n : Nat) (acc : List (BitVec 2)) {q : Source} {m : Nat} (h : q.FailsAt m)
    (hn : q.bitsTo m ≤ 2 * n) : ∃ acc', readClasses n acc q = .err .ioError (q.refillFailed m, acc') := by
  induction n generalizing acc q m with
  | zero => have := rcnt_pos h; rw [Source.bitsTo] at hn; omega
  | succ n ih =>
    rw [readClasses_succ]
    by_cases h2 : q.bitsTo m ≤ 2
    · exact ⟨acc, by rw [readBits, readBitsFrom_failing 2 0 h h2]; rfl⟩
    · have hah := h.bitsTo_lt
      have hl : (q.ahead.take 2).length = 2 := by rw [List.length_take]; omega
      obtain ⟨q1, m1, d1, n1, -⟩ := h.delivers (q.ahead.take 2) (List.take_append_drop 2 _).symm (by omega)
      have hb := n1.bits
      have e := readBitsFrom_delivers _ 0 d1
      rw [hl] at e hb
      obtain ⟨acc', e'⟩ := ih (acc ++ [(shiftIn 0 (q.ahead.take 2)).setWidth 2]) n1.fails (by omega)
      exact ⟨acc', by rw [readBits, e, within_ok, bind_ok, e', n1.lost]⟩

section
variable {cs : List (BitVec 2)} {f : FreqTable} (hfit : ClassesFit cs f)
include hfit

/-- The first `n` values of pass 2, where they are delivered (R134). -/
theorem readValues_delivers {n : Nat} (hn : n ≤ 256) {q q' : Source}
    (h : q.Delivers ((valueFields cs f).take n).flatten q') :
    ∃ g, readValues cs 0 (q, FreqTable.zero) = readValues (cs.drop n) n (q', g) ∧ f.Upto n g := by
  induction n generalizing q' with
  | zero => cases h; exact ⟨_, rfl, upto_zero f⟩
  | succ n ih =>
    have hl : n < cs.length := by rw [hfit.1]; omega
    rw [List.take_succ_eq_append_getElem (by rw [valueFields_length hfit]; omega), List.flatten_concat,
      valueFields_getElem hfit (by omega)] at h
    obtain ⟨q1, h1, h2⟩ := h.split
    obtain ⟨g, e, hg⟩ := ih (by omega) h1
    have hv := value_fits hfit (m := n) (by omega)
    rw [e, List.drop_eq_getElem_cons hl]
    by_cases hc : cs[n] = 0
    · have hw : classWidth cs[n] = 0 := by rw [hc]; rfl
      rw [hw] at hv h2
      cases h2
      have h0 : f.entry (BitVec.ofNat 8 n) = 0 := BitVec.eq_of_toNat_eq (Nat.lt_one_iff.1 hv)
      exact ⟨g, by rw [hc, readValues_cons_zero], upto_succ_skip hg h0⟩
    · exact ⟨_, by rw [readValues_cons hc, readBits_delivers (classWidth_le _) hv h2]; rfl,
        upto_succ_set (by omega) hg⟩

/-- Pass 2 across the refill that fails (R134, R230): the values read whole before it are in FREQ. -/
theorem readValues_failing {q : Source} {m : Nat} (h : q.FailsAt m) {u rest rest' : List Bool}
    (hah : q.ahead = u ++ rest) (hu : u.length + 1 = q.bitsTo m) (hvals : (valueFields cs f).flatten = u ++ rest')
    (hr : rest' ≠ []) :
    ∃ g, readValues cs 0 (q, FreqTable.zero) = .err .ioError (q.refillFailed m, g) ∧
      ∀ b : Byte, g.entry b = if valueEnd cs b < 512 + q.bitsTo m then f.entry b else 0 := by
  obtain ⟨j, hj, w, rfl, hlt⟩ := flatten_cut hvals hr
  have hj' : j < 256 := by rwa [valueFields_length hfit] at hj
  have hl : j < cs.length := by rw [hfit.1]; exact hj'
  have hlen := valueFields_take_length hfit (m := j) (by omega)
  rw [List.append_assoc] at hah
  rw [List.length_append, hlen] at hu
  obtain ⟨q1, m1, d1, n1, -⟩ := h.delivers _ hah (by omega)
  obtain ⟨g, e, hg⟩ := readValues_delivers hfit (by omega) d1
  rw [valueFields_getElem hfit hj', fieldBits_length] at hlt
  have hc0 : cs[j] ≠ 0 := fun e => by rw [e] at hlt; exact absurd hlt (Nat.not_lt_zero _)
  have hb := n1.bits
  rw [hlen] at hb
  refine ⟨g, ?_, fun b => ?_⟩
  · rw [e, List.drop_eq_getElem_cons hl, readValues_cons hc0, readBits, readBitsFrom_failing _ 0 n1.fails (by omega),
      n1.lost]
    rfl
  · rw [hg b]
    have hsucc := widthSum_succ hl
    have hend : valueEnd cs b = 512 + widthSum cs (b.toNat + 1) := rfl
    refine if_congr ⟨fun hb => ?_, fun hb => ?_⟩ rfl rfl
    · have := widthSum_mono (cs := cs) (show b.toNat + 1 ≤ j by omega)
      omega
    · by_contra hge
      have := widthSum_mono (cs := cs) (show j + 1 ≤ b.toNat + 1 by omega)
      omega

/-- HDR_READ across the refill that fails (R134, R230). -/
theorem bodyHdrRead_failing {s : State} (hv : s.src.rdValid = true) {m : Nat} (h : s.src.FailsAt m) {rest : List Bool}
    (hah : s.src.ahead <+: headerWith cs f ++ rest) (hm : s.src.bitsTo m ≤ (headerWith cs f).length) :
    ∃ g cl, bodyHdrRead s = .err .ioError { s.withFreq g with src := s.src.refillFailed m, cls := cl } ∧
      ∀ b : Byte, g.entry b = if valueEnd cs b < s.src.bitsTo m then f.entry b else 0 := by
  have h512 := classBits_fit hfit
  by_cases hle : s.src.bitsTo m ≤ 512
  · obtain ⟨cl, e⟩ := readClasses_failing 256 [] h hle
    refine ⟨FreqTable.zero, some cl, ?_, fun b => ?_⟩
    · rw [bodyHdrRead, if_pos hv, hdrClasses, withFreq_src, e]; rfl
    · have hend : 512 ≤ valueEnd cs b := Nat.le_add_right _ _
      rw [entry_zero, if_neg (by omega)]
  · have hlt := h.bitsTo_lt
    rw [headerWith_eq, List.append_assoc] at hah
    rw [headerWith_eq, List.length_append] at hm
    obtain ⟨as, has⟩ : classBits cs <+: s.src.ahead :=
      List.prefix_of_prefix_length_le (List.prefix_append _ _) hah (by omega)
    obtain ⟨q1, m1, d1, n1, a1⟩ := h.delivers _ has.symm (by omega)
    have e1 := readClasses_delivers cs [] d1
    rw [hfit.1, List.nil_append] at e1
    have hb := n1.bits
    rw [← has, List.prefix_append_right_inj] at hah
    rw [← has, List.length_append] at hlt
    have hpre : as.take (q1.bitsTo m1 - 1) <+: (valueFields cs f).flatten :=
      List.prefix_of_prefix_length_le ((List.take_prefix _ _).trans hah) (List.prefix_append _ _)
        (by rw [List.length_take]; omega)
    obtain ⟨rest', hr⟩ := hpre
    have hpos := rcnt_pos n1.fails
    have hbt : q1.bitsTo m1 = q1.rcnt.toNat + 8 * m1 := rfl
    have htl : (as.take (q1.bitsTo m1 - 1)).length = q1.bitsTo m1 - 1 := by rw [List.length_take]; omega
    obtain ⟨g, e2, hg⟩ := readValues_failing hfit n1.fails (u := as.take (q1.bitsTo m1 - 1))
      (by rw [a1, List.take_append_drop]) (by omega) hr.symm (fun e => by
        have := congrArg List.length hr
        rw [e, List.append_nil, htl] at this; omega)
    refine ⟨g, none, ?_, fun b => ?_⟩
    · rw [bodyHdrRead_of_classes hv e1, e2, n1.lost]; rfl
    · rw [hg b, show 512 + q1.bitsTo m1 = s.src.bitsTo m by omega]

end

end Sys2Proof.Machine

/-! SUPPORT. DEC_PAYLOAD's walk over bits that are delivered (45_decoder.md R190, R191), up to a symbol the sink does not take or
a refill that fails (60_exceptions.md R230). -/

namespace Sys2Proof.Machine

/-- One delivered bit of the walk (R190). -/
theorem walkLoop_readBit (t : Tree) {total : Wide} (n : Nat) {x : Stream} {q : Source} {d : Bool}
    (h : readBit x.src = .ok d q) (ht : x.symCnt.toNat < total.toNat) :
    walkLoop t total (n + 1) x = (walkBit t d { x with src := q }).bind fun _ x' => walkLoop t total n x' := by
  rw [walkLoop, if_neg (by omega), h]
  rfl

/-- The walk along a path that meets no leaf (R190). -/
theorem walkLoop_path {t : Tree} (hr : (t.node t.root).leaf = false) {total : Wide} {i j : NodeIx} {u : Code}
    (h : t.Path i u j) (hj : (t.node j).leaf = false) {x : Stream} (hx : x.cur = some i) {q : Source}
    (hd : x.src.Delivers u q) (ht : x.symCnt.toNat < total.toNat) (n : Nat) :
    walkLoop t total (u.length + n) x = walkLoop t total n { x with src := q, cur := some j } := by
  induction h generalizing x with
  | nil i => cases hd; rw [← hx, List.length_nil, Nat.zero_add]
  | @cons i j d u _ hsub ih =>
    cases hd with
    | @cons _ q1 _ _ _ e hd =>
      have hl : (t.node (t.child i d)).leaf = false := by
        cases hsub with
        | nil => exact hj
        | cons hi _ => exact hi
      rw [List.length_cons, Nat.add_right_comm, walkLoop_readBit t _ e ht, walkBit_child hr (x := { x with src := q1 }) hx,
        if_neg (by rw [hl]; decide), bind_ok]
      exact ih hj rfl hd ht

/-- Walked from the root, the bits `u` are those of symbol `b`: of a tree of one leaf any one bit (R190, R191). -/
def Tree.Spells (t : Tree) (u : List Bool) (b : Byte) : Prop :=
  ((t.node t.root).leaf = true ∧ (t.node t.root).sym = b ∧ u.length = 1) ∨
    ((t.node t.root).leaf = false ∧ t.LeafPath t.root u b)

theorem spells_code {f : FreqTable} {c : CodeMap} (h : (Tree.build f).genCodes = some c) {b : Byte}
    (hb : f.entry b ≠ 0) : (Tree.build f).Spells (c.code b) b := by
  rcases genCodes_code h hb with ⟨hl, hs, e⟩ | hp
  · exact .inl ⟨hl, hs, by rw [e]; rfl⟩
  · exact .inr hp

theorem Tree.Path.split {t : Tree} (u : Code) {v : Code} {i j : NodeIx} (h : t.Path i (u ++ v) j) :
    ∃ k, t.Path i u k ∧ t.Path k v j := by
  induction u generalizing i with
  | nil => exact ⟨i, .nil i, h⟩
  | cons d u ih =>
    cases h with
    | cons hi h =>
      obtain ⟨k, h1, h2⟩ := ih h
      exact ⟨k, .cons hi h1, h2⟩

/-- The walk along the bits of a symbol comes to the sink with it, then to the root (R190, R191). -/
theorem walkLoop_symbol {t : Tree} {u : List Bool} {b : Byte} (h : t.Spells u b) {total : Wide} {x : Stream}
    (hx : x.cur = some t.root) {q : Source} (hd : x.src.Delivers u q) (ht : x.symCnt.toNat < total.toNat) :
    ∃ i, ∀ n, walkLoop t total (u.length + n) x =
      (emitSymbol b { x with src := q, cur := i }).bind fun _ x' => walkLoop t total n { x' with cur := some t.root } := by
  rcases h with ⟨hr, rfl, hl⟩ | ⟨hr, j, hp, hj, rfl⟩
  · obtain ⟨d, rfl⟩ := List.length_eq_one_iff.1 hl
    cases hd with
    | cons e hd =>
      cases hd
      refine ⟨some t.root, fun n => ?_⟩
      rw [List.length_singleton, Nat.add_comm, walkLoop_readBit t _ e ht, walkBit, if_pos hr, ← hx, emitSymbol]
      cases sinkWrite (t.node t.root).sym x.snk with
      | ok a k => rw [hx]; rfl
      | err k' k => rfl
      | stuck y => rfl
  · have hne : u ≠ [] := fun e => by
      subst e
      cases hp
      rw [hr] at hj; cases hj
    obtain ⟨v, d, rfl⟩ := (List.eq_nil_or_concat' u).resolve_left hne
    obtain ⟨i, hv, hlast⟩ := hp.split
    obtain ⟨q1, d1, d2⟩ := hd.split
    cases hlast with
    | cons hi hnil =>
      cases hnil
      cases d2 with
      | cons e d2 =>
        cases d2
        refine ⟨some (t.child i d), fun n => ?_⟩
        rw [List.length_append, Nat.add_assoc, walkLoop_path hr hv hi hx d1 ht, List.length_singleton, Nat.add_comm 1,
          walkLoop_readBit t _ (x := { x with src := q1, cur := some i }) e ht,
          walkBit_child hr (x := { x with src := q, cur := some i }) rfl, if_pos hj, bind_assoc]
        rfl

/-- What the walk leaves after the bits of the symbols `xs`, with the source at `q` (R190). -/
def Stream.walked (x : Stream) (t : Tree) (xs : List Byte) (q : Source) : Stream :=
  { src := q, snk := x.snk.emitted xs, symCnt := x.symCnt + BitVec.ofNat 64 xs.length, cur := some t.root }

theorem Stream.walked_cons {x : Stream} (h : x.snk.Ready 1) (t : Tree) (b : Byte) (xs : List Byte) (q q' : Source) :
    (x.walked t [b] q).walked t xs q' = x.walked t (b :: xs) q' := by
  simp only [Stream.walked, emitted_append (xs := [b]) h, List.singleton_append, List.length_cons,
    ← add_one_ofNat x.symCnt xs.length]
  rfl

/-- The walk along the bits of symbols the sink takes (R190). -/
theorem walkLoop_symbols {t : Tree} {us : List (List Bool)} {xs : List Byte} (h : List.Forall₂ t.Spells us xs)
    {total : Wide} {x : Stream} (hx : x.cur = some t.root) {q : Source} (hd : x.src.Delivers us.flatten q)
    (ht : x.symCnt.toNat + xs.length ≤ total.toNat) (hk : x.snk.Ready xs.length) (n : Nat) :
    walkLoop t total (us.flatten.length + n) x = walkLoop t total n (x.walked t xs q) := by
  induction h generalizing x with
  | nil =>
    cases hd
    rw [Stream.walked, emitted_nil, ← hx]
    simp
  | @cons u b us xs hu _ ih =>
    obtain ⟨q1, d1, d2⟩ := Source.Delivers.split u hd
    rw [List.length_cons] at ht hk
    have h1 : x.snk.Ready 1 := hk.mono (by omega)
    have htotal := total.isLt
    have hcnt : (x.symCnt + 1).toNat = x.symCnt.toNat + 1 := by rw [BitVec.toNat_add]; simp; omega
    obtain ⟨i, e⟩ := walkLoop_symbol hu hx d1 (total := total) (by omega)
    rw [List.flatten_cons, List.length_append, Nat.add_assoc, e,
      emitSymbol_ready (x := { x with src := q1, cur := i }) h1, bind_ok]
    refine (ih (x := x.walked t [b] q1) rfl d2 ?_ (emitted_ready (xs := [b]) ?_)).trans ?_
    · rw [show (x.walked t [b] q1).symCnt = x.symCnt + 1 from rfl, hcnt]; omega
    · rw [List.length_singleton, Nat.add_comm]; exact hk
    · rw [Stream.walked_cons h1]

/-- The symbols of a payload (R79, R190). -/
theorem spells_payload {f : FreqTable} {c : CodeMap} (h : (Tree.build f).genCodes = some c) {xs : List Byte}
    (hxs : ∀ x ∈ xs, f.entry x ≠ 0) : List.Forall₂ (Tree.build f).Spells (xs.map c.code) xs := by
  rw [List.forall₂_map_left_iff, List.forall₂_same]
  exact fun x hx => spells_code h (hxs x hx)

/-- Of a tree of one leaf, each bit is a symbol (R191). -/
theorem spells_bits {t : Tree} {b : Byte} (hl : (t.node t.root).leaf = true) (hs : (t.node t.root).sym = b)
    (u : List Bool) : List.Forall₂ t.Spells (u.map fun d => [d]) (List.replicate u.length b) := by
  rw [List.forall₂_map_left_iff]
  induction u with
  | nil => exact .nil
  | cons d u ih => exact .cons (.inl ⟨hl, hs, rfl⟩) ih

theorem flatten_singletons (u : List Bool) : (u.map fun d => [d]).flatten = u := by
  rw [← List.flatMap_def, List.flatMap_singleton']

/-- The root of a tree of one leaf is that leaf (R154). -/
theorem build_root_leaf {f : FreqTable} {b : Byte} (hb : f.entry b ≠ 0) (h1 : f.leaves = 1) :
    ((Tree.build f).node (Tree.build f).root).leaf = true ∧ ((Tree.build f).node (Tree.build f).root).sym = b := by
  obtain ⟨e, m, hr, hn, -⟩ := build_spec (f := f) (by omega)
  have hix := (m.grown.entry e (List.mem_cons_self ..)).1
  have hbelow := below_lt hb
  have hroot : (Tree.build f).root = BitVec.ofNat 9 (f.below b) := by
    rw [hr]
    exact BitVec.eq_of_toNat_eq (by rw [BitVec.toNat_ofNat]; omega)
  rw [hroot, build_leaf hb]
  exact ⟨rfl, rfl⟩

/-- The root of a tree of two leaves or more has other nodes below it (R157). -/
theorem build_root_inner {f : FreqTable} (h2 : 2 ≤ f.leaves) :
    ((Tree.build f).node (Tree.build f).root).leaf = false := by
  obtain ⟨-, -, -, hn, -⟩ := build_spec (f := f) (by omega)
  by_contra hl
  have hroot : ∀ i : NodeIx, i.toNat < (Tree.build f).nNodes.toNat → i = (Tree.build f).root := fun i hi => by
    obtain ⟨p, hp⟩ := build_path (f := f) (by omega) i hi
    exact (hp.eq_of_leaf (by simpa using hl)).2
  have h01 : (0 : NodeIx) = 1 := (hroot 0 (by rw [hn]; simp; omega)).trans (hroot 1 (by rw [hn]; simp; omega)).symm
  exact absurd h01 (by decide)

-- A symbol the sink does not take, and a refill that fails

/-- A sink that fails after the symbols `xs` (R73). -/
theorem emitted_failsAt {k : Sink} {xs : List Byte} (h : k.FailsAt xs.length) :
    (k.emitted xs).FailsAt 0 ∧ (k.emitted xs).faultsFailed 0 = k.faultsFailed xs.length := by
  have hc := emitted_outCount h.ready
  refine ⟨⟨emitted_ready h.ready, ?_⟩, ?_⟩
  · rw [hc, Nat.add_zero]
    have := h.fails
    simpa [Sink.emitted, List.getD_eq_getElem?_getD] using this
  · rw [Sink.faultsFailed, Sink.faultsFailed, hc]
    simp [Sink.emitted]

theorem walked_symCnt {s : State} {xs : List Byte} (hsum : xs.length ≤ s.freq.sum) (q : Source) :
    (s.walkStart.walked s.tree xs q).symCnt = BitVec.ofNat 64 xs.length ∧
      (s.walkStart.walked s.tree xs q).symCnt.toNat = xs.length := by
  have hle := sum_le s.freq
  have e : (s.walkStart.walked s.tree xs q).symCnt = BitVec.ofNat 64 xs.length := zero_add _
  exact ⟨e, by rw [e, BitVec.toNat_ofNat]; omega⟩

section
variable {s : State} (hrd : s.src.rdValid = true) (hv : s.tree.treeValid = true) (hok : s.TreeOk)
  {us : List (List Bool)} {xs : List Byte} (h : List.Forall₂ s.tree.Spells us xs)
include hrd hv hok h

/-- DEC_PAYLOAD once the bits of the symbols `xs` are delivered: the rest of its walk (R190). -/
theorem bodyDecPayload_after {q : Source} (hd : s.src.Delivers us.flatten q) (hsum : xs.length ≤ s.freq.sum)
    (hk : s.snk.Ready xs.length) (hlen : us.flatten.length ≤ s.src.ahead.length) :
    bodyDecPayload s =
      (walkLoop s.tree s.freq.total (s.src.bitsAhead - us.flatten.length) (s.walkStart.walked s.tree xs q)).within
        fun x => s.withStream { x with cur := none } := by
  have hle := ahead_length_le s.src
  have hsum' : s.walkStart.symCnt.toNat + xs.length ≤ s.freq.total.toNat := by
    rw [total_toNat, show s.walkStart.symCnt.toNat = 0 from rfl]; omega
  rw [bodyDecPayload_walk (total_ne_zero (hok.tree hv).1) hrd hv, ← walkLoop_symbols h rfl hd hsum' hk,
    Nat.add_sub_cancel' (by omega)]

/-- DEC_PAYLOAD at a symbol the sink does not take (R190, R230): its bits are gone. -/
theorem bodyDecPayload_lost (h8 : s.src.rcnt.toNat ≤ 8) (hnf : s.src.NoFault) {u rest : List Bool} {b : Byte}
    (hb : s.tree.Spells u b) (hah : s.src.ahead = us.flatten ++ u ++ rest) (hfail : s.snk.FailsAt xs.length)
    (hsum : xs.length < s.freq.sum) :
    ∃ q, bodyDecPayload s =
        .err .ioError { s with
          src := q, snk := { s.snk.emitted xs with faults := s.snk.faultsFailed xs.length }
          symCnt := BitVec.ofNat 64 xs.length, cur := none } ∧
      s.src.Consumed (us.flatten ++ u).length q := by
  obtain ⟨q, hd, hc⟩ := delivers_of_noFault (us.flatten ++ u) hnf h8 hah
  obtain ⟨q1, d1, d2⟩ := hd.split
  have hlen := ahead_length_le s.src
  rw [hah, List.length_append, List.length_append] at hlen
  obtain ⟨n, hn⟩ : ∃ n, s.src.bitsAhead - us.flatten.length = u.length + n :=
    ⟨s.src.bitsAhead - us.flatten.length - u.length, by omega⟩
  obtain ⟨hcnt, hcnt'⟩ := walked_symCnt (Nat.le_of_lt hsum) q1
  obtain ⟨i, e⟩ := walkLoop_symbol hb (x := s.walkStart.walked s.tree xs q1) rfl d2 (total := s.freq.total)
    (by rw [hcnt', total_toNat]; exact hsum)
  obtain ⟨hf, hff⟩ := emitted_failsAt hfail
  refine ⟨q, ?_, hc⟩
  rw [bodyDecPayload_after hrd hv hok h d1 (Nat.le_of_lt hsum) hfail.ready
    (by rw [hah, List.length_append, List.length_append]; omega), hn, e, emitSymbol]
  have hw : sinkWrite b (s.walkStart.walked s.tree xs q1).snk = _ := sinkWrite_fails hf b
  rw [hff] at hw
  dsimp only
  rw [hw, hcnt]
  rfl

/-- DEC_PAYLOAD across the refill that fails, with `u` the bits before it of a symbol begun (R190, R230). -/
theorem bodyDecPayload_failing {m : Nat} (hm : s.src.FailsAt m) {u rest : List Bool}
    (hu : u = [] ∨ (s.tree.node s.tree.root).leaf = false ∧ ∃ i, s.tree.Path s.tree.root u i ∧ (s.tree.node i).leaf = false)
    (hah : s.src.ahead = us.flatten ++ u ++ rest) (hbits : s.src.bitsTo m = (us.flatten ++ u).length + 1)
    (hk : s.snk.Ready xs.length) (hsum : xs.length < s.freq.sum) :
    bodyDecPayload s =
      .err .ioError { s with
        src := s.src.refillFailed m, snk := s.snk.emitted xs, symCnt := BitVec.ofNat 64 xs.length, cur := none } := by
  obtain ⟨q, m', hd, hnear, -⟩ := hm.delivers (us.flatten ++ u) hah (by omega)
  obtain ⟨q1, d1, d2⟩ := hd.split
  have hlen := ahead_length_le s.src
  have hlt := hm.bitsTo_lt
  rw [List.length_append] at hbits
  obtain ⟨n, hn⟩ : ∃ n, s.src.bitsAhead - us.flatten.length = u.length + (n + 1) :=
    ⟨s.src.bitsAhead - us.flatten.length - u.length - 1, by omega⟩
  obtain ⟨hcnt, hcnt'⟩ := walked_symCnt (Nat.le_of_lt hsum) q1
  have htot : (s.walkStart.walked s.tree xs q1).symCnt.toNat < s.freq.total.toNat := by
    rw [hcnt', total_toNat]; exact hsum
  obtain ⟨i, e⟩ : ∃ i, walkLoop s.tree s.freq.total (u.length + (n + 1)) (s.walkStart.walked s.tree xs q1) =
      walkLoop s.tree s.freq.total (n + 1) { s.walkStart.walked s.tree xs q1 with src := q, cur := i } := by
    rcases hu with rfl | ⟨hr, i, hp, hi⟩
    · cases d2
      exact ⟨some s.tree.root, by rw [List.length_nil, Nat.zero_add]; rfl⟩
    · exact ⟨some i, walkLoop_path hr hp hi rfl d2 htot (n + 1)⟩
  have hone : q.bitsTo m' = 1 := by
    have := hnear.bits
    rw [List.length_append] at this; omega
  rw [bodyDecPayload_after hrd hv hok h d1 (Nat.le_of_lt hsum) hk (by omega), hn, e, walkLoop,
    if_neg (Nat.not_le.2 htot)]
  dsimp only
  rw [hnear.fails.readBit hone, hnear.lost, hcnt]
  rfl

end

end Sys2Proof.Machine

/-! SUPPORT. The two ways a port fails (20_memory.md R71, R73): a byte the sink does not take, and a read the source does not
answer, in every command that comes to one. -/

namespace Sys2Proof.Machine

/-- ENC_PAYLOAD where the read of byte `i` is the first to fail (R71, R180, R230). -/
theorem bodyEncPayload_readFails {s : State} (hv : s.codesValid = true) {i : Nat} (hi : i < s.src.inLen.toNat)
    (hb : ∀ x ∈ s.src.faults.take i, x = false) (hf : s.src.faults.getD i false = true)
    (hc : ∀ x ∈ s.src.input.take i, s.codes.code x ≠ [])
    (hr : s.snk.Ready ((s.snk.wcnt.toNat + (payloadBits s.codes (s.src.input.take i)).length) / 8)) :
    ∃ k, bodyEncPayload s =
        .err .ioError { s with
          src := { s.src.scanned i with faults := s.src.faults.drop (i + 1) }, snk := k
          symCnt := BitVec.ofNat 64 i } ∧
      s.snk.Appended (payloadBits s.codes (s.src.input.take i)) k := by
  obtain ⟨k, e, a⟩ := bodyEncPayload_after hv (Nat.le_of_lt hi) hb hc hr
  obtain ⟨r, hn⟩ : ∃ r, s.src.inLen.toNat - i = r + 1 := ⟨s.src.inLen.toNat - i - 1, by omega⟩
  rw [hn, encodeLoop, srcRead_scanned_err hi hf] at e
  exact ⟨k, e, a⟩

-- DEC_PAYLOAD with the codes of its tree, and with a tree of one leaf

section
variable {s : State} (hrd : s.src.rdValid = true) (hv : s.tree.treeValid = true) (hok : s.TreeOk)
include hv hok

/-- The bits ahead of a tree of one leaf, as symbols (R191). -/
theorem spells_ahead {b : Byte} (h1 : s.freq.leaves = 1)
    (hb : s.freq.entry b ≠ 0) {n : Nat} (hn : n ≤ s.src.ahead.length) :
    List.Forall₂ s.tree.Spells ((s.src.ahead.take n).map fun d => [d]) (List.replicate n b) := by
  obtain ⟨hl, hs⟩ := build_root_leaf hb h1
  rw [← (hok.tree hv).2] at hl hs
  have hsp := spells_bits hl hs (s.src.ahead.take n)
  rwa [List.length_take_of_le hn] at hsp

include hrd

/-- DEC_PAYLOAD at the symbol of a code the sink does not take (R190, R230). -/
theorem bodyDecPayload_lost_code {m : Nat} (hfail : s.snk.FailsAt m) (h8 : s.src.rcnt.toNat ≤ 8) (hnf : s.src.NoFault)
    (hsum : m < s.freq.sum) {c : CodeMap} (hgen : s.tree.genCodes = some c) {xs : List Byte}
    (hxs : ∀ x ∈ xs, s.freq.entry x ≠ 0) (hlen : xs.length = m + 1) {rest : List Bool}
    (hah : s.src.ahead = payloadBits c xs ++ rest) :
    ∃ q, bodyDecPayload s =
        .err .ioError { s with
          src := q, snk := { s.snk.emitted (xs.take m) with faults := s.snk.faultsFailed m }
          symCnt := BitVec.ofNat 64 m, cur := none } ∧
      s.src.Consumed (payloadBits c xs).length q := by
  have ht := (hok.tree hv).2
  rw [ht] at hgen
  obtain ⟨ys, b, rfl⟩ : ∃ ys b, xs = ys ++ [b] :=
    (List.eq_nil_or_concat' xs).resolve_left fun e => by rw [e] at hlen; cases hlen
  obtain rfl : ys.length = m := by simpa using hlen
  rw [payloadBits_append, show payloadBits c [b] = c.code b from List.flatMap_singleton ..] at hah ⊢
  rw [List.take_left]
  exact bodyDecPayload_lost hrd hv hok (us := ys.map c.code) (ht ▸ spells_payload hgen fun x hx => hxs x (by simp [hx])) h8
    hnf (ht ▸ spells_code hgen (hxs b (by simp))) hah hfail hsum

/-- DEC_PAYLOAD of a tree of one leaf, at a symbol the sink does not take (R191, R230). -/
theorem bodyDecPayload_lost_single {m : Nat} (hfail : s.snk.FailsAt m) (h8 : s.src.rcnt.toNat ≤ 8)
    (hnf : s.src.NoFault) (hsum : m < s.freq.sum) {b : Byte} (h1 : s.freq.leaves = 1) (hb : s.freq.entry b ≠ 0)
    (hlt : m < s.src.ahead.length) :
    ∃ q, bodyDecPayload s =
        .err .ioError { s with
          src := q, snk := { s.snk.emitted (List.replicate m b) with faults := s.snk.faultsFailed m }
          symCnt := BitVec.ofNat 64 m, cur := none } ∧
      s.src.Consumed (m + 1) q := by
  obtain ⟨hl, hs⟩ := build_root_leaf hb h1
  rw [← (hok.tree hv).2] at hl hs
  have hah : s.src.ahead = s.src.ahead.take m ++ [s.src.ahead[m]] ++ s.src.ahead.drop (m + 1) := by
    rw [List.append_assoc, List.singleton_append, ← List.drop_eq_getElem_cons hlt, List.take_append_drop]
  have h := bodyDecPayload_lost hrd hv hok (spells_ahead hv hok h1 hb (Nat.le_of_lt hlt)) h8 hnf
    (u := [s.src.ahead[m]]) (.inl ⟨hl, hs, rfl⟩) (by rw [flatten_singletons]; exact hah)
    (by rwa [List.length_replicate]) (by rwa [List.length_replicate])
  rwa [flatten_singletons, List.length_append, List.length_take_of_le (Nat.le_of_lt hlt), List.length_replicate] at h

/-- DEC_PAYLOAD across the refill that fails, within a code (R190, R230). -/
theorem bodyDecPayload_failing_code {m : Nat} (hf : s.src.FailsAt m) {c : CodeMap} (hgen : s.tree.genCodes = some c)
    (h2 : 2 ≤ s.freq.leaves) {xs : List Byte} (hxs : ∀ x ∈ xs, s.freq.entry x ≠ 0) {b : Byte} (hb : s.freq.entry b ≠ 0)
    (hsum : xs.length < s.freq.sum) {u rest : List Bool} (hu : u ≠ []) (hpre : u <+: c.code b)
    (hah : s.src.ahead = payloadBits c xs ++ u ++ rest) (hbits : s.src.bitsTo m = (payloadBits c xs ++ u).length)
    (hk : s.snk.Ready xs.length) :
    bodyDecPayload s =
      .err .ioError { s with
        src := s.src.refillFailed m, snk := s.snk.emitted xs, symCnt := BitVec.ofNat 64 xs.length, cur := none } := by
  have ht := (hok.tree hv).2
  have hr := build_root_inner h2
  rw [ht] at hgen
  obtain ⟨v, d, rfl⟩ := (List.eq_nil_or_concat' u).resolve_left hu
  obtain ⟨w, hw⟩ := hpre
  rcases spells_code hgen hb with ⟨hl, -⟩ | ⟨-, j, hp, -⟩
  · rw [hr] at hl; cases hl
  · rw [← hw, List.append_assoc] at hp
    obtain ⟨i, hpath, hrest⟩ := hp.split
    have hi : ((Tree.build s.freq).node i).leaf = false := by
      cases hrest with
      | cons hi _ => exact hi
    rw [← List.append_assoc, List.append_assoc _ [d]] at hah
    rw [← List.append_assoc, List.length_append, List.length_singleton] at hbits
    exact bodyDecPayload_failing hrd hv hok (us := xs.map c.code) (ht ▸ spells_payload hgen hxs) hf
      (.inr (ht ▸ ⟨hr, i, hpath, hi⟩)) hah hbits hk hsum

/-- DEC_PAYLOAD of a tree of one leaf, across the refill that fails (R191, R230). -/
theorem bodyDecPayload_failing_single {m : Nat} (hf : s.src.FailsAt m) {b : Byte} (h1 : s.freq.leaves = 1)
    (hb : s.freq.entry b ≠ 0) (hsum : s.src.bitsTo m ≤ s.freq.sum) (hk : s.snk.Ready (s.src.bitsTo m - 1)) :
    bodyDecPayload s =
      .err .ioError { s with
        src := s.src.refillFailed m, snk := s.snk.emitted (List.replicate (s.src.bitsTo m - 1) b)
        symCnt := BitVec.ofNat 64 (s.src.bitsTo m - 1), cur := none } := by
  have hlt := hf.bitsTo_lt
  have hpos : 0 < s.src.bitsTo m := Nat.add_pos_left (rcnt_pos hf) _
  have h := bodyDecPayload_failing hrd hv hok (spells_ahead hv hok h1 hb (n := s.src.bitsTo m - 1) (by omega)) hf
    (u := []) (rest := s.src.ahead.drop (s.src.bitsTo m - 1)) (.inl rfl)
    (by rw [flatten_singletons, List.append_nil, List.take_append_drop])
    (by rw [flatten_singletons, List.append_nil, List.length_take_of_le (by omega)]; omega)
    (by rwa [List.length_replicate]) (by rw [List.length_replicate]; omega)
  rwa [List.length_replicate] at h

end

/-- Settles O24: a bit sequence that is lost part of the way (`writeSeq_lost`), a symbol that is (`bodyDecPayload_lost`), and
ENCODE's stream (`bodyEncode_lost`). -/
theorem aFailedSinkWriteLosesItsByte : Obligations.AFailedSinkWriteLosesItsByte := by
  intro s m
  refine ⟨fun hfail => ⟨fun n hn hm => ?wrBits, fun h0 hm => ?flush, fun hf hm => ?hdrWrite,
    fun xs ys b hv hnf hin hc hlo hhi => ?encPayload, fun hrd h8 hnf hv hok hsum =>
      ⟨fun c xs rest hgen hxs hlen hah => ?decPayload, fun b h1 hb hlt => ?decSingle⟩⟩,
    fun f c hfail hnf hcnt h0 hf hgen hm => ?encode⟩
  case wrBits =>
    obtain ⟨k, e, l⟩ := writeSeq_lost (fieldBits n.toNat s.value) hfail (by rwa [fieldBits_length])
    exact ⟨k, by rw [exec_eq_finish, bodyOf, bodyWrBits_eq hn, e]; rfl, l⟩
  case flush =>
    subst hm
    have hfail' : ({ s.snk with wacc := 0, wcnt := 0 } : Sink).FailsAt 0 := ⟨hfail.ready, hfail.fails⟩
    rw [exec_eq_finish, bodyOf, bodyFlush, flushBits, if_neg h0, sinkWrite_fails hfail']
    rfl
  case hdrWrite =>
    rw [← headerBits_length_bytes] at hm
    obtain ⟨k, e, l⟩ := writeSeq_lost _ hfail hm
    exact ⟨k, by rw [exec_eq_finish, bodyOf, bodyHdrWrite_eq hf, e]; rfl, l⟩
  case encPayload =>
    obtain ⟨k, e, l⟩ := bodyEncPayload_lost hfail hv hnf hin hc hlo hhi
    exact ⟨k, by rw [exec_eq_finish, bodyOf, e]; rfl, l⟩
  case decPayload =>
    obtain ⟨q, e, hc⟩ := bodyDecPayload_lost_code hrd hv hok hfail h8 hnf hsum hgen hxs hlen hah
    exact ⟨q, by rw [exec_eq_finish, bodyOf, e]; rfl, hc⟩
  case decSingle =>
    obtain ⟨q, e, hc⟩ := bodyDecPayload_lost_single hrd hv hok hfail h8 hnf hsum h1 hb hlt
    exact ⟨q, by rw [exec_eq_finish, bodyOf, e]; rfl, hc⟩
  case encode =>
    obtain ⟨t, e, hst, hcmd, hstage, l⟩ := bodyEncode_lost ⟨hnf, hcnt, h0, hf, hgen⟩ hfail hm
    refine ⟨abort .ioError t, by rw [exec_eq_finish, bodyOf, e]; rfl, ?_, l⟩
    rw [abort_status, hst, hcmd, hstage]
    rfl

/-- RD_BITS with a reader constructed (R120). -/
theorem bodyRdBits_eq {n : BitVec 6} (hn : n.toNat ≤ 32) {s : State} (hv : s.src.rdValid = true) :
    bodyRdBits n s = ((readBits n.toNat s.src).within fun q => { s with src := q }).bind fun v s' =>
      .ok () { s' with value := v } := by
  rw [bodyRdBits, if_pos (countOk_of_le hn), if_pos hv]
  rfl

/-- Settles O28: a field cut short (`readBitsFrom_truncated`), and the refill that fails in a field (`readBitsFrom_failing`), in
a header (`bodyHdrRead_failing`), in a payload (`bodyDecPayload_failing`) and in a scan (`bodyEncPayload_readFails`). -/
theorem abortedReadsLoseTheirBits : Obligations.AbortedReadsLoseTheirBits := by
  intro s
  refine ⟨fun hv h8 => ⟨fun n hn hnf hlt => ?truncated, fun h0 => ?empty, fun h1 hf => ?rdBit⟩,
    fun m hv hf => ⟨fun n hn hm => ?rdBits, fun cs f rest hfit hah hm => ?hdrRead, fun htv hok =>
      ⟨fun c xs u rest b hgen h2 hxs hb hsum hu hpre hah hbits hk => ?decPayload, fun b h1 hb hsum hk => ?decSingle⟩⟩,
    fun i hv hi hb hf hc hr => ?encPayload⟩
  case truncated =>
    obtain ⟨q, e, hc, h0⟩ := readBitsFrom_truncated n.toNat 0 hnf h8 hlt
    exact ⟨q, by rw [exec_eq_finish, bodyOf, bodyRdBits_eq hn hv, readBits, e]; rfl, hc, h0⟩
  case empty =>
    rw [exec_eq_finish, bodyOf, bodyRdBit, if_pos hv, readBit, if_pos h0]; rfl
  case rdBit =>
    have hone : s.src.bitsTo 0 = 1 := by rw [Source.bitsTo, h1]; rfl
    rw [exec_eq_finish, bodyOf, bodyRdBit, if_pos hv, hf.readBit hone]; rfl
  case rdBits =>
    rw [exec_eq_finish, bodyOf, bodyRdBits_eq hn hv, readBits, readBitsFrom_failing _ 0 hf hm]; rfl
  case hdrRead =>
    obtain ⟨g, cl, e, hg⟩ := bodyHdrRead_failing hfit hv hf hah hm
    exact ⟨g, by rw [exec_eq_finish, bodyOf, e]; rfl, hg⟩
  case decPayload =>
    rw [exec_eq_finish, bodyOf, bodyDecPayload_failing_code hv htv hok hf hgen h2 hxs hb hsum hu hpre hah hbits hk]; rfl
  case decSingle =>
    rw [exec_eq_finish, bodyOf, bodyDecPayload_failing_single hv htv hok hf h1 hb hsum hk]; rfl
  case encPayload =>
    obtain ⟨k, e, a⟩ := bodyEncPayload_readFails hv hi hb hf hc hr
    exact ⟨k, by rw [exec_eq_finish, bodyOf, e]; rfl, a⟩

end Sys2Proof.Machine

/-! SUPPORT. The command word (30_encoding.md R90 to R97): the bits its decoding reads, all that decoding can answer, and
what an accepted CMD write then runs (R101, R200) or aborts (R95, R96, R228). -/

namespace Sys2Proof.Machine

-- The fields of a command and of a word

/-- The commands whose decoding reads N (R92, R97). -/
def ReadsCount (i : Instr) : Prop := ∃ n, i = .wrBits n ∨ i = .rdBits n

/-- The fields of every command's word (R91, R94). -/
theorem opField (i : Instr) : Laws.OpField.Statement i := by
  cases i with
  | clear => exact Laws.OpField.clear
  | wrBits n => exact Laws.OpField.wrBits n
  | flush => exact Laws.OpField.flush
  | rdInit => exact Laws.OpField.rdInit
  | rdBit => exact Laws.OpField.rdBit
  | rdBits n => exact Laws.OpField.rdBits n
  | count => exact Laws.OpField.count
  | hdrWrite => exact Laws.OpField.hdrWrite
  | hdrRead => exact Laws.OpField.hdrRead
  | build => exact Laws.OpField.build
  | gencodes => exact Laws.OpField.gencodes
  | encPayload => exact Laws.OpField.encPayload
  | decPayload => exact Laws.OpField.decPayload
  | encode => exact Laws.OpField.encode
  | decode => exact Laws.OpField.decode

/-- Decoding reads the bits of OP, and those of N where N is a field; where it is none, the encoding has N = 0 (R91, R97). -/
theorem wordMask_cases (i : Instr) :
    (ReadsCount i ∧ i.wordMask = 0x3FFF#32) ∨ (¬ReadsCount i ∧ i.wordMask = 0xFF#32 ∧ i.countField = 0) := by
  cases i with
  | wrBits n => exact .inl ⟨⟨n, .inl rfl⟩, rfl⟩
  | rdBits n => exact .inl ⟨⟨n, .inr rfl⟩, rfl⟩
  | _ => exact .inr ⟨by simp [ReadsCount], rfl, rfl⟩

/-- The counts the encoding does not admit (R96). -/
theorem not_countOk_iff {n : BitVec 6} : ¬countOk n = true ↔ 32 < n.toNat :=
  (not_congr decide_eq_true_iff).trans Nat.not_le

theorem wordOp_toNat (w : Word) : (wordOp w).toNat = w.toNat % 2 ^ 8 := by
  rw [wordOp, BitVec.extractLsb'_toNat, Nat.shiftRight_zero]

theorem wordCount_toNat (w : Word) : (wordCount w).toNat = w.toNat / 2 ^ 8 % 2 ^ 6 := by
  rw [wordCount, BitVec.extractLsb'_toNat, Nat.shiftRight_eq_div_pow]

theorem encode_toNat (i : Instr) : (encode i).toNat = i.countField.toNat * 2 ^ 8 + i.op.toNat := by
  rw [encode, toNat_append_eq, toNat_append_eq, BitVec.toNat_ofNat]
  omega

/-- A word has a command's OP, and its N where the command reads N. -/
def SameFields (i : Instr) (w : Word) : Prop := wordOp w = i.op ∧ (ReadsCount i → wordCount w = i.countField)

/-- A word has a command's fields where it agrees with the command's encoding in the decoded bits (R91, R97). -/
theorem and_wordMask_eq_encode_iff (i : Instr) (w : Word) : w &&& i.wordMask = encode i ↔ SameFields i w := by
  have hop := i.op.isLt
  have hn := i.countField.isLt
  rw [SameFields, ← BitVec.toNat_inj, ← BitVec.toNat_inj, ← BitVec.toNat_inj, encode_toNat, wordOp_toNat,
    wordCount_toNat]
  rcases wordMask_cases i with ⟨hr, hm⟩ | ⟨hr, hm, h0⟩
  · rw [hm, BitVec.toNat_and, show (0x3FFF#32).toNat = 2 ^ 14 - 1 from rfl, Nat.and_two_pow_sub_one_eq_mod]
    simp only [hr, true_imp_iff]
    omega
  · rw [hm, BitVec.toNat_and, show (0xFF#32).toNat = 2 ^ 8 - 1 from rfl, Nat.and_two_pow_sub_one_eq_mod, h0]
    simp [hr]

-- What decoding answers

/-- What an answer of the decoder says of the word (R94 to R96). -/
def FitsWord (w : Word) : Decoded → Prop
  | .command i => i.wellFormed = true ∧ SameFields i w
  | .illegal (.reservedOp op) => op = wordOp w ∧ (op = 0x00#8 ∨ 0x10 ≤ op.toNat)
  | .illegal (.countTooLarge n) => n = wordCount w ∧ (wordOp w = 0x02#8 ∨ wordOp w = 0x06#8) ∧ 32 < n.toNat

theorem decodeCounted_fits {f : BitVec 6 → Instr} {w : Word} (ho : wordOp w = 0x02#8 ∨ wordOp w = 0x06#8)
    (hc : countOk (wordCount w) = true → (f (wordCount w)).wellFormed = true ∧ SameFields (f (wordCount w)) w) :
    FitsWord w (decodeCounted f (wordCount w)) := by
  rw [decodeCounted]
  split
  · rename_i h
    exact hc h
  · rename_i h
    exact ⟨rfl, ho, not_countOk_iff.1 h⟩

/-- All that decoding can answer (R94 to R96). -/
theorem decode_fits (w : Word) : FitsWord w (decode w) := by
  have plain {i : Instr} (hr : ¬ReadsCount i) (hw : i.wellFormed = true) (ho : (wordOp w).toNat = i.op.toNat) :
      FitsWord w (.command i) := ⟨hw, BitVec.eq_of_toNat_eq ho, fun h => absurd h hr⟩
  rw [decode]
  split
  case h_2 h =>
    have ho : wordOp w = 0x02#8 := BitVec.eq_of_toNat_eq h
    exact decodeCounted_fits (.inl ho) fun hc => ⟨hc, ho, fun _ => rfl⟩
  case h_6 h =>
    have ho : wordOp w = 0x06#8 := BitVec.eq_of_toNat_eq h
    exact decodeCounted_fits (.inr ho) fun hc => ⟨hc, ho, fun _ => rfl⟩
  case h_16 =>
    refine ⟨rfl, ?_⟩
    rw [← BitVec.toNat_inj, BitVec.toNat_ofNat]
    simp only [imp_false] at *
    omega
  all_goals exact plain (by simp [ReadsCount]) rfl ‹_›

/-- `decode_fits`, of the answer a word is known to have. -/
theorem fits_of_decode {w : Word} {d : Decoded} (h : decode w = d) : FitsWord w d := h ▸ decode_fits w

/-- OP selects the command, and N is read where it is one of its fields (R94, R101). -/
theorem decode_of_sameFields {i : Instr} (hi : i.wellFormed = true) {w : Word} (h : SameFields i w) :
    decode w = .command i := by
  obtain ⟨ho, hn⟩ := h
  rw [decode, ho]
  cases i with
  | wrBits n => rw [hn ⟨n, .inl rfl⟩]; exact if_pos hi
  | rdBits n => rw [hn ⟨n, .inr rfl⟩]; exact if_pos hi
  | _ => rfl

theorem sameFields_encode (i : Instr) : SameFields i (encode i) := by
  obtain ⟨ho, hn, -⟩ := opField i
  exact ⟨ho, fun _ => hn⟩

/-- Settles O1: the words that decode to a command are those with its fields (`fits_of_decode`, `decode_of_sameFields`),
which are those that agree with its encoding under its mask (`and_wordMask_eq_encode_iff`). -/
theorem decodeOfEncodeIsTheCommand : Obligations.DecodeOfEncodeIsTheCommand := by
  intro i hi
  refine ⟨decode_of_sameFields hi (sameFields_encode i), fun w => ?_⟩
  rw [and_wordMask_eq_encode_iff]
  exact ⟨fun e => (fits_of_decode e).2, decode_of_sameFields hi⟩

-- The illegal words

/-- R94, R95: `decode_fits` leaves a reserved OP no other answer. -/
theorem decode_reserved_iff (w : Word) :
    decode w = .illegal (.reservedOp (wordOp w)) ↔ wordOp w = 0x00#8 ∨ 0x10 ≤ (wordOp w).toNat := by
  refine ⟨fun e => (fits_of_decode e).2, fun ho => ?_⟩
  cases e : decode w with
  | command i =>
    obtain ⟨-, hop, -⟩ := fits_of_decode e
    obtain ⟨-, -, -, hlo, hhi⟩ := opField i
    rw [← hop] at hlo hhi
    rcases ho with ho | ho
    · rw [ho] at hlo; cases hlo
    · omega
  | illegal r =>
    cases r with
    | reservedOp op =>
      obtain ⟨rfl, -⟩ := fits_of_decode e
      rfl
    | countTooLarge n =>
      obtain ⟨-, h2 | h6, -⟩ := fits_of_decode e
      · exact absurd ho (by rw [h2]; decide)
      · exact absurd ho (by rw [h6]; decide)

/-- R96. -/
theorem decode_countTooLarge_iff (w : Word) :
    decode w = .illegal (.countTooLarge (wordCount w)) ↔
      (wordOp w = 0x02#8 ∨ wordOp w = 0x06#8) ∧ 32 < (wordCount w).toNat := by
  refine ⟨fun e => (fits_of_decode e).2, fun ⟨ho, hn⟩ => ?_⟩
  rcases ho with ho | ho
  · rw [decode, ho]; exact if_neg (not_countOk_iff.2 hn)
  · rw [decode, ho]; exact if_neg (not_countOk_iff.2 hn)

/-- Settles O2: the two rejections (`decode_reserved_iff`, `decode_countTooLarge_iff`); `decode_fits` knows no
third. -/
theorem illegalWordsAreTheReservedOnes : Obligations.IllegalWordsAreTheReservedOnes := by
  intro w
  refine ⟨decode_reserved_iff w, decode_countTooLarge_iff w, fun r e => ?_, fun i e => ?_⟩
  · cases r with
    | reservedOp op => exact .inl (congrArg _ (fits_of_decode e).1)
    | countTooLarge n => exact .inr (congrArg _ (fits_of_decode e).1)
  · obtain ⟨hi, hop, -⟩ := fits_of_decode e
    exact ⟨hi, hop.symm⟩

/-- Settles O3: twenty-six closed words, each decoded by evaluation. -/
theorem opcodeMapWordsDecode : Obligations.OpcodeMapWordsDecode := by
  unfold Obligations.OpcodeMapWordsDecode
  decide

-- Issuing a word

/-- A CMD write that is not rejected runs its word on the accepted state (R200, R262). -/
theorem step_writeCmd_accepted {s : State} {w : Word} (h : rejects s w = false) :
    step (s.issueWrite 0x004 w) = runWord exec w (accept w s) := by
  rw [step_issueWrite s (by decide) (by decide), hostWrite, show regAt 0x004 = some .cmd from rfl]
  simp only [h]
  rfl

/-- Settles O4: the write is accepted, and `runWord` runs the command. -/
theorem stepRunsTheDecodedCommand : Obligations.StepRunsTheDecodedCommand := by
  intro s w i hb he hd
  have hr : rejects s w = false := by rcases he with he | he <;> simp [rejects, hb, he]
  rw [step_writeCmd_accepted hr, runWord, hd]
  rfl

theorem wordOp_setWidth (w : Word) : (w.setWidth 14).extractLsb' 0 8 = wordOp w := by
  apply BitVec.eq_of_toNat_eq
  rw [wordOp_toNat, BitVec.extractLsb'_toNat, BitVec.toNat_setWidth, Nat.shiftRight_zero]
  omega

/-- An abort straight after acceptance changes CMD and STATUS alone: an idle block has no transient state but the STAGE
that acceptance sets (R49, R200, R226). -/
theorem abort_accept {s : State} (h : s.Idle) (k : ErrorKind) (w : Word) :
    abort k (accept w s) =
      { s with cmd := w.setWidth 14, status := s.status.accept.abort k (wordOp w) (wordOp w) } := by
  obtain ⟨-, hstage, hcur, hcls, hpq⟩ := h
  rw [abort, State.discardTransient, accept_cmd, wordOp_setWidth, ← hpq, ← hcur, ← hcls, ← hstage]
  rfl

/-- R95, R96. -/
theorem decode_illegal {w : Word}
    (h : wordOp w = 0x00#8 ∨ 0x10 ≤ (wordOp w).toNat ∨
      ((wordOp w = 0x02#8 ∨ wordOp w = 0x06#8) ∧ 32 < (wordCount w).toNat)) : ∃ r, decode w = .illegal r := by
  rcases h with h0 | h10 | hn
  · exact ⟨_, (decode_reserved_iff w).2 (.inl h0)⟩
  · exact ⟨_, (decode_reserved_iff w).2 (.inr h10)⟩
  · exact ⟨_, (decode_countTooLarge_iff w).2 hn⟩

/-- Settles O5: the word is accepted, decodes to no command, and `abort_accept` is the whole next state. -/
theorem illegalWordAborts : Obligations.IllegalWordAborts := by
  intro s w hidle he hw
  obtain ⟨r, hd⟩ := decode_illegal hw
  have hr : rejects s w = false := by simp [rejects, hidle.busy, he]
  rw [step_writeCmd_accepted hr, runWord, hd]
  exact congrArg _ (abort_accept hidle .illegalCommand w)

-- Missing prerequisites

/-- A body that raises IllegalCommand at once leaves the state to the abort (R228). -/
theorem exec_illegal {i : Instr} {s : State} (h : bodyOf i s = .err .illegalCommand s) :
    exec i s = .next (abort .illegalCommand s) := by
  rw [exec_eq_finish, h]; rfl

/-- Settles O29: the check at the head of each body fails. -/
theorem prerequisitesAreChecked : Obligations.PrerequisitesAreChecked := by
  intro s
  refine ⟨fun hr => ⟨exec_illegal ?rdBit, exec_illegal ?hdrRead, fun n => exec_illegal ?rdBits⟩,
    fun n hn => ?counts, fun ht => exec_illegal ?gencodes, fun hc => exec_illegal ?encPayload,
    fun h0 hm => exec_illegal ?decPayload⟩
  case rdBit => rw [bodyOf, bodyRdBit, hr]; rfl
  case hdrRead => rw [bodyOf, bodyHdrRead, hr]; rfl
  case rdBits => rw [bodyOf, bodyRdBits, hr]; exact ite_self _
  case counts =>
    have hc := not_countOk_iff.2 hn
    exact ⟨exec_illegal (if_neg hc), exec_illegal (if_neg hc)⟩
  case gencodes => rw [bodyOf, bodyGencodes, ht]; rfl
  case encPayload => rw [bodyOf, bodyEncPayload, hc]; rfl
  case decPayload =>
    have hn : s.freq.total ≠ 0 := fun e => h0 (by rw [← total_toNat, e]; rfl)
    have hv : ¬(s.src.rdValid && s.tree.treeValid) = true := by rcases hm with h | h <;> simp [h]
    rw [bodyOf, bodyDecPayload, if_neg hn, if_neg hv]

end Sys2Proof.Machine

/-! SUPPORT. The commands of the bit writer and the bit reader (40_bitpack.md R112 to R121), and the round trip of fields written
by WR_BITS and FLUSH and read by RD_INIT and RD_BITS (R123). -/

namespace Sys2Proof.Machine

-- FLUSH

/-- The zero bits FLUSH appends: none, where no bit is pending (R112). -/
def Sink.flushPad (k : Sink) : List Bool := List.replicate ((8 - k.wcnt.toNat) % 8) false

theorem flushPad_length (k : Sink) : k.flushPad.length = (8 - k.wcnt.toNat) % 8 := List.length_replicate

/-- FLUSH with a sink that takes the byte, if one is pending (R112, R117). -/
theorem exec_flush_appended {s : State} (hr : s.snk.Ready ((s.snk.wcnt.toNat + s.snk.flushPad.length) / 8)) :
    ∃ k, flushBits s.snk = .ok () k ∧ exec .flush s = .next (complete { s with snk := k }) ∧
      s.snk.Appended s.snk.flushPad k := by
  obtain ⟨k, e, a⟩ := writeSeq_appended s.snk.flushPad hr
  have he : flushBits s.snk = .ok () k := (flushBits_eq _).trans e
  exact ⟨k, he, by rw [exec_eq_finish, bodyOf, bodyFlush, he]; rfl, a⟩

/-- A flush that emits a byte leaves the writer empty, whatever stood above the pending bits (R112). -/
theorem flushBits_empties {k k' : Sink} (h0 : k.wcnt ≠ 0) (h : flushBits k = .ok () k') : k'.wacc = 0 ∧ k'.wcnt = 0 := by
  rw [flushBits, if_neg h0] at h
  rcases sinkWrite_cases (k.wacc <<< (8 - k.wcnt.toNat)) { k with wacc := 0, wcnt := 0 } with ⟨fs, e⟩ | ⟨-, e⟩
  · rw [e] at h; cases h
  · rw [e] at h; cases h; exact ⟨rfl, rfl⟩

/-- Settles O23: the pad is a bit sequence the writer appends (`exec_flush_appended`), and the write of its byte empties the
writer (`flushBits_empties`). -/
theorem flushEmitsThePartialByte : Obligations.FlushEmitsThePartialByte := by
  intro s
  refine ⟨fun h0 => ?_, fun h0 hr => ?_⟩
  · rw [exec_eq_finish, bodyOf, bodyFlush, flushBits, if_pos h0]; rfl
  · have hw := wcnt_le s.snk
    have hpos : s.snk.wcnt.toNat ≠ 0 := fun e => h0 (BitVec.eq_of_toNat_eq e)
    have hlen := flushPad_length s.snk
    obtain ⟨k, e, he, a⟩ := exec_flush_appended (s := s) (hr.mono (by omega))
    obtain ⟨hacc, hcnt⟩ := flushBits_empties h0 e
    rw [Sink.flushPad, Nat.mod_eq_of_lt (by omega)] at a
    exact ⟨k, he, hacc, hcnt, a⟩

-- RD_INIT

/-- A fetch below IN_LEN whose draw is no fault, whatever the later draws are (R71, R113). -/
theorem fetch_ok {q : Source} (hi : q.srcPos.toNat < q.inLen.toNat) (hf : q.faults.headD false = false) :
    fetch q = .ok () { q with
      rbuf := q.inByte q.srcPos.toNat, rcnt := 8, srcPos := q.srcPos + 1, faults := q.faults.tail } := by
  rw [fetch, srcRead, if_neg (Nat.not_le.2 hi), if_neg (by rw [hf]; decide)]

/-- A fetch below IN_LEN whose draw is a fault (R71, R113). -/
theorem fetch_err {q : Source} (hi : q.srcPos.toNat < q.inLen.toNat) (hf : q.faults.headD false = true) :
    fetch q = .err .ioError { q with faults := q.faults.tail } := by
  rw [fetch, srcRead_err hi hf]

/-- A fetch at the end of the input (R113). -/
theorem fetch_eof {q : Source} (hi : q.inLen.toNat ≤ q.srcPos.toNat) :
    fetch q = .ok () { q with reof := true, rcnt := 0 } := by
  rw [fetch, srcRead_eof hi]

/-- RD_INIT ends as its pre-read does (R118). -/
theorem exec_rdInit (s : State) :
    exec .rdInit s = finish ((fetch s.src.opened).within fun q => { s with src := q }) := rfl

/-- Settles O25: the three answers to the pre-read, which is a fetch at 0 (`fetch_eof`, `fetch_ok`, `fetch_err`). -/
theorem rdInitFetchesTheFirstByte : Obligations.RdInitFetchesTheFirstByte := by
  intro s
  have hpos (h0 : s.src.inLen ≠ 0) : s.src.opened.srcPos.toNat < s.src.opened.inLen.toNat :=
    Nat.pos_of_ne_zero fun e => h0 (BitVec.eq_of_toNat_eq e)
  refine ⟨fun h0 => ?eof, fun h0 hf => ?ok, fun h0 hf => ?err⟩
  case eof => rw [exec_rdInit, fetch_eof (show s.src.inLen.toNat ≤ 0 by rw [h0]; decide)]; rfl
  case ok => rw [exec_rdInit, fetch_ok (hpos h0) hf]; rfl
  case err => rw [exec_rdInit, fetch_err (hpos h0) hf]; rfl

-- RD_BIT and RD_BITS

/-- RD_BIT where the reader delivers a bit (R119). -/
theorem exec_rdBit_ok {s : State} (hv : s.src.rdValid = true) {b : Bool} {q : Source} (h : readBit s.src = .ok b q) :
    exec .rdBit s = .next (complete { s with src := q, value := if b then 1 else 0 }) := by
  have hb : (BitVec.ofBool b).setWidth 32 = if b then 1 else 0 := by cases b <;> rfl
  rw [exec_eq_finish, bodyOf, bodyRdBit, if_pos hv, h, ← hb]; rfl

/-- RD_BITS where the reader delivers a field (R120). -/
theorem exec_rdBits_ok {n : BitVec 6} (hn : n.toNat ≤ 32) {s : State} (hv : s.src.rdValid = true) {v : Word} {q : Source}
    (h : readBits n.toNat s.src = .ok v q) :
    exec (.rdBits n) s = .next (complete { s with src := q, value := v }) := by
  rw [exec_eq_finish, bodyOf, bodyRdBits_eq hn hv, h]; rfl

/-- Settles O26: the bit read is the first of the bits ahead (`readBit_consumed`). -/
theorem rdBitDeliversTheNextBit : Obligations.RdBitDeliversTheNextBit := by
  intro s hv h0 h8 hnf
  obtain ⟨q, e, htop, hc⟩ := readBit_consumed hnf h8 h0
  exact ⟨q, by rw [exec_rdBit_ok hv e, htop]; rfl, hc⟩

/-- Settles O27: the bits read are shifted into a word of 32 bits (`readBits_consumed`, `shiftIn_zero_toNat`). -/
theorem rdBitsDeliversTheField : Obligations.RdBitsDeliversTheField := by
  intro n s hn hv h8 hnf hlen
  obtain ⟨q, e, hc⟩ := readBits_consumed hnf h8 hlen
  exact ⟨q, _, exec_rdBits_ok hn hv e, shiftIn_zero_toNat (by rw [List.length_take]; omega), hc⟩

-- The bytes a sink holds, as bits

/-- Bytes that are the eights of a bit sequence, one after the other, are the sequence up to where they end (R74). -/
theorem flatMap_byteBits_eq_take {xs : List Byte} {bs : List Bool}
    (h : ∀ j, (hj : j < xs.length) → byteBits xs[j] = (bs.drop (8 * j)).take 8) :
    xs.flatMap byteBits = bs.take (8 * xs.length) := by
  induction xs generalizing bs with
  | nil => rfl
  | cons x xs ih =>
    have hx : byteBits x = bs.take 8 := h 0 (Nat.zero_lt_succ _)
    have hxs : xs.flatMap byteBits = (bs.drop 8).take (8 * xs.length) := ih fun j hj => by
      rw [List.drop_drop, Nat.add_comm]
      exact h (j + 1) (Nat.succ_lt_succ hj)
    rw [List.flatMap_cons, hx, hxs, List.length_cons, Nat.mul_succ, Nat.add_comm, List.take_add]

/-- The bytes a sink has taken since OUT_COUNT stood at `k`'s are the pending and appended bits, up to the last full eight (R74,
R110). -/
theorem Sink.Appended.holds_bits {k k' : Sink} {bs : List Bool} {xs : List Byte} (a : k.Appended bs k')
    (h : k'.Holds k.outCount.toNat xs) :
    xs.flatMap byteBits = (k.pending ++ bs).take (8 * ((k.pending ++ bs).length / 8)) := by
  obtain ⟨hcount, hread⟩ := h
  have hlen : xs.length = (k.pending ++ bs).length / 8 := Nat.add_left_cancel (hcount.symm.trans a.count)
  rw [← hlen]
  refine flatMap_byteBits_eq_take fun j hj => ?_
  have hb := a.bytes j (hlen ▸ hj)
  rw [hread j hj] at hb
  exact Option.some.inj hb

/-- Where the writer was empty and whole bytes were appended, those bytes are all of the bits (R74, R110). -/
theorem Sink.Appended.holds_whole {k k' : Sink} {bs : List Bool} {xs : List Byte} (a : k.Appended bs k')
    (h : k'.Holds k.outCount.toNat xs) (h0 : k.wcnt.toNat = 0) {m : Nat} (hm : bs.length = 8 * m) :
    xs.flatMap byteBits = bs := by
  have hp : k.pending = [] := List.eq_nil_of_length_eq_zero ((pending_length k).trans h0)
  have hx := a.holds_bits h
  rwa [hp, List.nil_append, hm, Nat.mul_div_cancel_left _ (by decide), ← hm, List.take_length] at hx

-- The fields of the round trip

/-- The bits of a list of fields, back to back (R123). -/
def fieldsBits (fs : List (BitVec 6 × Word)) : List Bool := fs.flatMap fun p => fieldBits p.1.toNat p.2

theorem fieldsBits_cons (n : BitVec 6) (v : Word) (fs : List (BitVec 6 × Word)) :
    fieldsBits ((n, v) :: fs) = fieldBits n.toNat v ++ fieldsBits fs := List.flatMap_cons

theorem fieldsBits_length (fs : List (BitVec 6 × Word)) :
    (fieldsBits fs).length = (fs.map fun p => p.1.toNat).sum := by
  simp only [fieldsBits, List.length_flatMap, fieldBits_length]

theorem valueOperand_lt (n : Nat) (v : Word) : (valueOperand n v).toNat < 2 ^ n := by
  have hpos : 0 < 2 ^ n := Nat.two_pow_pos n
  calc (valueOperand n v).toNat
    _ ≤ (2 ^ n - 1) % 2 ^ 32 := by rw [valueOperand, BitVec.toNat_and, BitVec.toNat_ofNat]; exact Nat.and_le_right
    _ ≤ 2 ^ n - 1 := Nat.mod_le _ _
    _ < 2 ^ n := Nat.sub_one_lt_of_lt hpos

/-- WR_BITS of each field appends the fields' bits (R111, R123). -/
theorem writeFields_appended {fs : List (BitVec 6 × Word)} (hfs : ∀ p ∈ fs, p.1.toNat ≤ 32) {s : State}
    (hr : s.snk.Ready ((s.snk.wcnt.toNat + (fieldsBits fs).length) / 8)) :
    ∃ t, s.writeFields fs = .next t ∧ t.status.err = s.status.err ∧ s.snk.Appended (fieldsBits fs) t.snk := by
  induction fs generalizing s with
  | nil => exact ⟨s, rfl, rfl, appended_nil _⟩
  | cons p fs ih =>
    obtain ⟨n, v⟩ := p
    rw [fieldsBits_cons] at hr ⊢
    have hle : (s.snk.wcnt.toNat + n.toNat) / 8 ≤
        (s.snk.wcnt.toNat + (fieldBits n.toNat v ++ fieldsBits fs).length) / 8 := by
      rw [List.length_append, fieldBits_length]; omega
    obtain ⟨k, e, a, -⟩ := wrBitsAppendsTheField n { s with value := v } (hfs _ (List.mem_cons_self ..)) (hr.mono hle)
    obtain ⟨t, e', herr, a'⟩ := ih (fun p hp => hfs p (List.mem_cons_of_mem _ hp))
      (s := complete { s with value := v, snk := k }) (a.ready hr)
    exact ⟨t, by rw [State.writeFields, e]; exact e', herr, a.trans a'⟩

/-- RD_BITS of each width, where the fields' bits are ahead, puts each field in VALUE (R115, R123). -/
theorem readFields_of_ahead {fs : List (BitVec 6 × Word)} (hfs : ∀ p ∈ fs, p.1.toNat ≤ 32) {s : State}
    (hv : s.src.rdValid = true) (h : s.src.NoFault) (h8 : s.src.rcnt.toNat ≤ 8) {rest : List Bool}
    (hah : s.src.ahead = fieldsBits fs ++ rest) :
    ∃ t, s.readFields (fs.map Prod.fst) = some (fs.map fun p => valueOperand p.1.toNat p.2, t) ∧
      t.status.err = s.status.err := by
  induction fs generalizing s with
  | nil => exact ⟨s, rfl, rfl⟩
  | cons p fs ih =>
    obtain ⟨n, v⟩ := p
    have hn : n.toNat ≤ 32 := hfs _ (List.mem_cons_self ..)
    rw [fieldsBits_cons, List.append_assoc, ← fieldBits_valueOperand hn] at hah
    obtain ⟨q, e, hc, ha⟩ := readBits_field hn (valueOperand_lt n.toNat v) h h8 hah
    obtain ⟨t, e', herr⟩ := ih (fun p hp => hfs p (List.mem_cons_of_mem _ hp))
      (s := complete { s with src := q, value := valueOperand n.toNat v }) (hc.rdValid.trans hv)
      (NoFault.of_consumed h hc) hc.short ha
    refine ⟨t, ?_, herr⟩
    rw [List.map_cons, State.readFields, exec_rdBits_ok hn hv e]
    exact congrArg (Option.map fun r => (valueOperand n.toNat v :: r.1, r.2)) e'

/-- RD_INIT and then RD_BITS of each width give the fields the input begins with (R123). -/
theorem rdInit_readFields {fs : List (BitVec 6 × Word)} (hfs : ∀ p ∈ fs, p.1.toNat ≤ 32) {r : State} (h : r.src.NoFault)
    {rest : List Bool} (hin : r.src.input.flatMap byteBits = fieldsBits fs ++ rest) :
    ∃ r1 r2, exec .rdInit r = .next r1 ∧
      r1.readFields (fs.map Prod.fst) = some (fs.map fun p => valueOperand p.1.toNat p.2, r2) ∧
      r2.status.err = r.status.err := by
  obtain ⟨q, e, hq, h8, hv, ha⟩ := fetch_opened h
  obtain ⟨r2, e', herr⟩ := readFields_of_ahead hfs (s := complete { r with src := q }) hv hq h8 (ha.trans hin)
  exact ⟨complete { r with src := q }, r2, by rw [exec_rdInit, e]; rfl, e', herr⟩

/-- Settles O30: the sink takes the fields' bits and a pad (`writeFields_appended`, `exec_flush_appended`), its bytes are those
bits (`Sink.Appended.holds_bits`), and the reader finds the fields at their head (`rdInit_readFields`). -/
theorem bitRoundTrip : Obligations.BitRoundTrip := by
  intro fs s hfs herr h0 hr
  rw [← fieldsBits_length] at hr ⊢
  have hw0 : s.snk.wcnt.toNat = 0 := by rw [h0]; rfl
  obtain ⟨t, et, hterr, ha⟩ := writeFields_appended hfs (hr.mono (by omega))
  have hwhole : (fieldsBits fs ++ t.snk.flushPad).length = 8 * (((fieldsBits fs).length + 7) / 8) := by
    have hwt := ha.wcnt
    rw [List.length_append, flushPad_length]; omega
  obtain ⟨k, -, ek, hk⟩ := exec_flush_appended (s := t) (ha.ready (hr.mono (by rw [hwhole]; omega)))
  have hall := ha.trans hk
  have hcount := hall.count
  rw [pending_append_length, hw0, Nat.zero_add, hwhole, Nat.mul_div_cancel_left _ (by decide)] at hcount
  refine ⟨t, _, et, ek, hterr.trans herr, hcount, fun r hrerr hnf hholds => ?_⟩
  obtain ⟨r1, r2, e1, e2, herr2⟩ := rdInit_readFields hfs hnf (hall.holds_whole hholds hw0 hwhole)
  exact ⟨r1, r2, e1, e2, herr2.trans hrerr⟩

end Sys2Proof.Machine

/-! SUPPORT. The size classes (41_frequency_header.md R130, R131), and the round trip of a table written by HDR_WRITE and FLUSH
and read by RD_INIT and HDR_READ (R135). -/

namespace Sys2Proof.Machine

-- The size classes

/-- The four ranges of the frequencies with a class, and the one frequency that has none (R130). -/
theorem sizeClass_cases (x : Word) :
    (x.toNat = 0 ∧ sizeClass x = some 0#2) ∨
    ((1 ≤ x.toNat ∧ x.toNat ≤ 255) ∧ sizeClass x = some 1#2) ∨
    ((256 ≤ x.toNat ∧ x.toNat ≤ 65535) ∧ sizeClass x = some 2#2) ∨
    ((65536 ≤ x.toNat ∧ x.toNat ≤ 2 ^ 32 - 2) ∧ sizeClass x = some 3#2) ∨
    (x.toNat = 2 ^ 32 - 1 ∧ sizeClass x = none) := by
  have hlt := x.isLt
  by_cases h0 : x.toNat = 0
  · exact .inl ⟨h0, if_pos h0⟩
  · rw [sizeClass, if_neg h0]
    by_cases h1 : x.toNat < 256
    · exact .inr (.inl ⟨by omega, if_pos h1⟩)
    · rw [if_neg h1]
      by_cases h2 : x.toNat < 65536
      · exact .inr (.inr (.inl ⟨by omega, if_pos h2⟩))
      · rw [if_neg h2]
        by_cases h3 : x.toNat < 2 ^ 32 - 1
        · exact .inr (.inr (.inr (.inl ⟨by omega, if_pos h3⟩)))
        · exact .inr (.inr (.inr (.inr ⟨by omega, if_neg h3⟩)))

/-- Settles O32: the ranges of `sizeClass_cases` exclude one another, so a class is that of its own range alone. -/
theorem sizeClassesHaveTheirThresholds : Obligations.SizeClassesHaveTheirThresholds := by
  intro f
  rcases sizeClass_cases f with ⟨h, e⟩ | ⟨h, e⟩ | ⟨h, e⟩ | ⟨h, e⟩ | ⟨h, e⟩ <;>
  · rw [e]
    simp [classWidth]
    omega

/-- A frequency with a class fits the width its class selects (R130, R131). -/
theorem toNat_lt_headerWidth {x : Word} (hx : x.toNat ≠ 2 ^ 32 - 1) : x.toNat < 2 ^ headerWidth x := by
  rcases sizeClass_cases x with ⟨h, e⟩ | ⟨h, e⟩ | ⟨h, e⟩ | ⟨h, e⟩ | ⟨h, -⟩
  · rw [headerWidth, e, h]; decide
  · rw [headerWidth, e]; exact Nat.lt_succ_of_le h.2
  · rw [headerWidth, e]; exact Nat.lt_succ_of_le h.2
  · exact x.isLt.trans_eq (by rw [headerWidth, e]; rfl)
  · exact absurd h hx

-- The header HDR_WRITE writes, as one HDR_READ reads

/-- The canonical classes of a table: the smallest class that holds each value (R130, R135). -/
def headerClasses (f : FreqTable) : List (BitVec 2) := f.toList.map fun x => (sizeClass x).getD 0

theorem headerBits_eq_headerWith (f : FreqTable) : headerBits f = headerWith (headerClasses f) f := by
  rw [headerBits, headerWith, headerClasses, List.flatMap_map, List.zipWith_map_left, List.zipWith_self]
  rfl

/-- The canonical classes can carry their table (R131, R135). -/
theorem headerClasses_fit {f : FreqTable} (hf : ∀ b : Byte, (f.entry b).toNat ≠ 2 ^ 32 - 1) :
    ClassesFit (headerClasses f) f := by
  have hlen : (headerClasses f).length = 256 := by rw [headerClasses, List.length_map, Vector.length_toList]
  refine ⟨hlen, fun b => ?_⟩
  have hcls : (headerClasses f).getD b.toNat 0 = (sizeClass (f.entry b)).getD 0 := by
    rw [List.getD_eq_getElem _ _ (hlen ▸ b.isLt)]
    simp [headerClasses, FreqTable.entry]
  rw [hcls]
  exact toNat_lt_headerWidth (hf b)

-- The round trip

/-- HDR_WRITE from WCNT = 0 leaves whole bytes in OUT and no bit for FLUSH (R80, R112, R133). -/
theorem hdrWrite_flush {s : State} (hf : ∀ b : Byte, (s.freq.entry b).toNat ≠ 2 ^ 32 - 1) (h0 : s.snk.wcnt.toNat = 0)
    (hr : s.snk.Ready (headerBytes s.freq)) :
    ∃ k t, exec .hdrWrite s = .next t ∧ exec .flush t = .next (complete { s with snk := k }) ∧
      s.snk.Appended (headerBits s.freq) k := by
  have hbytes := headerBits_length_bytes s.freq
  obtain ⟨k, e, a⟩ := (hdrWriteAppendsTheHeader s).1 hf (hr.mono (by omega))
  have hk : k.wcnt.toNat = 0 := by rw [a.wcnt]; omega
  exact ⟨k, _, e, (flushEmitsThePartialByte _).1 (BitVec.eq_of_toNat_eq hk), a⟩

/-- RD_INIT and then HDR_READ of an input that begins with a header take its table into FREQ (R118, R134). -/
theorem rdInit_hdrRead {cs : List (BitVec 2)} {f : FreqTable} (hfit : ClassesFit cs f) {r : State} (h : r.src.NoFault)
    {rest : List Bool} (hin : r.src.input.flatMap byteBits = headerWith cs f ++ rest) :
    ∃ r1 r2, exec .rdInit r = .next r1 ∧ exec .hdrRead r1 = .next r2 ∧ r2.freq = f ∧
      r2.status.err = r.status.err := by
  obtain ⟨q, e, hq, h8, hv, ha⟩ := fetch_opened h
  obtain ⟨q', e', -⟩ := ((hdrReadParsesAHeader (complete { r with src := q })).1 hv h8 hq).1 cs f rest hfit (ha.trans hin)
  exact ⟨_, _, by rw [exec_rdInit, e]; rfl, e', rfl, rfl⟩

/-- Settles O36: the bytes in the sink are the header's bits (`hdrWrite_flush`, `Sink.Appended.holds_whole`), which are a header
with the table's canonical classes (`headerBits_eq_headerWith`), and HDR_READ takes any header (`rdInit_hdrRead`). -/
theorem headerRoundTrip : Obligations.HeaderRoundTrip := by
  intro s hf herr hw hr
  have hw0 : s.snk.wcnt.toNat = 0 := by rw [hw]; rfl
  have hbytes := headerBits_length_bytes s.freq
  obtain ⟨k, t, et, eu, a⟩ := hdrWrite_flush hf hw0 hr
  have hcount := a.count
  rw [pending_append_length, hw0, Nat.zero_add, hbytes, Nat.mul_div_cancel_left _ (by decide)] at hcount
  refine ⟨t, _, et, eu, herr, hcount, fun r hrerr hnf hholds => ?_⟩
  have hin := a.holds_whole hholds hw0 hbytes
  rw [headerBits_eq_headerWith, ← List.append_nil (headerWith _ _)] at hin
  obtain ⟨r1, r2, e1, e2, hfreq, herr2⟩ := rdInit_hdrRead (headerClasses_fit hf) hnf hin
  exact ⟨r1, r2, e1, e2, hfreq, herr2.trans hrerr⟩

end Sys2Proof.Machine

/-! SUPPORT. The tree BUILD makes (42_tree_builder.md R150 to R160): when it is made, that each node is taken once, and the weights
of the nodes not yet taken, which add up to TOTAL through every merge. -/

namespace Sys2Proof.Machine

-- When the tree is made

/-- Settles O37: `bodyBuild` asks whether some entry is nonzero. -/
theorem buildMakesTheTreeOfFreq : Obligations.BuildMakesTheTreeOfFreq := by
  intro s
  refine ⟨fun ⟨b, hb⟩ => ?_, fun h0 => ?_⟩
  · rw [exec_eq_finish, bodyOf, bodyBuild, if_pos (nonzero_of_entry hb)]; rfl
  · have hz : ¬s.freq.nonzero = true := fun h => by
      obtain ⟨x, hx, hx0⟩ := List.any_eq_true.1 h
      obtain ⟨b, rfl⟩ := mem_toList_iff.1 hx
      simp [h0 b] at hx0
    rw [exec_eq_finish, bodyOf, bodyBuild, if_neg hz]; rfl

-- Children and parents

/-- The two least are two: a pair is not before itself (R152). -/
theorem Tree.Before.ne {t : Tree} {i j : NodeIx} (h : t.Before i j) : i ≠ j := by
  rintro rfl
  rw [Tree.Before] at h
  omega

/-- One more merge takes its own two children. -/
theorem taken_succ {t : Tree} {k : Nat} {m : NodeIx} (hk : k ≤ m.toNat) (i : NodeIx) :
    t.Taken k i.toNat (m.toNat + 1) ↔ t.Taken k i.toNat m.toNat ∨ (t.node m).left = i ∨ (t.node m).right = i := by
  constructor
  · rintro ⟨n, hkn, hn, hc⟩
    by_cases e : n = m
    · subst e
      exact .inr (hc.imp BitVec.eq_of_toNat_eq BitVec.eq_of_toNat_eq)
    · have hne : n.toNat ≠ m.toNat := fun h => e (BitVec.eq_of_toNat_eq h)
      exact .inl ⟨n, hkn, by omega, hc⟩
  · rintro (⟨n, hkn, hn, hc⟩ | hc)
    · exact ⟨n, hkn, by omega, hc⟩
    · exact ⟨m, hk, by omega, hc.imp (congrArg _) (congrArg _)⟩

namespace Tree.Merging

variable {t : Tree} {k : Nat} {q : List PqEntry} (h : t.Merging k q)
include h

theorem le_of_inner {i : NodeIx} (hi : (t.node i).leaf = false) : k ≤ i.toNat := by
  by_contra hlt
  rw [h.leaf i (by omega)] at hi
  cases hi

theorem lt_of_leaf {i : NodeIx} (hi : (t.node i).leaf = true) : i.toNat < k := by
  by_contra hge
  by_cases hn : i.toNat < t.nNodes.toNat
  · rw [(h.inner i (by omega) hn).1] at hi; cases hi
  · rw [h.grown.unused i (by omega)] at hi; cases hi

/-- A node once taken is not taken again (R153), so no two internal nodes have a child in common. -/
theorem parent_le {m n i : NodeIx} (hm : k ≤ m.toNat) (hn : k ≤ n.toNat) (hlt : n.toNat < t.nNodes.toNat)
    (hmi : (t.node m).left = i ∨ (t.node m).right = i) (hni : (t.node n).left = i ∨ (t.node n).right = i) :
    n.toNat ≤ m.toNat := by
  by_contra hmn
  have htaken : t.Taken k i.toNat n.toNat := ⟨m, hm, by omega, hmi.imp (congrArg _) (congrArg _)⟩
  obtain ⟨hleft, hright, -⟩ := h.least n hn hlt
  rcases hni with rfl | rfl
  · exact hleft htaken
  · exact hright htaken

/-- The last node made is taken by none, since children stand below their parents (R157). -/
theorem last_free {i : NodeIx} (hi : i.toNat + 1 = t.nNodes.toNat) : ¬t.Taken k i.toNat t.nNodes.toNat := by
  rintro ⟨m, hk, hm, hc⟩
  have hb := h.below m hk hm
  omega

end Tree.Merging

/-- The root is the last node (R157). -/
theorem build_root {f : FreqTable} (hf : 1 ≤ f.leaves) : (Tree.build f).root.toNat = 2 * f.leaves - 2 := by
  obtain ⟨e, m, hr, hn, -⟩ := build_spec hf
  have hle := leaves_le f
  have hix : (BitVec.ofNat 9 (2 * f.leaves - 2)).toNat = 2 * f.leaves - 2 := by rw [BitVec.toNat_ofNat]; omega
  obtain ⟨x, hx, hxi⟩ := (m.free _ (by omega)).2 (m.last_free (i := BitVec.ofNat 9 (2 * f.leaves - 2)) (by omega))
  obtain rfl := List.mem_singleton.1 hx
  rw [hr, hxi, hix]

-- Weights

theorem leafList_sum (fs : List Word) (b : Nat) :
    ((leafList fs b).map fun p => p.2.toNat).sum = (fs.map BitVec.toNat).sum := by
  induction fs generalizing b with
  | nil => rfl
  | cons f fs ih =>
    rw [leafList]
    split
    · rename_i hf
      rw [ih, hf]; simp
    · rw [List.map_cons, List.sum_cons, ih, List.map_cons, List.sum_cons]

/-- `S` are the nodes below `j` that no internal node below `j` took: what PQ holds when node `j` is made (R150). -/
def Tree.IsFree (t : Tree) (k j : Nat) (S : Finset NodeIx) : Prop :=
  ∀ i, i ∈ S ↔ i.toNat < j ∧ ¬t.Taken k i.toNat j

/-- The exact sum of the weights of some nodes. -/
def Tree.weight (t : Tree) (S : Finset NodeIx) : Nat := ∑ i ∈ S, (t.node i).w.toNat

/-- Node `i` stands in the place of its two children among the nodes not taken (R150). -/
theorem Tree.Merging.isFree_succ {t : Tree} {k : Nat} {q : List PqEntry} (h : t.Merging k q) {i : NodeIx}
    (hk : k ≤ i.toNat) (hi : i.toNat < t.nNodes.toNat) {S : Finset NodeIx} (hS : t.IsFree k i.toNat S) :
    ∃ R, i ∉ R ∧ t.IsFree k (i.toNat + 1) (insert i R) ∧
      t.weight S = (t.node (t.node i).left).w.toNat + (t.node (t.node i).right).w.toNat + t.weight R := by
  obtain ⟨hbl, hbr⟩ := h.below i hk hi
  obtain ⟨hfl, hfr, hbefore, -⟩ := h.least i hk hi
  have hl : (t.node i).left ∈ S := (hS _).2 ⟨hbl, hfl⟩
  have hr : (t.node i).right ∈ S.erase (t.node i).left := Finset.mem_erase.2 ⟨hbefore.ne.symm, (hS _).2 ⟨hbr, hfr⟩⟩
  refine ⟨(S.erase (t.node i).left).erase (t.node i).right, fun hm => ?_, fun j => ?_, ?_⟩
  · have := (hS i).1 (Finset.mem_of_mem_erase (Finset.mem_of_mem_erase hm))
    omega
  · rw [Finset.mem_insert, Finset.mem_erase, Finset.mem_erase, hS, taken_succ hk]
    by_cases hj : j = i
    · subst hj
      have hnot : ¬t.Taken k j.toNat j.toNat := fun ⟨m, hkm, hm, hc⟩ => by
        have := h.below m hkm (by omega)
        omega
      have hchild : ¬((t.node j).left = j ∨ (t.node j).right = j) := by
        rintro (e | e)
        · rw [e] at hbl; omega
        · rw [e] at hbr; omega
      simp [hnot, hchild]
    · have hne : j.toNat ≠ i.toNat := fun e => hj (BitVec.eq_of_toNat_eq e)
      have hlt : j.toNat < i.toNat + 1 ↔ j.toNat < i.toNat := by omega
      simp only [hj, hlt, false_or, not_or, ne_eq, eq_comm (a := j)]
      tauto
  · rw [Tree.weight, ← Finset.add_sum_erase S _ hl, ← Finset.add_sum_erase _ _ hr, ← add_assoc]
    rfl

/-- What a node weighs when its children are among nodes that weigh TOTAL: no sum wraps (R33, R160). -/
theorem Tree.Merging.inner_weight {t : Tree} {k : Nat} {q : List PqEntry} (h : t.Merging k q) {i : NodeIx}
    (hk : k ≤ i.toNat) (hi : i.toNat < t.nNodes.toNat)
    (hlt : (t.node (t.node i).left).w.toNat + (t.node (t.node i).right).w.toNat < 2 ^ 64) :
    (t.node i).w.toNat = (t.node (t.node i).left).w.toNat + (t.node (t.node i).right).w.toNat := by
  rw [h.weight i hk hi, BitVec.toNat_add, Nat.mod_eq_of_lt hlt]

/-- The leaves weigh TOTAL (R33, R150). -/
theorem build_leaves_weight {f : FreqTable} (hf : 1 ≤ f.leaves) :
    ∃ S, (Tree.build f).IsFree f.leaves f.leaves S ∧ (Tree.build f).weight S = f.sum := by
  obtain ⟨e, -, -, -, -, -, -, hleaf⟩ := build_spec hf
  have hle := leaves_le f
  have hl := leafList_card f
  have hix : ∀ j < f.leaves, (BitVec.ofNat 9 j).toNat = j := fun j hj => by rw [BitVec.toNat_ofNat]; omega
  refine ⟨(Finset.range f.leaves).image (BitVec.ofNat 9), fun i => ?_, ?_⟩
  · have hnot : ¬(Tree.build f).Taken f.leaves i.toNat f.leaves := fun ⟨m, hkm, hm, _⟩ => by omega
    simp only [Finset.mem_image, Finset.mem_range, hnot, not_false_iff, and_true]
    exact ⟨fun ⟨j, hj, e⟩ => by rw [← e, hix j hj]; exact hj, fun hi => ⟨i.toNat, hi, by simp⟩⟩
  · have hinj : Set.InjOn (BitVec.ofNat 9) (Finset.range f.leaves : Finset Nat) := fun a ha b hb e => by
      rw [← hix a (by simpa using ha), e, hix b (by simpa using hb)]
    rw [Tree.weight, Finset.sum_image hinj, ← sum_range_list, FreqTable.sum, ← leafList_sum f.toList 0]
    refine congrArg List.sum (List.ext_getElem (by simpa [FreqTable.leafList] using hl.symm) fun j hj _ => ?_)
    have hj' : j < f.leaves := by simpa using hj
    rw [List.getElem_map, List.getElem_range, hleaf _ (by rw [hix j hj']; omega), List.getElem_map]
    simp only [hix j hj', leafNode]
    exact BitVec.toNat_setWidth_of_le (by decide)

/-- The nodes not yet taken weigh TOTAL before every merge and after the last (R33, R157). -/
theorem build_free_weight {f : FreqTable} (hf : 1 ≤ f.leaves) {j : Nat} (hk : f.leaves ≤ j) :
    j ≤ (Tree.build f).nNodes.toNat →
      ∃ S, (Tree.build f).IsFree f.leaves j S ∧ (Tree.build f).weight S = f.sum := by
  obtain ⟨e, m, -⟩ := build_spec hf
  have hfit := m.grown.fit
  have hsum := sum_le f
  induction j, hk using Nat.le_induction with
  | base => exact fun _ => build_leaves_weight hf
  | succ j hk ih =>
    intro hj
    obtain ⟨S, hS, hw⟩ := ih (by omega)
    obtain ⟨i, rfl⟩ : ∃ i : NodeIx, i.toNat = j := ⟨BitVec.ofNat 9 j, by rw [BitVec.toNat_ofNat]; omega⟩
    obtain ⟨R, hi, hR, hsplit⟩ := m.isFree_succ hk (by omega) hS
    have hnode := m.inner_weight hk (by omega) (by omega)
    refine ⟨insert i R, hR, ?_⟩
    rw [Tree.weight, Finset.sum_insert hi, hnode, ← hw, hsplit]
    rfl

/-- An internal node weighs what its children weigh together (R150, R160). -/
theorem build_inner_weight {f : FreqTable} (hf : 1 ≤ f.leaves) {i : NodeIx} (hk : f.leaves ≤ i.toNat)
    (hi : i.toNat < (Tree.build f).nNodes.toNat) :
    ((Tree.build f).node i).w.toNat =
      ((Tree.build f).node ((Tree.build f).node i).left).w.toNat
        + ((Tree.build f).node ((Tree.build f).node i).right).w.toNat := by
  obtain ⟨e, m, -⟩ := build_spec hf
  obtain ⟨S, hS, hw⟩ := build_free_weight hf hk hi.le
  obtain ⟨R, -, -, hsplit⟩ := m.isFree_succ hk hi hS
  have hsum := sum_le f
  exact m.inner_weight hk hi (by omega)

/-- The root is the one node not taken, so it weighs TOTAL (R157). -/
theorem build_root_weight {f : FreqTable} (hf : 1 ≤ f.leaves) :
    ((Tree.build f).node (Tree.build f).root).w.toNat = f.sum := by
  obtain ⟨e, m, hr, hn, -⟩ := build_spec hf
  obtain ⟨S, hS, hw⟩ := build_free_weight hf (j := (Tree.build f).nNodes.toNat) (by omega) le_rfl
  have hroot : S = {(Tree.build f).root} := by
    ext i
    rw [hS, Finset.mem_singleton, hr]
    constructor
    · rintro ⟨hi, hfree⟩
      obtain ⟨x, hx, hxi⟩ := (m.free _ hi).2 hfree
      rw [← List.mem_singleton.1 hx, BitVec.eq_of_toNat_eq hxi]
    · rintro rfl
      have hi := (m.grown.entry e (List.mem_cons_self ..)).1
      exact ⟨hi, (m.free _ hi).1 ⟨e, List.mem_cons_self .., rfl⟩⟩
  rw [← hw, hroot, Tree.weight, Finset.sum_singleton]

/-- Every node but the root has one parent (R157): one by `Tree.Merging.free`, and no two by `Tree.Merging.parent_le`. -/
theorem build_parent {f : FreqTable} (hf : 1 ≤ f.leaves) {i : NodeIx} (hi : i.toNat < (Tree.build f).nNodes.toNat)
    (hroot : i ≠ (Tree.build f).root) :
    ∃! m : NodeIx, m.toNat < (Tree.build f).nNodes.toNat ∧ ((Tree.build f).node m).leaf = false ∧
      (((Tree.build f).node m).left = i ∨ ((Tree.build f).node m).right = i) := by
  obtain ⟨e, m, hr, -⟩ := build_spec hf
  have htaken : (Tree.build f).Taken f.leaves i.toNat (Tree.build f).nNodes.toNat := by
    by_contra hfree
    obtain ⟨x, hx, hxi⟩ := (m.free _ hi).2 hfree
    rw [List.mem_singleton.1 hx] at hxi
    exact hroot (hr ▸ (BitVec.eq_of_toNat_eq hxi).symm)
  obtain ⟨p, hkp, hp, hc⟩ := htaken
  have hpi := hc.imp BitVec.eq_of_toNat_eq BitVec.eq_of_toNat_eq
  refine ⟨p, ⟨hp, (m.inner p hkp hp).1, hpi⟩, fun n ⟨hn, hnl, hni⟩ => BitVec.eq_of_toNat_eq ?_⟩
  have hkn := m.le_of_inner hnl
  exact Nat.le_antisymm (m.parent_le hkp hkn hn hpi hni) (m.parent_le hkn hkp hp hni hpi)

/-- Settles O38: the counts by `build_spec` and `build_root`, the parents by `build_parent`, the weight by `build_root_weight`. -/
theorem builtTreeHasTheStatedShape : Obligations.BuiltTreeHasTheStatedShape := by
  intro f hf
  obtain ⟨e, m, -, hn, -⟩ := build_spec hf
  have hroot := build_root hf
  refine ⟨hn, fun _ => hroot, fun h1 => BitVec.eq_of_toNat_eq (by rw [hroot, h1]; rfl), fun i hi hl => ?_,
    fun i hi hne => build_parent hf hi hne, build_root_weight hf⟩
  have hk := m.le_of_inner hl
  obtain ⟨-, -, hbefore, -⟩ := m.least i hk hi
  exact ⟨hbefore.ne, m.below i hk hi⟩

/-- Settles O40: what the merge loop keeps of each internal node (`Tree.Merging`), and its exact weight. -/
theorem eachMergeTakesTheTwoLeast : Obligations.EachMergeTakesTheTwoLeast := by
  intro f i hf hk hi
  obtain ⟨e, m, -⟩ := build_spec hf
  obtain ⟨hleaf, hsym⟩ := m.inner i hk hi
  exact ⟨hleaf, hsym, build_inner_weight hf hk hi, m.least i hk hi⟩

end Sys2Proof.Machine

/-! SUPPORT. The code table of a built tree (43_code_table.md R170 to R175): which symbols have a leaf, where a path leads, and how
long it can be. -/

namespace Sys2Proof.Machine

-- The symbols that have a leaf

theorem mem_leafList {fs : List Word} {b : Nat} {p : Nat × Word} (h : p ∈ leafList fs b) :
    p.2 ≠ 0 ∧ ∃ j, p.1 = b + j ∧ fs[j]? = some p.2 := by
  induction fs generalizing b with
  | nil => cases h
  | cons f fs ih =>
    have hlater : p ∈ leafList fs (b + 1) → p.2 ≠ 0 ∧ ∃ j, p.1 = b + j ∧ (f :: fs)[j]? = some p.2 := fun hp => by
      obtain ⟨hne, j, hj, hget⟩ := ih hp
      exact ⟨hne, j + 1, by omega, by rw [List.getElem?_cons_succ]; exact hget⟩
    rw [leafList] at h
    split at h
    · exact hlater h
    · rename_i hf
      rcases List.mem_cons.1 h with rfl | h
      · exact ⟨hf, 0, rfl, rfl⟩
      · exact hlater h

/-- A leaf of a built tree is that of a symbol of nonzero frequency (R150). -/
theorem build_leaf_entry {f : FreqTable} (hf : 1 ≤ f.leaves) {i : NodeIx} (hi : ((Tree.build f).node i).leaf = true) :
    f.entry ((Tree.build f).node i).sym ≠ 0 := by
  obtain ⟨e, m, -, -, -, -, -, hleaf⟩ := build_spec hf
  have hl : i.toNat < f.leafList.length := leafList_card f ▸ m.lt_of_leaf hi
  obtain ⟨hne, j, hj, hget⟩ := mem_leafList (List.getElem_mem hl)
  obtain ⟨hj256, hx⟩ := List.getElem?_eq_some_iff.1 hget
  rw [Vector.length_toList] at hj256
  have hsym : (BitVec.ofNat 8 f.leafList[i.toNat].1).toNat = j := by rw [BitVec.toNat_ofNat, hj]; omega
  have hentry : f.entry (BitVec.ofNat 8 f.leafList[i.toNat].1) = f.leafList[i.toNat].2 := by
    rw [← hx]; simp only [FreqTable.entry, hsym, Vector.getElem_toList]
  rw [hleaf i hl]
  change f.entry (BitVec.ofNat 8 f.leafList[i.toNat].1) ≠ 0
  rw [hentry]
  exact hne

/-- A symbol without frequency has no leaf, so it gets no code (R170). -/
theorem genCodes_code_nil {f : FreqTable} (hf : 1 ≤ f.leaves) {c : CodeMap} (h : (Tree.build f).genCodes = some c)
    {b : Byte} (hb : f.entry b = 0) : c.code b = [] := by
  rw [Tree.genCodes] at h
  split at h
  · rename_i hl
    have hne : b ≠ ((Tree.build f).node (Tree.build f).root).sym := fun e => build_leaf_entry hf hl (e ▸ hb)
    cases h
    rw [code_setCode, if_neg hne, code_empty]
  · rcases visit_leafPath _ _ _ h b with e | ⟨-, -, j, -, hj, hs⟩
    · rw [e, code_empty]
    · exact absurd (hs ▸ hb) (build_leaf_entry hf hj)

-- Paths

theorem Tree.Path.follow_eq {t : Tree} {i j : NodeIx} {p : Code} (h : t.Path i p j) : t.follow i p = j := by
  induction h with
  | nil i => rfl
  | cons _ _ ih => exact ih

/-- A path meets no leaf before its end (R171). -/
theorem Tree.Path.inner_before {t : Tree} {i j : NodeIx} {p u : Code} (h : t.Path i u j) (hp : p <+: u) (hne : p ≠ u) :
    (t.node (t.follow i p)).leaf = false := by
  obtain ⟨v, rfl⟩ := hp
  obtain ⟨n, h1, h2⟩ := h.split p
  rw [h1.follow_eq]
  cases h2 with
  | nil => exact absurd (List.append_nil p).symm hne
  | cons hn _ => exact hn

/-- A path descends through internal nodes only, so it has no more bits than there are internal nodes up to its start (R158). -/
theorem Tree.Merging.path_length_le {t : Tree} {k : Nat} {q : List PqEntry} (h : t.Merging k q) {i j : NodeIx} {p : Code}
    (hp : t.Path i p j) (hi : i.toNat < t.nNodes.toNat) : p.length ≤ i.toNat + 1 - k := by
  induction hp with
  | nil i => exact Nat.zero_le _
  | @cons i _ b p hl _ ih =>
    have hk := h.le_of_inner hl
    obtain ⟨hleft, hright⟩ := h.below i hk hi
    have hchild : (t.child i b).toNat < i.toNat := by
      rw [Tree.child]
      split
      · exact hright
      · exact hleft
    have hrest := ih (by omega)
    rw [List.length_cons]
    omega

-- The codes

/-- The only symbol of a tree of one leaf has the code 0 (R171). -/
theorem genCodes_code_single {f : FreqTable} {c : CodeMap} (h : (Tree.build f).genCodes = some c) {b : Byte}
    (hb : f.entry b ≠ 0) (h1 : f.leaves = 1) : c.code b = [false] := by
  rcases genCodes_code h hb with ⟨-, -, e⟩ | ⟨hl, -⟩
  · exact e
  · rw [(build_root_leaf hb h1).1] at hl; cases hl

/-- The code of a symbol of a tree of two leaves or more is the path to its leaf (R170). -/
theorem genCodes_code_leafPath {f : FreqTable} {c : CodeMap} (h : (Tree.build f).genCodes = some c) {b : Byte}
    (hb : f.entry b ≠ 0) (h2 : 2 ≤ f.leaves) : (Tree.build f).LeafPath (Tree.build f).root (c.code b) b := by
  rcases genCodes_code h hb with ⟨hl, -⟩ | ⟨-, hp⟩
  · rw [build_root_inner h2] at hl; cases hl
  · exact hp

/-- R175: of k leaves, no code is longer than k - 1 bits, or than 1 bit where k = 1. -/
theorem genCodes_code_length_le {f : FreqTable} (hf : 1 ≤ f.leaves) {c : CodeMap} (h : (Tree.build f).genCodes = some c)
    (b : Byte) : (c.code b).length ≤ max 1 (f.leaves - 1) := by
  by_cases hb : f.entry b = 0
  · rw [genCodes_code_nil hf h hb]; exact Nat.zero_le _
  · by_cases h1 : f.leaves = 1
    · rw [genCodes_code_single h hb h1]; exact le_max_left _ _
    · obtain ⟨j, hp, -⟩ := genCodes_code_leafPath h hb (by omega)
      obtain ⟨e, m, -, hn, -⟩ := build_spec hf
      have hroot := build_root hf
      have hlen := m.path_length_le hp (by omega)
      omega

theorem exec_gencodes {s : State} {c : CodeMap} (hv : s.tree.treeValid = true) (hc : s.tree.genCodes = some c) :
    exec .gencodes s = .next (complete { s with codes := c, codesValid := true }) := by
  rw [exec_eq_finish, bodyOf, bodyGencodes, if_pos hv, hc]; rfl

/-- Settles O41: the walk ends (`genCodes_build`), and what it records is the path to each symbol's leaf. -/
theorem gencodesMakesTheCodes : Obligations.GencodesMakesTheCodes := by
  intro s hv hok
  obtain ⟨hnz, htree⟩ := hok.tree hv
  have hf := (nonzero_iff _).1 hnz
  obtain ⟨c, hc⟩ := genCodes_build hf
  refine ⟨c, exec_gencodes hv (htree ▸ hc), fun b => ⟨genCodes_code_nil hf hc, genCodes_code_single hc, fun hb h2 => ?_⟩⟩
  obtain ⟨j, hp, hj, hs⟩ := genCodes_code_leafPath hc hb h2
  rw [htree, hp.follow_eq]
  exact ⟨hj, hs, fun p => hp.inner_before⟩

/-- Settles O43: a symbol without frequency has no leaf (`genCodes_code_nil`), and paths are short (`genCodes_code_length_le`). -/
theorem codesCoverAndFit : Obligations.CodesCoverAndFit := by
  intro f c b hf hc
  have hlen := genCodes_code_length_le hf hc b
  have hle := leaves_le f
  exact ⟨⟨fun hne hb => hne (genCodes_code_nil hf hc hb), code_ne_nil hc⟩, hlen, by omega⟩

end Sys2Proof.Machine

/-! SUPPORT. The codes of a built tree as its leaf paths (43_code_table.md R173, R174): none goes on past a leaf, a leaf has one
path, and the leaf paths of a tree are complete. -/

namespace Sys2Proof.Machine

-- Leaf paths

theorem leafPath_nil_iff {t : Tree} {i : NodeIx} {b : Byte} :
    t.LeafPath i [] b ↔ (t.node i).leaf = true ∧ (t.node i).sym = b := by
  constructor
  · rintro ⟨j, hp, hj⟩
    cases hp
    exact hj
  · exact fun h => ⟨i, .nil i, h⟩

theorem leafPath_cons_iff {t : Tree} {i : NodeIx} {d : Bool} {p : Code} {b : Byte} :
    t.LeafPath i (d :: p) b ↔ (t.node i).leaf = false ∧ t.LeafPath (t.child i d) p b := by
  constructor
  · rintro ⟨j, hp, hj⟩
    cases hp with
    | cons hi hp => exact ⟨hi, j, hp, hj⟩
  · exact fun ⟨hi, h⟩ => h.cons hi

/-- A leaf ends the path to it: no leaf path goes on past another (R173). -/
theorem Tree.LeafPath.sym_eq_of_prefix {t : Tree} {i : NodeIx} {p q : Code} {a b : Byte} (hp : t.LeafPath i p a)
    (hq : t.LeafPath i q b) (h : p <+: q) : a = b := by
  obtain ⟨v, rfl⟩ := h
  obtain ⟨j, hpj, hj, ha⟩ := hp
  obtain ⟨n, hqn, hb⟩ := hq
  obtain ⟨m, hm, hmn⟩ := hqn.split p
  obtain rfl : m = j := hm.follow_eq.symm.trans hpj.follow_eq
  obtain ⟨-, rfl⟩ := hmn.eq_of_leaf hj
  exact ha.symm.trans hb.2

/-- Settles O42: codes are leaf paths (`genCodes_code_leafPath`), and one leaf is the leaf of one symbol. -/
theorem codesArePrefixFree : Obligations.CodesArePrefixFree := by
  intro f c a b hc hne ha hb hpre
  have hpos := below_lt ha
  by_cases h1 : f.leaves = 1
  · exact hne ((build_root_leaf ha h1).2.symm.trans (build_root_leaf hb h1).2)
  · exact hne ((genCodes_code_leafPath hc ha (by omega)).sym_eq_of_prefix (genCodes_code_leafPath hc hb (by omega)) hpre)

-- One path to each leaf

theorem Tree.child_cases {t : Tree} {m i : NodeIx} {d : Bool} (h : t.child m d = i) :
    (t.node m).left = i ∨ (t.node m).right = i := by
  cases d with
  | false => exact .inl h
  | true => exact .inr h

theorem Tree.Descends.child_lt {t : Tree} {n : Nat} (h : t.Descends n) {i : NodeIx} (hi : i.toNat < n)
    (hl : (t.node i).leaf = false) (d : Bool) : (t.child i d).toNat < i.toNat := by
  obtain ⟨hleft, hright⟩ := h i hi hl
  cases d with
  | false => exact hleft
  | true => exact hright

theorem Tree.Descends.path_le {t : Tree} {n : Nat} (h : t.Descends n) {i j : NodeIx} {p : Code} (hp : t.Path i p j)
    (hi : i.toNat < n) : j.toNat ≤ i.toNat := by
  induction hp with
  | nil i => exact le_rfl
  | @cons i _ d _ hl _ ih =>
    have hchild := h.child_lt hi hl d
    exact (ih (hchild.trans hi)).trans hchild.le

theorem build_root_lt {f : FreqTable} (hf : 1 ≤ f.leaves) :
    (Tree.build f).root.toNat < (Tree.build f).nNodes.toNat := by
  obtain ⟨e, m, hr, -⟩ := build_spec hf
  rw [hr]
  exact (m.grown.entry e (List.mem_cons_self ..)).1

/-- The last edge of a path from the root. -/
theorem build_path_last {f : FreqTable} (hf : 1 ≤ f.leaves) {p : Code} {d : Bool} {i : NodeIx}
    (h : (Tree.build f).Path (Tree.build f).root (p ++ [d]) i) :
    ∃ m : NodeIx, (Tree.build f).Path (Tree.build f).root p m ∧ m.toNat < (Tree.build f).nNodes.toNat ∧
      ((Tree.build f).node m).leaf = false ∧ (Tree.build f).child m d = i ∧ i.toNat < (Tree.build f).root.toNat := by
  have hroot := build_root_lt hf
  obtain ⟨m, hm, hlast⟩ := h.split p
  have hle := (build_descends hf).path_le hm hroot
  cases hlast with
  | cons hl hnil =>
    cases hnil
    have hlt := (build_descends hf).child_lt (by omega) hl d
    exact ⟨m, hm, by omega, hl, rfl, by omega⟩

/-- A node is the child of one internal node, on one side (R157). -/
theorem build_child_injective {f : FreqTable} (hf : 1 ≤ f.leaves) {m n : NodeIx} {d e : Bool}
    (hm : m.toNat < (Tree.build f).nNodes.toNat) (hml : ((Tree.build f).node m).leaf = false)
    (hn : n.toNat < (Tree.build f).nNodes.toNat) (hnl : ((Tree.build f).node n).leaf = false)
    (h : (Tree.build f).child m d = (Tree.build f).child n e) : m = n ∧ d = e := by
  obtain ⟨hcount, -, -, hinner, hparent, -⟩ := builtTreeHasTheStatedShape f hf
  have hroot := build_root hf
  have hlt := (build_descends hf).child_lt hm hml d
  have hne : (Tree.build f).child m d ≠ (Tree.build f).root := fun eq => by rw [eq] at hlt; omega
  obtain rfl := (hparent _ (hlt.trans hm) hne).unique ⟨hm, hml, Tree.child_cases rfl⟩ ⟨hn, hnl, Tree.child_cases h.symm⟩
  exact ⟨rfl, Bool.injective_iff.2 (hinner m hm hml).1 h⟩

/-- A node of a built tree has one path from the root, since it has one parent (R157). -/
theorem build_path_unique {f : FreqTable} (hf : 1 ≤ f.leaves) {p q : Code} {i : NodeIx}
    (hp : (Tree.build f).Path (Tree.build f).root p i) (hq : (Tree.build f).Path (Tree.build f).root q i) : p = q := by
  induction p using List.reverseRecOn generalizing q i with
  | nil =>
    cases hp
    rcases List.eq_nil_or_concat' q with rfl | ⟨q, d, rfl⟩
    · rfl
    · obtain ⟨-, -, -, -, -, hlt⟩ := build_path_last hf hq
      omega
  | append_singleton p d ih =>
    obtain ⟨m, hm, hmn, hml, hmi, hlt⟩ := build_path_last hf hp
    rcases List.eq_nil_or_concat' q with rfl | ⟨q, d', rfl⟩
    · cases hq
      omega
    · obtain ⟨m', hm', hmn', hml', hmi', -⟩ := build_path_last hf hq
      obtain ⟨rfl, rfl⟩ := build_child_injective hf hmn hml hmn' hml' (hmi.trans hmi'.symm)
      rw [ih hm hm']

/-- The list of leaves is in ascending symbol order (R150). -/
theorem leafList_ascending (fs : List Word) (b : Nat) : (leafList fs b).Pairwise fun x y => x.1 < y.1 := by
  induction fs generalizing b with
  | nil => exact .nil
  | cons f fs ih =>
    rw [leafList]
    split
    · exact ih (b + 1)
    · refine .cons (fun x hx => ?_) (ih (b + 1))
      obtain ⟨-, j, hj, -⟩ := mem_leafList hx
      change b < x.1
      omega

/-- Two leaves of one symbol are one leaf (R151). -/
theorem build_leaf_unique {f : FreqTable} (hf : 1 ≤ f.leaves) {i j : NodeIx} (hi : ((Tree.build f).node i).leaf = true)
    (hj : ((Tree.build f).node j).leaf = true) (h : ((Tree.build f).node i).sym = ((Tree.build f).node j).sym) : i = j := by
  obtain ⟨e, m, -, -, -, -, -, hleaf⟩ := build_spec hf
  have hil : i.toNat < f.leafList.length := leafList_card f ▸ m.lt_of_leaf hi
  have hjl : j.toNat < f.leafList.length := leafList_card f ▸ m.lt_of_leaf hj
  have hbyte : ∀ x ∈ f.leafList, x.1 < 256 := fun x hx => by
    obtain ⟨-, n, hn, hget⟩ := mem_leafList hx
    have := (List.getElem?_eq_some_iff.1 hget).1
    rw [Vector.length_toList] at this
    omega
  have hsym : f.leafList[i.toNat].1 = f.leafList[j.toNat].1 := by
    have := congrArg BitVec.toNat h
    rw [hleaf i hil, hleaf j hjl] at this
    simpa only [leafNode, BitVec.toNat_ofNat, Nat.mod_eq_of_lt (hbyte _ (List.getElem_mem _))] using this
  have hasc := List.pairwise_iff_getElem.1 (leafList_ascending f.toList 0)
  rcases Nat.lt_trichotomy i.toNat j.toNat with hlt | heq | hgt
  · exact absurd hsym (hasc _ _ hil hjl hlt).ne
  · exact BitVec.eq_of_toNat_eq heq
  · exact absurd hsym (hasc _ _ hjl hil hgt).ne'

/-- A symbol of a built tree has one leaf path. -/
theorem build_leafPath_unique {f : FreqTable} (hf : 1 ≤ f.leaves) {p q : Code} {b : Byte}
    (hp : (Tree.build f).LeafPath (Tree.build f).root p b) (hq : (Tree.build f).LeafPath (Tree.build f).root q b) :
    p = q := by
  obtain ⟨i, hpi, hi, hib⟩ := hp
  obtain ⟨j, hqj, hj, hjb⟩ := hq
  obtain rfl := build_leaf_unique hf hi hj (hib.trans hjb.symm)
  exact build_path_unique hf hpi hqj

-- Completeness

/-- The bit `d` in front of a path. -/
def consBit (d : Bool) : Code ↪ Code := ⟨List.cons d, List.cons_injective⟩

/-- The leaf paths under a node are complete: each inner node halves what its two children share (R174). -/
theorem Tree.Merging.leafPaths_complete {t : Tree} {k : Nat} {q : List PqEntry} (h : t.Merging k q) (i : NodeIx)
    (hi : i.toNat < t.nNodes.toNat) (n : Nat) (hn : i.toNat + 1 - k ≤ n) :
    ∃ S : Finset Code, (∀ p, p ∈ S ↔ ∃ b, t.LeafPath i p b) ∧ ∑ p ∈ S, 2 ^ (n - p.length) = 2 ^ n := by
  cases hl : (t.node i).leaf with
  | true =>
    refine ⟨{[]}, fun p => ?_, by simp⟩
    cases p with
    | nil => simp [leafPath_nil_iff, hl]
    | cons d p => simp [leafPath_cons_iff, hl]
  | false =>
    have hk := h.le_of_inner hl
    obtain ⟨hleft, hright⟩ := h.below i hk hi
    obtain ⟨n, rfl⟩ : ∃ m, n = m + 1 := ⟨n - 1, by omega⟩
    obtain ⟨L, hL, hLsum⟩ := h.leafPaths_complete (t.node i).left (hleft.trans hi) n (by omega)
    obtain ⟨R, hR, hRsum⟩ := h.leafPaths_complete (t.node i).right (hright.trans hi) n (by omega)
    have hdisj : Disjoint (L.map (consBit false)) (R.map (consBit true)) := by
      simp [Finset.disjoint_left, consBit]
    refine ⟨(L.map (consBit false)).disjUnion (R.map (consBit true)) hdisj, fun p => ?_, ?_⟩
    · rw [Finset.mem_disjUnion, Finset.mem_map, Finset.mem_map]
      cases p with
      | nil => simp [leafPath_nil_iff, hl, consBit]
      | cons d p => cases d <;> simp [leafPath_cons_iff, hl, consBit, Tree.child, hL, hR]
    · rw [Finset.sum_disjUnion, Finset.sum_map, Finset.sum_map]
      simp only [consBit, Function.Embedding.coeFn_mk, List.length_cons, Nat.add_sub_add_right, hLsum, hRsum]
      rw [pow_succ, mul_two]
termination_by i.toNat

/-- Summing over the symbols of nonzero frequency, each by its code, is summing over the codes: no two are the same (R173). -/
theorem sum_codes {f : FreqTable} {c : CodeMap} (hc : (Tree.build f).genCodes = some c) {S : Finset Code}
    (hS : ∀ p, p ∈ S ↔ ∃ b, f.entry b ≠ 0 ∧ c.code b = p) (g : Code → Nat) :
    ((List.range 256).map fun b => if f.entry (BitVec.ofNat 8 b) = 0 then 0 else g (c.code (BitVec.ofNat 8 b))).sum =
      ∑ p ∈ S, g p := by
  rw [sum_range_list]
  simp only [← ite_not (f.entry _ = 0)]
  rw [← Finset.sum_filter]
  refine Finset.sum_nbij (fun b => c.code (BitVec.ofNat 8 b)) (fun b hb => ?_) (fun a ha b hb hab => ?_) (fun p hp => ?_)
    fun _ _ => rfl
  · exact (hS _).2 ⟨_, (Finset.mem_filter.1 hb).2, rfl⟩
  · obtain ⟨ha256, ha0⟩ := Finset.mem_filter.1 ha
    obtain ⟨hb256, hb0⟩ := Finset.mem_filter.1 hb
    rw [Finset.mem_range] at ha256 hb256
    by_contra hne
    refine codesArePrefixFree f c _ _ hc (fun e => hne ?_) ha0 hb0 ⟨[], (List.append_nil _).trans hab⟩
    simpa [Nat.mod_eq_of_lt ha256, Nat.mod_eq_of_lt hb256] using congrArg BitVec.toNat e
  · obtain ⟨b, hb, rfl⟩ := (hS p).1 hp
    exact ⟨b.toNat, by simpa [b.isLt] using hb, by simp⟩

/-- The codes of a tree of two leaves or more are its leaf paths (R170). -/
theorem leafPath_iff_code {f : FreqTable} (h2 : 2 ≤ f.leaves) {c : CodeMap} (hc : (Tree.build f).genCodes = some c)
    (p : Code) :
    (∃ b, (Tree.build f).LeafPath (Tree.build f).root p b) ↔ ∃ b, f.entry b ≠ 0 ∧ c.code b = p := by
  constructor
  · rintro ⟨b, hp⟩
    have hb : f.entry b ≠ 0 := by
      obtain ⟨j, -, hj, rfl⟩ := hp
      exact build_leaf_entry (by omega) hj
    exact ⟨b, hb, build_leafPath_unique (by omega) (genCodes_code_leafPath hc hb h2) hp⟩
  · rintro ⟨b, hb, rfl⟩
    exact ⟨b, genCodes_code_leafPath hc hb h2⟩

/-- The one code of a tree of one leaf is the bit 0 (R171). -/
theorem single_iff_code {f : FreqTable} (h1 : f.leaves = 1) {c : CodeMap} (hc : (Tree.build f).genCodes = some c)
    (p : Code) : p ∈ ({[false]} : Finset Code) ↔ ∃ b, f.entry b ≠ 0 ∧ c.code b = p := by
  rw [Finset.mem_singleton]
  constructor
  · rintro rfl
    obtain ⟨e, m, -⟩ := build_spec (f := f) (by omega)
    have hroot := build_root (f := f) (by omega)
    have hb := build_leaf_entry (by omega) (m.leaf (Tree.build f).root (by omega))
    exact ⟨_, hb, genCodes_code_single hc hb h1⟩
  · rintro ⟨b, hb, rfl⟩
    exact genCodes_code_single hc hb h1

/-- Settles O44: the codes are the leaf paths of the root (`leafPath_iff_code`), which are complete, and no longer than 255
bits; of one leaf the one code is the bit 0. -/
theorem codesAreComplete : Obligations.CodesAreComplete := by
  intro f c hf hc
  by_cases h1 : f.leaves = 1
  · rw [sum_codes hc (single_iff_code h1 hc) fun p => 2 ^ (255 - p.length), if_pos h1, Finset.sum_singleton]
    rfl
  · obtain ⟨e, m, -⟩ := build_spec hf
    have hle := leaves_le f
    have hroot := build_root hf
    obtain ⟨S, hS, hsum⟩ := m.leafPaths_complete (Tree.build f).root (build_root_lt hf) 255 (by omega)
    rw [sum_codes hc (fun p => (hS p).trans (leafPath_iff_code (by omega) hc p)) fun p => 2 ^ (255 - p.length), if_neg h1, hsum]

end Sys2Proof.Machine

/-! SUPPORT. What ENCODE does before it writes, and where a byte has no code (44_encoder.md R180, R182): the counts of an input, and
the two checks made of them. -/

namespace Sys2Proof.Machine

/-- The bytes of an input around one of them. -/
theorem input_split {q : Source} {xs ys : List Byte} {b : Byte} (h : q.input = xs ++ b :: ys) :
    xs.length < q.inLen.toNat ∧ q.input.take xs.length = xs ∧ q.inByte xs.length = b := by
  have hlt : xs.length < q.inLen.toNat := by
    rw [← input_length, h, List.length_append, List.length_cons]; omega
  have hnext := input_take_succ hlt 0
  rw [h, List.drop_left] at hnext
  exact ⟨hlt, by rw [h, List.take_left], (List.cons.inj hnext).1.symm⟩

/-- Settles O46: the bytes before it are encoded (`bodyEncPayload_after`), and the next round raises. -/
theorem anUncodedByteAborts : Obligations.AnUncodedByteAborts := by
  intro s xs ys b hv hnf hin hc hb hr
  obtain ⟨hlt, htake, hbyte⟩ := input_split hin
  rw [← htake] at hc hr
  obtain ⟨k, e, a⟩ := bodyEncPayload_after hv (Nat.le_of_lt hlt) (fun x hx => hnf x (List.mem_of_mem_take hx)) hc hr
  rw [htake] at a
  obtain ⟨r, hn⟩ : ∃ r, s.src.inLen.toNat - xs.length = r + 1 := ⟨s.src.inLen.toNat - xs.length - 1, by omega⟩
  refine ⟨k, ?_, a⟩
  rw [exec_eq_finish, bodyOf, e, hn, encodeLoop, srcRead_scanned hlt (noFault_getD hnf _), hbyte]
  dsimp only
  rw [encodeByte, if_pos hb, bind_err, within_err, scanned_succ]
  rfl

/-- The counts of an input add up to its length (R33, R34). -/
theorem FreqTable.Counts.sum_eq {f : FreqTable} {xs : List Byte} (h : f.Counts xs) : f.sum = xs.length := by
  have hs := sum_counts xs fun _ => 1
  simp only [Nat.mul_one, List.map_const', List.sum_replicate, smul_eq_mul] at hs
  rw [FreqTable.sum, ← map_entry f BitVec.toNat, ← hs]
  exact congrArg List.sum (List.map_congr_left fun b _ => h _)

/-- TOTAL of an input's counts is 0 for the empty input alone (R182, R222). -/
theorem FreqTable.Counts.total_eq_zero_iff {f : FreqTable} {q : Source} (h : f.Counts q.input) :
    f.total = 0 ↔ q.inLen = 0 := by
  have ht : f.total.toNat = q.inLen.toNat := by rw [total_toNat, h.sum_eq, input_length]
  exact ⟨fun e => BitVec.eq_of_toNat_eq (by rw [← ht, e]; rfl), fun e => BitVec.eq_of_toNat_eq (by rw [ht, e]; rfl)⟩

/-- ENCODE's checks on the counts of its input, with no bit written (R181, R182). -/
theorem encodeChecks_counts {s : State} {f : FreqTable} (h : f.Counts s.src.input) (k : Sink) :
    encodeChecks ((s.encodeHeaded f k).enterStage 0x0E) =
      if s.src.inLen = 0 then .err .emptyInput ((s.encodeHeaded f k).enterStage 0x0E)
      else if f.outOfRange then .err .frequencyRange ((s.encodeHeaded f k).enterStage 0x0E)
      else .ok () ((s.encodeHeaded f k).enterStage 0x0E) :=
  if_congr h.total_eq_zero_iff rfl rfl

/-- Settles O48: the scan leaves the counts `f` (`bodyCount_ok`), and the checks raise (`encodeChecks_counts`). -/
theorem encodeChecksBeforeWriting : Obligations.EncodeChecksBeforeWriting := by
  intro s f hnf hcnt hor
  have hcounted : FreqTable.zero.counted s.src.input = f := (counted_counts (input_length_lt _)).unique hcnt
  have hcount : bodyCount (s.freshSession.enterStage 0x07) = .ok () ((s.encodeHeaded f s.snk.fresh).enterStage 0x07) := by
    rw [← hcounted]
    exact bodyCount_ok (s := s.freshSession.enterStage 0x07) hnf
  rw [exec_eq_finish, bodyOf, bodyEncode, hcount, bind_ok, enterStage_enterStage, encodeChecks_counts hcnt]
  by_cases h0 : s.src.inLen = 0
  · rw [if_pos h0, if_pos h0]; rfl
  · have hrange := (outOfRange_iff f).2 (hor.resolve_left h0)
    rw [if_neg h0, if_neg h0, if_pos hrange]; rfl

end Sys2Proof.Machine

/-! SUPPORT. ENCODE from any state (44_encoder.md R181, R182): the bit sequence it has written where it completes, and the stage
and the kind where it aborts (60_exceptions.md R220, R227). -/

namespace Sys2Proof.Machine

-- The writer, whatever the sink answers

/-- A sink below its capacity takes `m` bytes, or fails at one of them (R73). -/
theorem ready_or_failsAt {k : Sink} (h0 : k.Ready 0) {m : Nat} (hm : k.outCount.toNat + m < 2 ^ 64) :
    k.Ready m ∨ ∃ n < m, k.FailsAt n := by
  induction m with
  | zero => exact .inl h0
  | succ m ih =>
    rcases ih (by omega) with hr | ⟨n, hn, hf⟩
    · by_cases hfail : k.outCap ≤ k.outCount.toNat + m ∨ k.faults.getD m false = true
      · exact .inr ⟨m, by omega, hr, hfail⟩
      · obtain ⟨hcap, hdraw⟩ := not_or.1 hfail
        refine .inl ⟨by omega, hm, fun x hx => ?_⟩
        rw [List.take_add_one, List.mem_append, Option.mem_toList] at hx
        rcases hx with hx | hx
        · exact hr.2.2 x hx
        · rw [List.getD_eq_getElem?_getD, hx] at hdraw
          simpa using hdraw
    · exact .inr ⟨n, by omega, hf⟩

/-- A bit sequence raises nothing but IoError (R111, R220). -/
theorem writeSeq_raises (bs : List Bool) (k : Sink) : (writeSeq bs k).Ends (fun _ _ => True) fun e _ => e = .ioError := by
  induction bs generalizing k with
  | nil => trivial
  | cons b bs ih =>
    rw [writeSeq, ends_bind]
    refine Res.Ends.mono (P := fun _ _ => True) ?_ (fun _ k' _ => ih k') fun _ _ h => h
    rw [writeBit]
    split
    · rcases sinkWrite_cases ((k.wacc <<< 1) ||| (BitVec.ofBool b).setWidth 8) { k with wacc := 0, wcnt := 0 }
        with ⟨fs, e⟩ | ⟨-, e⟩ <;> rw [e] <;> trivial
    · trivial

/-- A bit sequence the writer went through has been appended (R111). -/
theorem appended_of_writeSeq {bs : List Bool} {k k' : Sink} (h : writeSeq bs k = .ok () k') (h0 : k.Ready 0)
    (hlt : k.outCount.toNat + (k.wcnt.toNat + bs.length) / 8 < 2 ^ 64) : k.Appended bs k' := by
  rcases ready_or_failsAt h0 hlt with hr | ⟨n, hn, hf⟩
  · obtain ⟨k1, e, a⟩ := writeSeq_appended bs hr
    rw [h] at e
    cases e
    exact a
  · obtain ⟨k1, e, -⟩ := writeSeq_lost bs hf hn
    rw [h] at e
    cases e

-- The scans

/-- The input from byte `m` on. -/
theorem input_drop {q : Source} {m : Nat} (h : m < q.inLen.toNat) : q.input.drop m = q.inByte m :: q.input.drop (m + 1) := by
  rw [List.drop_eq_getElem_cons (by simpa using h)]
  simp [Source.input]

/-- COUNT's loop from byte `m` on ends at IN_LEN, or at a read that fails (R132). -/
theorem countLoop_ends (q : Source) (n : Nat) {m : Nat} (f : FreqTable) (hn : m + n = q.inLen.toNat) :
    (countLoop n (q.scanned m, f)).Ends
      (fun _ p => p = (q.scanned q.inLen.toNat, f.counted (q.input.drop m)))
      (fun k p => k = .ioError ∧ p.1.srcPos.toNat < q.inLen.toNat) := by
  induction n generalizing m f with
  | zero =>
    rw [Nat.add_zero] at hn
    rw [hn, List.drop_eq_nil_of_le (by rw [input_length])]
    rfl
  | succ n ih =>
    have hm : m < q.inLen.toNat := by omega
    rw [countLoop]
    by_cases hf : q.faults.getD m false = true
    · rw [srcRead_scanned_err hm hf]
      exact ⟨rfl, by rw [scanned_srcPos (Nat.le_of_lt hm)]; exact hm⟩
    · rw [srcRead_scanned hm (by simpa using hf), input_drop hm]
      dsimp only
      rw [scanned_succ]
      exact ih _ (by omega)

/-- ENC_PAYLOAD's loop from byte `m` on: where it ends, it has written the codes of all bytes from there on, and SYMCNT is IN_LEN;
where it raises, some byte is not yet counted (R180, R227). -/
theorem encodeLoop_ends (c : CodeMap) (q : Source) (n : Nat) {m : Nat} {x : Stream} (hx : x.src = q.scanned m)
    (hn : m + n = q.inLen.toNat) (hs : x.symCnt.toNat = m) :
    (encodeLoop c n x).Ends
      (fun _ y => y.symCnt.toNat = q.inLen.toNat ∧ writeSeq (payloadBits c (q.input.drop m)) x.snk = .ok () y.snk)
      (fun k y => (k = .ioError ∨ k = .uncodedSymbol) ∧ y.symCnt.toNat < q.inLen.toNat) := by
  induction n generalizing m x with
  | zero =>
    rw [List.drop_eq_nil_of_le (by rw [input_length]; omega)]
    exact ⟨by omega, rfl⟩
  | succ n ih =>
    have hm : m < q.inLen.toNat := by omega
    rw [encodeLoop, hx]
    by_cases hf : q.faults.getD m false = true
    · rw [srcRead_scanned_err hm hf]
      exact ⟨.inl rfl, hs.trans_lt hm⟩
    · rw [srcRead_scanned hm (by simpa using hf), input_drop hm]
      dsimp only
      rw [ends_bind, encodeByte]
      dsimp only
      split
      · exact ⟨.inr rfl, hs.trans_lt hm⟩
      · have hw := writeSeq_raises (c.code (q.inByte m)) x.snk
        rw [ends_bind, ends_within, payloadBits, List.flatMap_cons, writeSeq_append]
        cases e : writeSeq (c.code (q.inByte m)) x.snk with
        | ok u k =>
          refine ih (x := { x with src := _, snk := k, symCnt := x.symCnt + 1 }) (scanned_succ q m) (by omega) ?_
          have := q.inLen.isLt
          simp only [BitVec.toNat_add, hs]
          simp; omega
        | err e k =>
          rw [e] at hw
          exact ⟨.inl hw, hs.trans_lt hm⟩
        | stuck x => trivial


-- How a command aborts

/-- Command `i`, started in `s`, raises `k` in the state `t`: STATUS and CMD are as they were, and the abort is one of those `i` can
end in, in the stage it was raised in (R220, R226, R227). -/
structure State.Raises (s : State) (i : Instr) (k : ErrorKind) (t : State) : Prop where
  status : t.status = s.status
  cmd : t.cmd = s.cmd
  listed : (t.stage.getD 0, k) ∈ abortsOf i
  encode : i = .encode → EncodeStoppedIn (t.stage.getD 0) s (abort k t)
  decode : i = .decode → DecodeStoppedIn (t.stage.getD 0) s (abort k t)

-- The stages of ENCODE

/-- Where TOTAL is not 0, some entry is not (R33, R150). -/
theorem nonzero_of_total {f : FreqTable} (h : f.total ≠ 0) : f.nonzero = true := by
  by_contra hz
  refine h (BitVec.eq_of_toNat_eq ?_)
  rw [total_toNat, FreqTable.sum]
  refine List.sum_eq_zero fun n hn => ?_
  obtain ⟨x, hx, rfl⟩ := List.mem_map.1 hn
  by_contra hne
  exact hz (List.any_eq_true.2 ⟨x, hx, bne_iff_ne.2 fun e => hne (by rw [e]; rfl)⟩)

/-- The sink `k` of an ENCODE that completed: it has taken the header of the input's counts `f`, the input by the codes `c` of the
tree of `f`, and at most 7 bits more, and no bit is pending (R79, R181). -/
structure State.Encoded (s : State) (f : FreqTable) (c : CodeMap) (k : Sink) : Prop where
  counts : f.Counts s.src.input
  nonzero : f.nonzero = true
  small : ∀ b : Byte, (f.entry b).toNat ≠ 2 ^ 32 - 1
  codes : (Tree.build f).genCodes = some c
  written : ∃ pad, pad.length < 8 ∧ writeSeq (unpadded f c s.src.input ++ pad) s.snk.fresh = .ok () k
  whole : k.wcnt = 0

/-- A flush: the pad, after which no bit is pending (R112). -/
theorem flushBits_ends (k : Sink) :
    (flushBits k).Ends (fun _ k' => writeSeq k.flushPad k = .ok () k' ∧ k'.wcnt = 0) fun e _ => e = .ioError := by
  have hw := writeSeq_raises k.flushPad k
  have hpad : flushBits k = writeSeq k.flushPad k := flushBits_eq k
  rw [← hpad] at hw ⊢
  cases e : flushBits k with
  | ok u k' =>
    refine ⟨rfl, ?_⟩
    by_cases h0 : k.wcnt = 0
    · rw [flushBits, if_pos h0] at e
      cases e
      exact h0
    · exact (flushBits_empties h0 e).2
  | err x k' => rwa [e] at hw
  | stuck x => trivial

/-- An abort of ENCODE in stage `stg`. -/
theorem raises_encode {s t : State} {stg : BitVec 8} {k : ErrorKind} (hstage : t.stage = some stg)
    (hst : t.status = s.status) (hcmd : t.cmd = s.cmd) (hk : (stg, k) ∈ abortsOf .encode)
    (h : EncodeStoppedIn stg s (abort k t)) : s.Raises .encode k t := by
  have hget : t.stage.getD 0 = stg := by rw [hstage]; rfl
  exact ⟨hst, hcmd, by rwa [hget], fun _ => by rwa [hget], nofun⟩

/-- ENCODE once its checks have passed: HDR_WRITE and the stages after it (R181). -/
def encodeFromHeader (s2 : State) : Res State Unit :=
  (bodyHdrWrite (s2.enterStage 0x08)).bind fun _ s3 =>
  (bodyBuild (s3.enterStage 0x0A)).bind fun _ s4 =>
  (bodyGencodes (s4.enterStage 0x0B)).bind fun _ s5 =>
  (bodyEncPayload (s5.enterStage 0x0C)).bind fun _ s6 =>
  bodyFlush (s6.enterStage 0x03)

theorem bodyEncode_eq_fromHeader (s : State) :
    bodyEncode s = (bodyCount (s.freshSession.enterStage 0x07)).bind fun _ s1 =>
      (encodeChecks (s1.enterStage 0x0E)).bind fun _ s2 => encodeFromHeader s2 := rfl

section
variable {s : State} {f : FreqTable} {c : CodeMap}

/-- ENC_PAYLOAD and FLUSH, where the header has gone to the sink `k` (R181). -/
theorem encode_payload_ends (hcnt : f.Counts s.src.input) (hn : f.nonzero = true)
    (hsmall : ∀ b : Byte, (f.entry b).toNat ≠ 2 ^ 32 - 1) (hc : (Tree.build f).genCodes = some c)
    {k : Sink} (hk : writeSeq (headerBits f) s.snk.fresh = .ok () k) :
    ((bodyEncPayload (s.encodeCoded f c k)).bind fun _ u => bodyFlush (u.enterStage 0x03)).Ends
      (fun _ t => t.status = s.status ∧ s.Encoded f c t.snk) (s.Raises .encode) := by
  have hv : (s.encodeCoded f c k).codesValid = true := rfl
  have hst : (s.encodeCoded f c k).status = s.status := rfl
  have hcmd : (s.encodeCoded f c k).cmd = s.cmd := rfl
  rw [ends_bind, bodyEncPayload, if_pos hv, ends_within]
  refine (encodeLoop_ends c (s.src.scanned s.src.inLen.toNat) s.src.inLen.toNat (m := 0) rfl (Nat.zero_add _) rfl).mono
    (fun _ x hx => ?_) fun e x hx => ?_
  · obtain ⟨hcount, hpay⟩ := hx
    rw [bodyFlush, ends_within]
    refine (flushBits_ends x.snk).mono (fun _ k' hk' => ?_) fun e k' he => ?_
    · obtain ⟨hpad, hw⟩ := hk'
      refine ⟨hst, hcnt, hn, hsmall, hc, ⟨x.snk.flushPad, ?_, ?_⟩, hw⟩
      · rw [flushPad_length]; omega
      · rw [unpadded, List.append_assoc, writeSeq_append, hk, bind_ok, writeSeq_append]
        exact (congrArg (Res.bind · _) hpay).trans hpad
    · exact raises_encode rfl hst hcmd (by rw [he]; decide) ⟨nofun, nofun, nofun, nofun, fun _ => ⟨rfl, rfl, hcount⟩⟩
  · obtain ⟨he, hcount⟩ := hx
    exact raises_encode rfl hst hcmd (by rcases he with rfl | rfl <;> decide)
      ⟨nofun, nofun, nofun, fun _ => ⟨rfl, rfl, hcount⟩, nofun⟩

/-- HDR_WRITE and the stages after it, where the checks have passed (R181, R182). -/
theorem encode_header_ends (hcnt : f.Counts s.src.input) (hn : f.nonzero = true)
    (hsmall : ∀ b : Byte, (f.entry b).toNat ≠ 2 ^ 32 - 1) :
    (encodeFromHeader ((s.encodeHeaded f s.snk.fresh).enterStage 0x0E)).Ends
      (fun _ t => t.status = s.status ∧ ∃ c, s.Encoded f c t.snk) (s.Raises .encode) := by
  obtain ⟨c, hc⟩ := genCodes_build ((nonzero_iff f).1 hn)
  have hheader : bodyHdrWrite (s.encodeHeaded f s.snk.fresh) =
      (writeSeq (headerBits f) s.snk.fresh).within (s.encodeHeaded f) := bodyHdrWrite_eq hsmall
  have hw := writeSeq_raises (headerBits f) s.snk.fresh
  rw [encodeFromHeader, enterStage_enterStage, enterStage_encodeHeaded, hheader, ends_bind, ends_within]
  cases hk : writeSeq (headerBits f) s.snk.fresh with
  | ok u k =>
    have hrest := encode_build_gencodes hn hc s k fun t =>
      (bodyEncPayload t).bind fun _ u => bodyFlush (u.enterStage 0x03)
    rw [ends_ok, hrest]
    exact (encode_payload_ends hcnt hn hsmall hc hk).mono (fun _ _ h => ⟨h.1, c, h.2⟩) fun _ _ h => h
  | err e k =>
    rw [hk] at hw
    have he : e = .ioError := hw
    exact raises_encode rfl rfl rfl (by rw [he]; decide)
      ⟨nofun, nofun, fun _ => ⟨rfl, rfl, rfl, scanned_srcPos (le_refl _)⟩, nofun, nofun⟩
  | stuck x => trivial

/-- ENCODE's checks, and the stages after them (R181, R182). -/
theorem encode_checks_ends (hcnt : f.Counts s.src.input) :
    ((encodeChecks ((s.encodeHeaded f s.snk.fresh).enterStage 0x0E)).bind fun _ s2 => encodeFromHeader s2).Ends
      (fun _ t => t.status = s.status ∧ ∃ c, s.Encoded f c t.snk) (s.Raises .encode) := by
  have hst : (s.encodeHeaded f s.snk.fresh).status = s.status := rfl
  have hcmd : (s.encodeHeaded f s.snk.fresh).cmd = s.cmd := rfl
  have hraise (k : ErrorKind) (hk : ((0x0E : BitVec 8), k) ∈ abortsOf .encode) :
      s.Raises .encode k ((s.encodeHeaded f s.snk.fresh).enterStage 0x0E) :=
    raises_encode rfl hst hcmd hk ⟨nofun, fun _ => ⟨rfl, rfl, scanned_srcPos (le_refl _)⟩, nofun, nofun, nofun⟩
  rw [encodeChecks_counts hcnt]
  split
  · exact hraise _ (by decide)
  · rename_i h0
    split
    · exact hraise _ (by decide)
    · rename_i hrange
      rw [bind_ok]
      exact encode_header_ends hcnt (nonzero_of_total (mt hcnt.total_eq_zero_iff.1 h0))
        fun b hb => hrange ((outOfRange_iff f).2 ⟨b, hb⟩)

end

/-- What ENCODE can come to (R181, R182): the whole stream written, or an abort in one of its stages. -/
theorem bodyEncode_ends (s : State) :
    (bodyEncode s).Ends (fun _ t => t.status = s.status ∧ ∃ f c, s.Encoded f c t.snk) (s.Raises .encode) := by
  rw [bodyEncode_eq_fromHeader, ends_bind, bodyCount, ends_within]
  refine (countLoop_ends s.src s.src.inLen.toNat (m := 0) FreqTable.zero (Nat.zero_add _)).mono (fun _ p hp => ?_)
    fun k p hp => ?_
  · rw [hp, List.drop_zero]
    exact (encode_checks_ends (counted_counts (input_length_lt s.src))).mono (fun _ _ h => ⟨h.1, _, h.2⟩) fun _ _ h => h
  · obtain ⟨rfl, hpos⟩ := hp
    exact raises_encode rfl rfl rfl (by decide) ⟨fun _ => ⟨rfl, rfl, hpos⟩, nofun, nofun, nofun, nofun⟩

end Sys2Proof.Machine

/-! SUPPORT. The round trip of ENCODE and DECODE (44_encoder.md R184, 45_decoder.md R192): the bytes a completed ENCODE has put in
OUT are the bits it wrote, and DECODE of such bytes emits the input. -/

namespace Sys2Proof.Machine

-- What ENCODE wrote

theorem fresh_ready_zero (k : Sink) : k.fresh.Ready 0 :=
  ⟨Nat.zero_le _, Nat.two_pow_pos 64, fun _ hx => absurd hx (by simp)⟩

/-- A payload is no longer than 255 bits a byte (R175, R176). -/
theorem payloadBits_length_le {f : FreqTable} (hf : 1 ≤ f.leaves) {c : CodeMap} (hc : (Tree.build f).genCodes = some c)
    (xs : List Byte) : (payloadBits c xs).length ≤ xs.length * 255 := by
  rw [payloadBits, List.length_flatMap, ← List.length_map (f := fun b => (c.code b).length)]
  refine List.sum_le_card_nsmul _ _ fun n hn => ?_
  obtain ⟨b, -, rfl⟩ := List.mem_map.1 hn
  exact (codesCoverAndFit f c b hf hc).2.2

/-- The bytes of a sink that ENCODE leaves are the header, the payload and a pad (R79, R181). -/
theorem State.Encoded.bits {s : State} {f : FreqTable} {c : CodeMap} {k : Sink} (h : s.Encoded f c k) {ys : List Byte}
    (hk : k.Holds 0 ys) : ∃ pad, ys.flatMap byteBits = headerBits f ++ payloadBits c s.src.input ++ pad := by
  obtain ⟨pad, hpad, hw⟩ := h.written
  have hw0 : s.snk.fresh.wcnt.toNat = 0 := rfl
  have hc0 : s.snk.fresh.outCount.toNat = 0 := rfl
  have hlen : (unpadded f c s.src.input ++ pad).length =
      8 * headerBytes f + (payloadBits c s.src.input).length + pad.length := by
    rw [unpadded, List.length_append, List.length_append, headerBits_length_bytes]
  obtain ⟨-, -, -, hheader, -⟩ := headerLengthIsWholeBytes f h.small
  have hpay := payloadBits_length_le ((nonzero_iff f).1 h.nonzero) h.codes s.src.input
  have hin := input_length_lt s.src
  have a := appended_of_writeSeq hw (fresh_ready_zero _) (by rw [hc0, hw0, hlen]; omega)
  have hmod : (unpadded f c s.src.input ++ pad).length % 8 = 0 := by
    have hw := a.wcnt
    rw [h.whole, hw0, Nat.zero_add] at hw
    exact hw.symm
  exact ⟨pad, a.holds_whole hk hw0 (m := (unpadded f c s.src.input ++ pad).length / 8) (by omega)⟩

-- What DECODE emits

theorem bodyBuild_ok {s : State} (h : s.freq.nonzero = true) :
    bodyBuild s = .ok () { s with tree := Tree.build s.freq, codesValid := false } := if_pos h

/-- The state in which DECODE's DEC_PAYLOAD starts, where its HDR_READ has left `t` (R192). -/
def State.decodeBuilt (t : State) : State :=
  { t with tree := Tree.build t.freq, codesValid := false, stage := some 0x0D }

/-- DECODE where its pre-read and HDR_READ have gone well and TOTAL is not 0: it ends as DEC_PAYLOAD does (R192). -/
theorem bodyDecode_of_header {s t : State} {q : Source} (h0 : fetch s.src.opened = .ok () q)
    (h1 : bodyHdrRead { s.freshSession with src := q, stage := some 0x09 } = .ok () t) (hn : t.freq.nonzero = true) :
    bodyDecode s = bodyDecPayload t.decodeBuilt := by
  have hinit : bodyRdInit (s.freshSession.enterStage 0x04) = .ok () { s.freshSession.enterStage 0x04 with src := q } := by
    rw [bodyRdInit_eq]
    exact congrArg (Res.within · _) h0
  rw [bodyDecode, hinit, bind_ok]
  refine (congrArg (Res.bind · _) h1).trans ?_
  rw [bind_ok, if_neg (total_ne_zero hn), bodyBuild_ok (s := t.enterStage 0x0A) hn]
  rfl

/-- A state with the tree BUILD has just made (R50, R150). -/
theorem treeOk_built {s : State} (hn : s.freq.nonzero = true) (ht : s.tree = Tree.build s.freq)
    (hc : s.codesValid = false) : s.TreeOk := by
  obtain ⟨e, m, -⟩ := build_spec ((nonzero_iff s.freq).1 hn)
  exact ⟨fun _ => ⟨hn, ht⟩, fun x => absurd x (by simp [hc]), ht ▸ m.grown.unused⟩

/-- DECODE of a header of `f`, the codes of TOTAL symbols, and whatever follows (R192, R194). -/
theorem exec_decode_symbols {s : State} {cs : List (BitVec 2)} {f : FreqTable} {c : CodeMap} {xs : List Byte}
    {rest : List Bool} (hfit : ClassesFit cs f) (h : s.src.NoFault) (hn : f.nonzero = true)
    (hc : (Tree.build f).genCodes = some c) (hxs : ∀ b ∈ xs, f.entry b ≠ 0) (hlen : xs.length = f.sum)
    (hin : s.src.input.flatMap byteBits = headerWith cs f ++ payloadBits c xs ++ rest) (hk : s.snk.fresh.Ready xs.length) :
    ∃ q, exec .decode s = .next (complete { s with
      freq := f, tree := Tree.build f, codesValid := false, src := q, snk := s.snk.fresh.emitted xs
      symCnt := BitVec.ofNat 64 xs.length }) := by
  obtain ⟨q0, e0, h0, h8, hv, ha⟩ := fetch_opened h
  rw [List.append_assoc] at hin
  obtain ⟨q1, e1, c1⟩ := bodyHdrRead_ok (s := { s.freshSession with src := q0, stage := some 0x09 }) hv h8 h0 hfit
    (ha.trans hin)
  obtain ⟨-, -, -, -, -, hvalid, -⟩ := build_spec ((nonzero_iff f).1 hn)
  obtain ⟨q2, e2, -⟩ := decPayloadEmitsTheSymbols { s.freshSession with
      freq := f, tree := Tree.build f, codesValid := false, src := q1, cls := none, stage := some 0x0D } c xs rest
    (c1.rdValid.trans hv) c1.short (NoFault.of_consumed h0 c1) hvalid (treeOk_built hn rfl rfl) hc hxs hlen
    (by rw [c1.ahead, ha, hin, List.drop_left]) hk
  exact ⟨q2, by rw [exec_eq_finish, bodyOf, bodyDecode_of_header e0 e1 hn]; exact e2⟩

theorem emitted_holds {k : Sink} {xs : List Byte} (h : k.Ready xs.length) : (k.emitted xs).Holds k.outCount.toNat xs :=
  ⟨emitted_outCount h, fun j hj => by simp [Sink.emitted, read_writeAll, hj]⟩

/-- Settles O55: an ENCODE that completed has written its stream (`bodyEncode_ends`), whose bits are those of the bytes in OUT
(`State.Encoded.bits`), and DECODE emits the symbols of such a stream (`exec_decode_symbols`). -/
theorem decodeOfEncodeIsTheInput : Obligations.DecodeOfEncodeIsTheInput := by
  intro s t r hs ht hterr hr hnf hholds hready
  have hends := bodyEncode_ends s
  rw [exec_eq_finish, bodyOf] at ht
  rcases finish_next ht with ⟨u, e, rfl⟩ | ⟨k, u, e, rfl⟩
  · rw [e] at hends
    obtain ⟨-, f, c, h⟩ := hends
    obtain ⟨pad, hbits⟩ := h.bits hholds
    rw [headerBits_eq_headerWith] at hbits
    obtain ⟨q, ed⟩ := exec_decode_symbols (headerClasses_fit h.small) hnf h.nonzero h.codes
      (fun b hb => h.counts.entry_ne_zero hb) h.counts.sum_eq.symm hbits (by rwa [input_length])
    refine ⟨_, ed, hr, rfl, emitted_holds (k := r.snk.fresh) (by rwa [input_length]), ?_⟩
    rw [← BitVec.ofNat_toNat, ← input_length]
    rfl
  · cases hterr

end Sys2Proof.Machine

/-! SUPPORT. How every command ends from any state (46_session_control.md R205, 60_exceptions.md R220, R226): the kinds its loops
raise, and the stage they are raised in. -/

namespace Sys2Proof.Machine

-- The reader

theorem fetch_ends (q : Source) :
    (fetch q).Ends (fun _ q' => q'.rdValid = q.rdValid) fun k q' => k = .ioError ∧ q'.srcPos = q.srcPos := by
  rw [fetch]
  rcases srcRead_cases q.srcPos q with ⟨-, e⟩ | ⟨-, e⟩ | ⟨-, e⟩ <;> rw [e]
  · rfl
  · exact ⟨rfl, rfl⟩
  · rfl

/-- A bit read leaves the reader initialized, or raises one of its two kinds (R114, R220). -/
theorem readBit_ends {q : Source} (h : q.rdValid = true) :
    (readBit q).Ends (fun _ q' => q'.rdValid = true) fun k _ => k = .ioError ∨ k = .truncatedStream := by
  rw [readBit]
  split
  · exact .inr rfl
  · split
    · rw [ends_bind]
      exact (fetch_ends _).mono (fun _ _ hq => hq.trans h) fun _ _ hk => .inl hk.1
    · exact h

theorem readBitsFrom_ends (n : Nat) (v : Word) {q : Source} (h : q.rdValid = true) :
    (readBitsFrom n v q).Ends (fun _ q' => q'.rdValid = true) fun k _ => k = .ioError ∨ k = .truncatedStream := by
  induction n generalizing v q with
  | zero => exact h
  | succ n ih =>
    rw [readBitsFrom, ends_bind]
    exact (readBit_ends h).mono (fun _ _ => ih _) fun _ _ hk => hk

theorem readClasses_ends (n : Nat) (acc : List (BitVec 2)) {q : Source} (h : q.rdValid = true) :
    (readClasses n acc q).Ends (fun _ p => p.1.rdValid = true) fun k _ => k = .ioError ∨ k = .truncatedStream := by
  induction n generalizing acc q with
  | zero => exact h
  | succ n ih =>
    rw [readClasses_succ, ends_bind, ends_within]
    exact (readBitsFrom_ends 2 0 h).mono (fun _ _ => ih _) fun _ _ hk => hk

theorem readValues_ends (cs : List (BitVec 2)) (b : Nat) {p : Source × FreqTable} (h : p.1.rdValid = true) :
    (readValues cs b p).Ends (fun _ p' => p'.1.rdValid = true) fun k _ => k = .ioError ∨ k = .truncatedStream := by
  induction cs generalizing b p with
  | nil => exact h
  | cons c cs ih =>
    by_cases hc : c = 0
    · rw [hc, readValues_cons_zero]
      exact ih _ h
    · rw [readValues_cons hc, ends_bind, ends_within]
      exact (readBitsFrom_ends _ 0 h).mono (fun _ q hq => ih _ (p := (q, _)) hq) fun _ _ hk => hk

/-- `t` has STATUS, CMD and STAGE of `s`: those no body changes but CLEAR's and the two pipelines'. -/
structure State.Beside (s t : State) : Prop where
  status : t.status = s.status
  cmd : t.cmd = s.cmd
  stage : t.stage = s.stage

/-- HDR_READ with an initialized reader: it stays so, or HDR_READ raises with the sink and SYMCNT as they were and no valid bit set
(R35, R134, R230). -/
theorem bodyHdrRead_ends {s : State} (h : s.src.rdValid = true) :
    (bodyHdrRead s).Ends (fun _ t => s.Beside t ∧ t.src.rdValid = true)
      fun k t => (k = .ioError ∨ k = .truncatedStream) ∧ s.Beside t ∧ t.snk = s.snk ∧ t.symCnt = s.symCnt ∧ t.Invalid := by
  rw [bodyHdrRead, if_pos h, ends_bind, hdrClasses, ends_within]
  refine (readClasses_ends 256 [] (q := (s.withFreq FreqTable.zero).src) h).mono (fun _ p hp => ?_)
    fun k p hk => ⟨hk, ⟨rfl, rfl, rfl⟩, rfl, rfl, rfl, rfl⟩
  rw [hdrValues, ends_within]
  exact (readValues_ends _ 0 (p := (p.1, FreqTable.zero)) hp).mono (fun _ p' hp' => ⟨⟨rfl, rfl, rfl⟩, hp'⟩)
    fun k p' hk => ⟨hk, ⟨rfl, rfl, rfl⟩, rfl, rfl, rfl, rfl⟩

-- The writer

theorem writeClasses_ends (fs : List Word) (k : Sink) :
    (writeClasses fs k).Ends (fun _ _ => True) fun e _ => e = .ioError ∨ e = .frequencyRange := by
  induction fs generalizing k with
  | nil => trivial
  | cons f fs ih =>
    rw [writeClasses]
    split
    · rw [ends_bind]
      exact (writeSeq_raises _ _).mono (fun _ k' _ => ih k') fun _ _ he => .inl he
    · exact .inr rfl

theorem writeValues_ends (fs : List Word) (k : Sink) :
    (writeValues fs k).Ends (fun _ _ => True) fun e _ => e = .ioError ∨ e = .frequencyRange := by
  induction fs generalizing k with
  | nil => trivial
  | cons f fs ih =>
    rw [writeValues]
    split
    · rw [ends_bind]
      exact (writeSeq_raises _ _).mono (fun _ k' _ => ih k') fun _ _ he => .inl he
    · exact .inr rfl

-- The walk

/-- A symbol that goes to the sink leaves the source alone; one the sink does not take is not counted (R190, R230). -/
theorem emitSymbol_ends (b : Byte) (x : Stream) :
    (emitSymbol b x).Ends (fun _ y => y.src = x.src) fun k y => k = .ioError ∧ y.symCnt = x.symCnt := by
  rw [emitSymbol, ends_bind, ends_within]
  rcases sinkWrite_cases b x.snk with ⟨fs, e⟩ | ⟨-, e⟩ <;> rw [e]
  · exact ⟨rfl, rfl⟩
  · rfl

theorem walkBit_ends (t : Tree) (d : Bool) (x : Stream) :
    (walkBit t d x).Ends (fun _ y => y.src = x.src) fun k y => k = .ioError ∧ y.symCnt = x.symCnt := by
  unfold walkBit
  split
  · exact emitSymbol_ends _ x
  · dsimp only
    generalize (if d = true then (t.node (x.cur.getD t.root)).right else (t.node (x.cur.getD t.root)).left) = next
    split
    · rw [ends_bind]
      exact emitSymbol_ends _ { x with cur := some next }
    · rfl

/-- The walk raises only while symbols are missing (R190, R195). -/
theorem walkLoop_ends (t : Tree) (total : Wide) (n : Nat) {x : Stream} (h : x.src.rdValid = true) :
    (walkLoop t total n x).Ends (fun _ _ => True)
      fun k y => (k = .ioError ∨ k = .truncatedStream) ∧ y.symCnt.toNat < total.toNat := by
  induction n generalizing x with
  | zero =>
    rw [walkLoop]
    split
    · trivial
    · exact ⟨.inr rfl, by omega⟩
  | succ n ih =>
    rw [walkLoop]
    split
    · trivial
    · have hlt : x.symCnt.toNat < total.toNat := by omega
      rw [ends_bind, ends_within]
      refine (readBit_ends h).mono (fun d q hq => ?_) fun k q hk => ⟨hk, hlt⟩
      rw [ends_bind]
      refine (walkBit_ends t d { x with src := q }).mono (fun _ y hy => ih (by rw [hy]; exact hq)) fun k y hk => ?_
      exact ⟨.inl hk.1, by rw [hk.2]; exact hlt⟩

-- The commands with one stage

/-- The pseudocode of command `i`, started in `s`, leaves STATUS, CMD and STAGE alone, and raises what `i` may raise in its own
stage (R220, R227). -/
def OwnEnds (i : Instr) (s : State) (r : Res State Unit) : Prop :=
  r.Ends (fun _ t => s.Beside t) fun k t => s.Beside t ∧ (i.op, k) ∈ abortsOf i

/-- A step over a part of the state that holds none of the three. -/
theorem OwnEnds.within {σ : Type} {i : Instr} {s : State} {r : Res σ Unit} {put : σ → State} {P : Unit → σ → Prop}
    {E : ErrorKind → σ → Prop} (hput : ∀ x, s.Beside (put x)) (h : r.Ends P E)
    (hk : ∀ k x, E k x → (i.op, k) ∈ abortsOf i) : OwnEnds i s (r.within put) := by
  rw [OwnEnds, ends_within]
  exact h.mono (fun _ x _ => hput x) fun k x he => ⟨hput x, hk k x he⟩

theorem beside_refl (s : State) : s.Beside s := ⟨rfl, rfl, rfl⟩

/-- Every command but CLEAR and the two pipelines, branch by branch of its body (R220). -/
theorem bodyOf_ownEnds {i : Instr} (hi : i ∉ [.clear, .encode, .decode]) (s : State) : OwnEnds i s (bodyOf i s) := by
  cases i with
  | clear => exact absurd (by decide) hi
  | encode => exact absurd (by decide) hi
  | decode => exact absurd (by decide) hi
  | wrBits n =>
    rw [bodyOf, bodyWrBits]
    split
    · exact .within (fun _ => ⟨rfl, rfl, rfl⟩) (writeSeq_raises _ _) fun k _ hk => by rw [hk]; exact .head _
    · exact ⟨beside_refl s, .tail _ (.head _)⟩
  | flush => exact .within (fun _ => ⟨rfl, rfl, rfl⟩) (flushBits_ends _) fun k _ hk => by rw [hk]; decide
  | rdInit => exact .within (fun _ => ⟨rfl, rfl, rfl⟩) (fetch_ends _) fun k _ hk => by rw [hk.1]; decide
  | rdBit =>
    rw [bodyOf, bodyRdBit]
    split
    · rename_i hv
      rw [OwnEnds, ends_bind, ends_within]
      exact (readBit_ends hv).mono (fun _ _ _ => ⟨rfl, rfl, rfl⟩)
        fun k _ hk => ⟨⟨rfl, rfl, rfl⟩, by rcases hk with rfl | rfl <;> decide⟩
    · exact ⟨beside_refl s, by decide⟩
  | rdBits n =>
    rw [bodyOf, bodyRdBits]
    split
    · split
      · rename_i hv
        rw [OwnEnds, ends_bind, ends_within]
        exact (readBitsFrom_ends _ 0 hv).mono (fun _ _ _ => ⟨rfl, rfl, rfl⟩)
          fun k _ hk => ⟨⟨rfl, rfl, rfl⟩, by rcases hk with rfl | rfl <;> simp [abortsOf, Instr.op]⟩
      · exact ⟨beside_refl s, by simp [abortsOf, Instr.op]⟩
    · exact ⟨beside_refl s, by simp [abortsOf, Instr.op]⟩
  | count =>
    exact .within (fun _ => ⟨rfl, rfl, rfl⟩) (countLoop_ends s.src _ (m := 0) FreqTable.zero (Nat.zero_add _))
      fun k _ hk => by rw [hk.1]; decide
  | hdrWrite =>
    rw [bodyOf, bodyHdrWrite]
    split
    · exact ⟨beside_refl s, by decide⟩
    · refine .within (P := fun _ _ => True) (E := fun k _ => k = .ioError ∨ k = .frequencyRange)
        (fun _ => ⟨rfl, rfl, rfl⟩) ?_ fun k _ hk => by rcases hk with rfl | rfl <;> decide
      rw [ends_bind]
      exact (writeClasses_ends _ _).mono (fun _ k _ => writeValues_ends _ k) fun _ _ hk => hk
  | hdrRead =>
    by_cases hv : s.src.rdValid = true
    · exact (bodyHdrRead_ends hv).mono (fun _ t ht => ht.1)
        fun k t ht => ⟨ht.2.1, by rcases ht.1 with rfl | rfl <;> decide⟩
    · rw [bodyOf, bodyHdrRead, if_neg hv]
      exact ⟨beside_refl s, by decide⟩
  | build =>
    rw [bodyOf, bodyBuild]
    split
    · exact ⟨rfl, rfl, rfl⟩
    · exact ⟨beside_refl s, by decide⟩
  | gencodes =>
    rw [bodyOf, bodyGencodes]
    split
    · split
      · exact ⟨rfl, rfl, rfl⟩
      · trivial
    · exact ⟨beside_refl s, by decide⟩
  | encPayload =>
    rw [bodyOf, bodyEncPayload]
    split
    · exact .within (fun _ => ⟨rfl, rfl, rfl⟩)
        (encodeLoop_ends s.codes s.src _ (m := 0) (x := { s.stream with src := s.src.rewind, symCnt := 0 }) rfl
          (Nat.zero_add _) rfl) fun k _ hk => by rcases hk.1 with rfl | rfl <;> decide
    · exact ⟨beside_refl s, by decide⟩
  | decPayload =>
    rw [bodyOf, bodyDecPayload]
    split
    · exact ⟨rfl, rfl, rfl⟩
    · split
      · rename_i hv
        exact .within (fun _ => ⟨rfl, rfl, rfl⟩) (walkLoop_ends _ _ _ (Bool.and_eq_true_iff.1 hv).1)
          fun k _ hk => by rcases hk.1 with rfl | rfl <;> decide
      · exact ⟨beside_refl s, by decide⟩

-- DECODE

/-- An abort of DECODE in stage `stg`. -/
theorem raises_decode {s t : State} {stg : BitVec 8} {k : ErrorKind} (hstage : t.stage = some stg)
    (hst : t.status = s.status) (hcmd : t.cmd = s.cmd) (hk : (stg, k) ∈ abortsOf .decode)
    (h : DecodeStoppedIn stg s (abort k t)) : s.Raises .decode k t := by
  have hget : t.stage.getD 0 = stg := by rw [hstage]; rfl
  exact ⟨hst, hcmd, by rwa [hget], nofun, fun _ => by rwa [hget]⟩

/-- DEC_PAYLOAD, where DECODE's HDR_READ has left `t` (R192). -/
theorem decode_payload_ends {s t : State} (hst : t.status = s.status) (hcmd : t.cmd = s.cmd)
    (hn : t.freq.nonzero = true) (hv : t.src.rdValid = true) :
    (bodyDecPayload t.decodeBuilt).Ends (fun _ u => u.status = s.status) (s.Raises .decode) := by
  obtain ⟨-, -, -, -, -, hvalid, -⟩ := build_spec ((nonzero_iff t.freq).1 hn)
  rw [bodyDecPayload_walk (s := t.decodeBuilt) (total_ne_zero hn) hv hvalid, ends_within]
  refine (walkLoop_ends _ _ _ hv).mono (fun _ x _ => hst) fun k x hx => ?_
  obtain ⟨hk, hlt⟩ := hx
  exact raises_decode rfl hst hcmd (by rcases hk with rfl | rfl <;> decide)
    ⟨nofun, nofun, fun _ => ⟨rfl, rfl, hlt.trans_eq (total_toNat t.freq)⟩⟩

/-- What DECODE can come to (R192). -/
theorem bodyDecode_ends (s : State) : (bodyDecode s).Ends (fun _ t => t.status = s.status) (s.Raises .decode) := by
  rw [bodyDecode, ends_bind, bodyRdInit_eq, ends_within]
  refine (fetch_ends _).mono (fun _ q hq => ?_) fun k q hk => ?_
  · rw [ends_bind]
    refine (bodyHdrRead_ends hq).mono (fun _ t ht => ?_) fun k t ht => ?_
    · obtain ⟨⟨hst, hcmd, -⟩, hv⟩ := ht
      split
      · exact hst
      · rename_i h0
        have hn : t.freq.nonzero = true := nonzero_of_total h0
        rw [bodyBuild_ok (s := t.enterStage 0x0A) hn, bind_ok]
        exact decode_payload_ends hst hcmd hn hv
    · obtain ⟨hk, ⟨hst, hcmd, hstage⟩, hsnk, hsym, hinv⟩ := ht
      exact raises_decode hstage hst hcmd (by rcases hk with rfl | rfl <;> decide)
        ⟨nofun, fun _ => ⟨hsnk, hsym, hinv⟩, nofun⟩
  · exact raises_decode rfl rfl rfl (by rw [hk.1]; decide) ⟨fun _ => ⟨rfl, rfl, rfl, hk.2⟩, nofun, nofun⟩

-- Every command

/-- What a command but CLEAR can come to: STATUS as it was where it completes, or one of its aborts (R205, R220, R226). -/
theorem bodyOf_ends {i : Instr} (hi : i ≠ .clear) {s : State} (hs : s.stage = some i.op) :
    (bodyOf i s).Ends (fun _ t => t.status = s.status) (s.Raises i) := by
  by_cases he : i = .encode
  · subst he
    exact (bodyEncode_ends s).mono (fun _ _ h => h.1) fun _ _ h => h
  · by_cases hd : i = .decode
    · subst hd
      exact bodyDecode_ends s
    · refine Res.Ends.mono (bodyOf_ownEnds (by simp [hi, he, hd]) s) (fun _ _ h => h.status) fun k t h => ?_
      obtain ⟨⟨hst, hcmd, hstage⟩, hk⟩ := h
      have hget : t.stage.getD 0 = i.op := by rw [hstage, hs]; rfl
      exact ⟨hst, hcmd, by rwa [hget], fun e => absurd e he, fun e => absurd e hd⟩

/-- No command raises CorruptHeader (R225). -/
theorem abortsOf_ne_corruptHeader (i : Instr) : ∀ e ∈ abortsOf i, e.2 ≠ .corruptHeader := by
  cases i <;> simp [abortsOf]

/-- Settles O9: CLEAR by its definition, every other command by what its body can come to (`bodyOf_ends`), completed or aborted. -/
theorem everyCommandCompletesOrAbortsWithItsKinds : Obligations.EveryCommandCompletesOrAbortsWithItsKinds := by
  intro i s t hs ht
  by_cases hi : i = .clear
  · subst hi
    cases ht
    exact ⟨rfl, rfl, rfl, rfl, rfl, .inr (.inl ⟨rfl, rfl⟩)⟩
  · have hends := bodyOf_ends hi hs
    rw [exec_eq_finish] at ht
    rcases finish_next ht with ⟨u, e, rfl⟩ | ⟨k, u, e, rfl⟩
    · rw [e, ends_ok] at hends
      exact ⟨rfl, rfl, rfl, rfl, rfl, .inl ⟨hi, by rw [complete_status, hends]; rfl⟩⟩
    · rw [e, ends_err] at hends
      obtain ⟨hst, hcmd, hk, henc, hdec⟩ := hends
      exact ⟨rfl, rfl, rfl, rfl, rfl, .inr (.inr ⟨_, hk, abortsOf_ne_corruptHeader i _ hk,
        by rw [abort_status, hst, hcmd]; rfl, henc, hdec⟩)⟩

end Sys2Proof.Machine

/-! SUPPORT. DEC_PAYLOAD and DECODE to their ends (45_decoder.md R190 to R196): a payload that holds TOTAL symbols, one that ends
before, a header of no symbols, and how many symbols a decode that completes has emitted. -/

namespace Sys2Proof.Machine

-- The bits of a payload, and those after its last whole symbol

/-- A tree of one leaf is of one symbol, which every bit spells (R191). -/
theorem spells_single {f : FreqTable} (h1 : f.leaves = 1) {u : List Bool} {xs : List Byte}
    (hxs : ∀ b ∈ xs, f.entry b ≠ 0) (hlen : u.length = xs.length) :
    List.Forall₂ (Tree.build f).Spells (u.map fun d => [d]) xs := by
  rw [List.forall₂_map_left_iff, List.forall₂_iff_zip]
  refine ⟨hlen, fun hmem => ?_⟩
  obtain ⟨hl, hs⟩ := build_root_leaf (hxs _ (List.of_mem_zip hmem).2) h1
  exact .inl ⟨hl, hs, rfl⟩

/-- Bits walked down from an internal node stay among the internal nodes, or begin with the path to a leaf. -/
theorem inner_path_or_leafPath {t : Tree} (u : List Bool) {i : NodeIx} (hi : (t.node i).leaf = false) :
    (∃ j, t.Path i u j ∧ (t.node j).leaf = false) ∨ ∃ v b, v <+: u ∧ t.LeafPath i v b := by
  induction u generalizing i with
  | nil => exact .inl ⟨i, .nil i, hi⟩
  | cons d u ih =>
    by_cases hl : (t.node (t.child i d)).leaf = true
    · exact .inr ⟨[d], _, ⟨u, rfl⟩, .cons hi ⟨_, .nil _, hl, rfl⟩⟩
    · rcases ih (i := t.child i d) (by simpa using hl) with ⟨j, hp, hj⟩ | ⟨v, b, hv, hp⟩
      · exact .inl ⟨j, .cons hi hp, hj⟩
      · exact .inr ⟨d :: v, b, List.cons_prefix_cons.2 ⟨rfl, hv⟩, hp.cons hi⟩

/-- The bits `u` bring the walk of `t` from the root to no symbol: there are none, or they lead from an internal root to an
internal node (R190). -/
def Tree.Within (t : Tree) (u : List Bool) : Prop :=
  u = [] ∨ (t.node t.root).leaf = false ∧ ∃ i, t.Path t.root u i ∧ (t.node i).leaf = false

/-- Bits that begin with no code come to no symbol (R170, R195). -/
theorem within_of_no_code {f : FreqTable} (h2 : 2 ≤ f.leaves) {c : CodeMap} (hc : (Tree.build f).genCodes = some c)
    {u : List Bool} (hu : ∀ b : Byte, f.entry b ≠ 0 → ¬c.code b <+: u) : (Tree.build f).Within u := by
  have hr := build_root_inner h2
  rcases inner_path_or_leafPath u hr with h | ⟨v, b, hv, hp⟩
  · exact .inr ⟨hr, h⟩
  · obtain ⟨a, ha, rfl⟩ := (leafPath_iff_code h2 hc v).1 ⟨b, hp⟩
    exact absurd hv (hu a ha)

/-- The walk along bits that come to no symbol (R190). -/
theorem walkLoop_within {t : Tree} {u : List Bool} (hu : t.Within u) {total : Wide} {x : Stream}
    (hx : x.cur = some t.root) {q : Source} (hd : x.src.Delivers u q) (ht : x.symCnt.toNat < total.toNat) (n : Nat) :
    ∃ i, walkLoop t total (u.length + n) x = walkLoop t total n { x with src := q, cur := i } := by
  rcases hu with rfl | ⟨hr, i, hp, hi⟩
  · cases hd
    exact ⟨x.cur, by rw [List.length_nil, Nat.zero_add]⟩
  · exact ⟨some i, walkLoop_path hr hp hi hx hd ht n⟩

/-- The walk demands a bit of an empty reader (R114, R195, R224). -/
theorem walkLoop_empty (t : Tree) {total : Wide} (n : Nat) {x : Stream} (h0 : x.src.rcnt = 0)
    (ht : x.symCnt.toNat < total.toNat) : walkLoop t total n x = .err .truncatedStream x := by
  cases n with
  | zero => rw [walkLoop, if_neg (by omega)]
  | succ n => rw [walkLoop, if_neg (by omega), readBit, if_pos h0]; rfl

/-- A reader that has delivered all its bits is empty (R42, R114). -/
theorem Source.Consumed.empty {q q' : Source} (h : q.Consumed q.ahead.length q') : q'.rcnt = 0 := by
  by_contra h0
  have hah := h.ahead
  rw [List.drop_length, Source.ahead, if_neg h0] at hah
  have hlen := congrArg List.length (List.append_eq_nil_iff.1 hah).1
  rw [List.length_take, byteBits_length, List.length_nil] at hlen
  exact h0 (by bv_omega)

-- DEC_PAYLOAD

section
variable {s : State} (hrd : s.src.rdValid = true) (hv : s.tree.treeValid = true) (hok : s.TreeOk)
  {us : List (List Bool)} {xs : List Byte} (h : List.Forall₂ s.tree.Spells us xs)
include hrd hv hok h

/-- DEC_PAYLOAD of a stream that begins with the bits of TOTAL symbols (R190). -/
theorem bodyDecPayload_whole (h8 : s.src.rcnt.toNat ≤ 8) (hnf : s.src.NoFault) {rest : List Bool}
    (hah : s.src.ahead = us.flatten ++ rest) (hsum : xs.length = s.freq.sum) (hk : s.snk.Ready xs.length) :
    ∃ q, bodyDecPayload s =
        .ok () { s with
          src := q, snk := s.snk.emitted xs, symCnt := BitVec.ofNat 64 xs.length, cur := none } ∧
      s.src.Consumed us.flatten.length q := by
  obtain ⟨q, hd, hc⟩ := delivers_of_noFault us.flatten hnf h8 hah
  obtain ⟨hcnt, hcnt'⟩ := walked_symCnt (Nat.le_of_eq hsum) q
  refine ⟨q, ?_, hc⟩
  rw [bodyDecPayload_after hrd hv hok h hd (Nat.le_of_eq hsum) hk hc.enough,
    walkLoop_done _ _ (by rw [hcnt', total_toNat, hsum]), within_ok, ← hcnt]
  rfl

/-- DEC_PAYLOAD of the bits of fewer than TOTAL symbols, and then bits that come to no symbol (R195, R224, R227). -/
theorem bodyDecPayload_truncated (h8 : s.src.rcnt.toNat ≤ 8) (hnf : s.src.NoFault) {u : List Bool}
    (hu : s.tree.Within u) (hah : s.src.ahead = us.flatten ++ u) (hsum : xs.length < s.freq.sum)
    (hk : s.snk.Ready xs.length) :
    ∃ q, bodyDecPayload s =
        .err .truncatedStream { s with
          src := q, snk := s.snk.emitted xs, symCnt := BitVec.ofNat 64 xs.length, cur := none } ∧
      s.src.Consumed s.src.ahead.length q := by
  obtain ⟨q, hd, hc⟩ := delivers_of_noFault (us.flatten ++ u) hnf h8 (rest := []) (by rw [hah, List.append_nil])
  obtain ⟨q1, d1, d2⟩ := hd.split
  rw [← hah] at hc
  obtain ⟨hcnt, hcnt'⟩ := walked_symCnt (Nat.le_of_lt hsum) q1
  have hlt : (s.walkStart.walked s.tree xs q1).symCnt.toNat < s.freq.total.toNat := by rw [hcnt', total_toNat]; exact hsum
  have hlen := congrArg List.length hah
  rw [List.length_append] at hlen
  have hle := ahead_length_le s.src
  obtain ⟨n, hn⟩ : ∃ n, s.src.bitsAhead - us.flatten.length = u.length + n :=
    ⟨s.src.bitsAhead - us.flatten.length - u.length, by omega⟩
  obtain ⟨i, e⟩ := walkLoop_within hu (x := s.walkStart.walked s.tree xs q1) rfl d2 hlt n
  refine ⟨q, ?_, hc⟩
  rw [bodyDecPayload_after hrd hv hok h d1 (Nat.le_of_lt hsum) hk (by omega), hn, e,
    walkLoop_empty _ _ (x := { s.walkStart.walked s.tree xs q1 with src := q, cur := i }) hc.empty hlt, within_err, ← hcnt]
  rfl

end

/-- Settles O50: each of the next TOTAL bits is a symbol (`spells_ahead`), whatever it is. -/
theorem aSingleLeafTakesAnyBit : Obligations.ASingleLeafTakesAnyBit := by
  intro s b hrd h8 hnf hv hok h1 hb hle hk
  obtain ⟨q, e, hc⟩ := bodyDecPayload_whole hrd hv hok (spells_ahead hv hok h1 hb hle) h8 hnf
    (rest := s.src.ahead.drop s.freq.sum) (by rw [flatten_singletons, List.take_append_drop])
    List.length_replicate (by rwa [List.length_replicate])
  rw [flatten_singletons, List.length_take_of_le hle] at hc
  rw [List.length_replicate] at e
  exact ⟨q, by rw [exec_eq_finish, bodyOf, e]; rfl, hc⟩

-- DECODE after a header

/-- DECODE where HDR_READ has read a header of `f` and left the source at `q` (R192). -/
def State.decodeHeaded (s : State) (f : FreqTable) (q : Source) : State :=
  { s.freshSession.withFreq f with src := q, cls := none, stage := some 0x09 }

/-- DECODE comes past a header of `f`: `q0` is the source after RD_INIT, `q` the source after the header, whose bits before `rest`
are the header's (R134, R192). -/
structure State.PastHeader (s : State) (cs : List (BitVec 2)) (f : FreqTable) (rest : List Bool) (q0 q : Source) : Prop where
  fetched : fetch s.src.opened = .ok () q0
  headed : bodyHdrRead { s.freshSession with src := q0, stage := some 0x09 } = .ok () (s.decodeHeaded f q)
  consumed : q0.Consumed (headerWith cs f).length q
  noFault : q.NoFault
  rdValid : q.rdValid = true
  ahead : q.ahead = rest

theorem exists_pastHeader {s : State} {cs : List (BitVec 2)} {f : FreqTable} {rest : List Bool} (hfit : ClassesFit cs f)
    (h : s.src.NoFault) (hin : s.src.input.flatMap byteBits = headerWith cs f ++ rest) :
    ∃ q0 q, s.PastHeader cs f rest q0 q := by
  obtain ⟨q0, e0, h0, h8, hv, ha⟩ := fetch_opened h
  obtain ⟨q, e, hc⟩ := bodyHdrRead_ok (s := { s.freshSession with src := q0, stage := some 0x09 }) hv h8 h0 hfit
    (ha.trans hin)
  exact ⟨q0, q, e0, e, hc, NoFault.of_consumed h0 hc, hc.rdValid.trans hv, by rw [hc.ahead, ha, hin, List.drop_left]⟩

section
variable {s : State} {cs : List (BitVec 2)} {f : FreqTable} {rest : List Bool} {q0 q : Source}
  (p : s.PastHeader cs f rest q0 q)
include p

/-- The pre-read of DECODE is that of RD_INIT (R118, R192). -/
theorem State.PastHeader.init : exec .rdInit s = .next (complete { s with src := q0 }) := by
  rw [exec_rdInit, p.fetched]
  rfl

/-- DECODE of a header of no symbols ends there (R193). -/
theorem State.PastHeader.decode_zero (h0 : f.total = 0) : bodyDecode s = .ok () (s.decodeHeaded f q) := by
  have hinit : bodyRdInit (s.freshSession.enterStage 0x04) = .ok () { s.freshSession.enterStage 0x04 with src := q0 } := by
    rw [bodyRdInit_eq]
    exact congrArg (Res.within · _) p.fetched
  rw [bodyDecode, hinit, bind_ok]
  refine (congrArg (Res.bind · _) p.headed).trans ?_
  exact if_pos h0

/-- DECODE of a header of some symbols ends as DEC_PAYLOAD does on the tree BUILD makes (R192). -/
theorem State.PastHeader.decode_payload (hn : f.nonzero = true) :
    bodyDecode s = bodyDecPayload (s.decodeHeaded f q).decodeBuilt := bodyDecode_of_header p.fetched p.headed hn

end

/-- The tree DECODE has just built is valid, and that of FREQ (R150, R192). -/
theorem decodeBuilt_tree (s : State) {f : FreqTable} (hn : f.nonzero = true) (q : Source) :
    (s.decodeHeaded f q).decodeBuilt.tree.treeValid = true ∧ (s.decodeHeaded f q).decodeBuilt.TreeOk := by
  obtain ⟨-, -, -, -, -, hvalid, -⟩ := build_spec ((nonzero_iff f).1 hn)
  exact ⟨hvalid, treeOk_built hn rfl rfl⟩

/-- Settles O53: past the header DECODE is DEC_PAYLOAD on the tree of `f`, which emits the symbols (`bodyDecPayload_whole`). -/
theorem decodeEmitsTheSymbols : Obligations.DecodeEmitsTheSymbols := by
  intro s cs f c xs rest hfit hnf hc hxs hne hlen hin hk
  obtain ⟨b, hb⟩ := List.exists_mem_of_ne_nil xs hne
  have hn := nonzero_of_entry (hxs b hb)
  rw [List.append_assoc] at hin
  obtain ⟨q0, q1, p⟩ := exists_pastHeader hfit hnf hin
  obtain ⟨hv, hok⟩ := decodeBuilt_tree s hn q1
  obtain ⟨q, e, hcq⟩ := bodyDecPayload_whole (s := (s.decodeHeaded f q1).decodeBuilt) p.rdValid hv hok
    (spells_payload hc hxs) p.consumed.short p.noFault p.ahead hlen hk
  exact ⟨q0, q, p.init, p.consumed.trans hcq, by rw [exec_eq_finish, bodyOf, p.decode_payload hn, e]; rfl⟩

/-- Settles O52: TOTAL is 0 (`total_toNat`), which DEC_PAYLOAD asks first, and DECODE after the header. -/
theorem aZeroTotalDecodesToNothing : Obligations.AZeroTotalDecodesToNothing := by
  have htotal {f : FreqTable} (h : f.sum = 0) : f.total = 0 := BitVec.eq_of_toNat_eq ((total_toNat f).trans h)
  intro s
  refine ⟨fun h0 => ?_, fun cs f rest hfit h0 hnf hin => ?_⟩
  · rw [exec_eq_finish, bodyOf, bodyDecPayload, if_pos (htotal h0)]
    rfl
  · obtain ⟨q0, q, p⟩ := exists_pastHeader hfit hnf hin
    exact ⟨q0, q, p.init, p.consumed, by rw [exec_eq_finish, bodyOf, p.decode_zero (htotal h0)]; rfl⟩

/-- DECODE of a header and then the bits of fewer than TOTAL symbols, and bits that come to no symbol (R192, R195). -/
theorem exec_decode_truncated {s : State} {cs : List (BitVec 2)} {f : FreqTable} {us : List (List Bool)} {xs : List Byte}
    {u : List Bool} (hfit : ClassesFit cs f) (hnf : s.src.NoFault) (h : List.Forall₂ (Tree.build f).Spells us xs)
    (hu : (Tree.build f).Within u) (hsum : xs.length < f.sum)
    (hin : s.src.input.flatMap byteBits = headerWith cs f ++ (us.flatten ++ u)) (hk : s.snk.fresh.Ready xs.length) :
    ∃ q0 q : Source,
      exec .rdInit s = .next (complete { s with src := q0 }) ∧ q0.Consumed (8 * s.src.inLen.toNat) q ∧ q.rcnt = 0 ∧
      exec .decode s =
        .next (abort .truncatedStream { s with
          freq := f, tree := Tree.build f, codesValid := false, src := q, snk := s.snk.fresh.emitted xs
          symCnt := BitVec.ofNat 64 xs.length, stage := some 0x0D }) := by
  have hn : f.nonzero = true := nonzero_of_total fun e => by
    rw [← total_toNat, e] at hsum
    exact Nat.not_lt_zero _ hsum
  obtain ⟨q0, q1, p⟩ := exists_pastHeader hfit hnf hin
  obtain ⟨hv, hok⟩ := decodeBuilt_tree s hn q1
  obtain ⟨q, e, hcq⟩ := bodyDecPayload_truncated (s := (s.decodeHeaded f q1).decodeBuilt) p.rdValid hv hok h
    p.consumed.short p.noFault hu p.ahead hsum hk
  have hlen : (headerWith cs f).length + (s.decodeHeaded f q1).decodeBuilt.src.ahead.length = 8 * s.src.inLen.toNat := by
    rw [show (s.decodeHeaded f q1).decodeBuilt.src.ahead = _ from p.ahead, ← List.length_append, ← hin, input_bits_length]
  exact ⟨q0, q, p.init, hlen ▸ p.consumed.trans hcq, hcq.empty, by rw [exec_eq_finish, bodyOf, p.decode_payload hn, e]; rfl⟩

/-- Settles O51: the codes or bits of the symbols that are there, and then bits that come to no symbol (`within_of_no_code`),
walked by DEC_PAYLOAD (`bodyDecPayload_truncated`) and by DECODE past its header. -/
theorem aShortPayloadIsTruncated : Obligations.AShortPayloadIsTruncated := by
  intro s hnf
  refine ⟨fun hrd h8 hv hok => ⟨fun c xs rest hgen h2 hxs hsum hah hno hk => ?codes, fun b h1 hb hlt hk => ?single⟩,
    fun cs f c xs rest hfit hc hsum hk hpay => ?decode⟩
  case codes =>
    have ht := (hok.tree hv).2
    rw [ht] at hgen
    obtain ⟨q, e, hcq⟩ := bodyDecPayload_truncated hrd hv hok (us := xs.map c.code) (ht ▸ spells_payload hgen hxs) h8 hnf
      (ht ▸ within_of_no_code h2 hgen hno) hah hsum hk
    exact ⟨q, by rw [exec_eq_finish, bodyOf, e]; rfl, hcq, hcq.empty⟩
  case single =>
    obtain ⟨q, e, hcq⟩ := bodyDecPayload_truncated hrd hv hok (spells_ahead hv hok h1 hb (Nat.le_refl _)) h8 hnf
      (u := []) (.inl rfl) (by rw [flatten_singletons, List.append_nil, List.take_length])
      (by rwa [List.length_replicate]) (by rwa [List.length_replicate])
    rw [List.length_replicate] at e
    exact ⟨q, by rw [exec_eq_finish, bodyOf, e]; rfl, hcq, hcq.empty⟩
  case decode =>
    rcases hpay with ⟨h2, hxs, hno, hin⟩ | ⟨h1, hxs, hlen, hin⟩
    · exact exec_decode_truncated hfit hnf (spells_payload hc hxs) (within_of_no_code h2 hc hno) hsum
        (hin.trans (List.append_assoc ..)) hk
    · exact exec_decode_truncated hfit hnf (spells_single h1 hxs hlen) (u := []) (.inl rfl) hsum
        (by rw [flatten_singletons, List.append_nil]; exact hin) hk

-- How many symbols a decode that completes has emitted

/-- SYMCNT counts the symbols sent since OUT_COUNT was `k`, and is not past TOTAL (R32, R190). -/
structure Stream.Counting (k total : Wide) (x : Stream) : Prop where
  count : x.snk.outCount = k + x.symCnt
  le : x.symCnt.toNat ≤ total.toNat

theorem ends_true {σ α : Type} (r : Res σ α) : r.Ends (fun _ _ => True) fun _ _ => True := by cases r <;> trivial

theorem emitSymbol_counting (b : Byte) {k total : Wide} {x : Stream} (h : x.Counting k total)
    (hlt : x.symCnt.toNat < total.toNat) : (emitSymbol b x).Ends (fun _ y => y.Counting k total) fun _ _ => True := by
  rw [emitSymbol, ends_bind, ends_within]
  rcases sinkWrite_cases b x.snk with ⟨fs, e⟩ | ⟨-, e⟩ <;> rw [e]
  · trivial
  · have hcount : x.snk.outCount + 1 = k + (x.symCnt + 1) := by rw [h.count, BitVec.add_assoc]
    have hle : (x.symCnt + 1).toNat ≤ total.toNat := by bv_omega
    exact ⟨hcount, hle⟩

theorem walkBit_counting (t : Tree) (d : Bool) {k total : Wide} {x : Stream} (h : x.Counting k total)
    (hlt : x.symCnt.toNat < total.toNat) : (walkBit t d x).Ends (fun _ y => y.Counting k total) fun _ _ => True := by
  unfold walkBit
  split
  · exact emitSymbol_counting _ h hlt
  · dsimp only
    generalize (if d = true then (t.node (x.cur.getD t.root)).right else (t.node (x.cur.getD t.root)).left) = next
    split
    · rw [ends_bind]
      exact (emitSymbol_counting _ (x := { x with cur := some next }) ⟨h.count, h.le⟩ hlt).mono
        (fun _ y hy => ⟨hy.count, hy.le⟩) fun _ _ _ => trivial
    · exact ⟨h.count, h.le⟩

theorem Stream.Counting.at_total {k total : Wide} {x : Stream} (h : x.Counting k total)
    (hle : total.toNat ≤ x.symCnt.toNat) : x.symCnt = total ∧ x.snk.outCount = k + total := by
  have e : x.symCnt = total := BitVec.eq_of_toNat_eq (Nat.le_antisymm h.le hle)
  exact ⟨e, e ▸ h.count⟩

/-- The walk ends well only with SYMCNT at TOTAL (R190, R195). -/
theorem walkLoop_counting (t : Tree) {k total : Wide} (n : Nat) {x : Stream} (h : x.Counting k total) :
    (walkLoop t total n x).Ends (fun _ y => y.symCnt = total ∧ y.snk.outCount = k + total) fun _ _ => True := by
  induction n generalizing x with
  | zero =>
    rw [walkLoop]
    split
    · exact h.at_total ‹_›
    · trivial
  | succ n ih =>
    rw [walkLoop]
    split
    · exact h.at_total ‹_›
    · have hlt : x.symCnt.toNat < total.toNat := by omega
      rw [ends_bind, ends_within]
      refine (ends_true (readBit x.src)).mono (fun d q _ => ?_) fun _ _ _ => trivial
      rw [ends_bind]
      exact (walkBit_counting t d (x := { x with src := q }) ⟨h.count, h.le⟩ hlt).mono (fun _ _ => ih) fun _ _ _ => trivial

/-- `t` is where a decode of TOTAL symbols that began with OUT_COUNT at `k` may complete (R195, R196). -/
structure State.Decoded (k : Wide) (t : State) : Prop where
  symCnt : t.symCnt = t.freq.total
  outCount : t.snk.outCount = k + t.freq.total

theorem bodyDecPayload_decoded (s : State) :
    (bodyDecPayload s).Ends (fun _ t => t.Decoded s.snk.outCount) fun _ _ => True := by
  unfold bodyDecPayload
  split
  · rename_i h0
    exact ⟨h0.symm, by rw [show s.freq.total = 0 from h0]; exact (add_zero _).symm⟩
  · split
    · rw [decodeWalk, ends_within]
      exact (walkLoop_counting s.tree _ (k := s.snk.outCount) (total := s.freq.total)
        ⟨(add_zero _).symm, Nat.zero_le _⟩).mono (fun _ y hy => ⟨hy.1, hy.2⟩) fun _ _ _ => trivial
    · trivial

/-- HDR_READ leaves the sink and SYMCNT alone (R134). -/
theorem bodyHdrRead_keeps_counts (s : State) : (bodyHdrRead s).All fun t => t.snk = s.snk ∧ t.symCnt = s.symCnt := by
  rw [bodyHdrRead]
  split
  · refine Res.All.bind ((all_within ..).2 (all_of_forall _ fun _ => ⟨rfl, rfl⟩)) fun _ s1 h => ?_
    exact (all_within ..).2 (all_of_forall _ fun _ => h)
  · exact ⟨rfl, rfl⟩

theorem bodyDecode_decoded (s : State) : (bodyDecode s).Ends (fun _ t => t.Decoded 0) fun _ _ => True := by
  rw [bodyDecode, ends_bind, bodyRdInit_eq, ends_within]
  refine (ends_true (fetch _)).mono (fun _ q _ => ?_) fun _ _ _ => trivial
  rw [ends_bind]
  refine Res.Ends.mono (bodyHdrRead_keeps_counts _) (fun _ t ht => ?_) fun _ _ _ => trivial
  obtain ⟨hsnk, hsym⟩ := ht
  have hout : t.snk.outCount = 0 := by rw [hsnk]; rfl
  split
  · rename_i h0
    exact ⟨hsym.trans h0.symm, by rw [hout, h0]; rfl⟩
  · rename_i h0
    rw [bodyBuild_ok (s := t.enterStage 0x0A) (nonzero_of_total h0), bind_ok, ← hout]
    exact bodyDecPayload_decoded _

/-- Settles O54: the walk counts each symbol it sends (`walkLoop_counting`), from OUT_COUNT as it stands, or from 0 in DECODE. -/
theorem aCompletedDecodeHasTheRightLength : Obligations.ACompletedDecodeHasTheRightLength := by
  intro i s t hi _ ht herr
  have hends : (bodyOf i s).Ends (fun _ u => u.Decoded (if i = .decode then 0 else s.snk.outCount)) fun _ _ => True := by
    rcases hi with rfl | rfl
    · exact bodyDecPayload_decoded s
    · exact bodyDecode_decoded s
  rw [exec_eq_finish] at ht
  rcases finish_next ht with ⟨u, e, rfl⟩ | ⟨k, u, e, rfl⟩
  · rw [e, ends_ok] at hends
    exact ⟨hends.symCnt, hends.outCount⟩
  · cases herr

end Sys2Proof.Machine

/-! SUPPORT. Session control (46_session_control.md R201, R202, R205, R226): the rejected CMD write, the two ends of a command,
and the state CLEAR leaves. -/

namespace Sys2Proof.Machine

-- A rejected CMD write

theorem rejects_iff (s : State) (w : Word) :
    rejects s w = true ↔ s.status.busy = true ∨ (s.status.err = true ∧ wordOp w ≠ 0x01#8) := by
  simp [rejects]

/-- A CMD write that is rejected starts no command (R201). -/
theorem step_writeCmd_rejected {s : State} {w : Word} (h : rejects s w = true) :
    step (s.issueWrite 0x004 w) = .next (reject s) := by
  rw [step_issueWrite s (by decide) (by decide), hostWrite, show regAt 0x004 = some .cmd from rfl]
  simp only [h]
  rfl

/-- Settles O6: the two causes are `rejects` (`rejects_iff`), and `reject` writes REJ alone. -/
theorem rejectedCmdWriteSetsOnlyRej : Obligations.RejectedCmdWriteSetsOnlyRej :=
  fun s w h => step_writeCmd_rejected ((rejects_iff s w).2 h)

-- The ends of a command

/-- Settles O8: both ends write STATUS (`Status.complete`, `Status.abort`) and drop the transient state (`discardTransient`);
the stated records are these, unfolded. -/
theorem theTwoEndsOfACommand : Obligations.TheTwoEndsOfACommand := fun _ _ => ⟨rfl, rfl⟩

-- CLEAR

/-- Settles O10: the body of CLEAR is one record update, and each part is then that of reset: STATUS by `leaveError` under
`complete`, the source by `rewind`, the tree by `Tree.clear` once PQ is dropped. So the two states agree by definition. -/
theorem clearStartsAFreshSession : Obligations.ClearStartsAFreshSession := fun _ => rfl

end Sys2Proof.Machine

/-! SUPPORT. The error state (60_exceptions.md R232, R233): which host operation starts a command, what the others leave of
STATUS, and the two ways out. -/

namespace Sys2Proof.Machine

-- Where CMD stands

theorem eq_one_of_lowReg_cmd {n : Nat} (h : lowReg n = some .cmd) : n = 1 := by
  unfold lowReg at h
  split at h <;> cases h
  rfl

/-- CMD stands at 0x004 alone (R23). -/
theorem eq_four_of_regAt_cmd {off : Nat} (h4 : off % 4 = 0) (h : regAt off = some .cmd) : off = 0x004 := by
  rw [regAt] at h
  split at h
  · have := eq_one_of_lowReg_cmd h
    omega
  · split at h
    · cases h
    · split at h <;> cases h

/-- An admitted write that finds CMD is one of four bytes at BASE + 0x004 (R23, R76). -/
theorem memWrite_of_admitted_cmd {base addr width : Nat} (hadm : admitted base addr width = true)
    (hreg : regAt (addr - base) = some .cmd) (v : Word) :
    HostOp.memWrite addr width v = .memWrite (base + 0x004) 4 v := by
  simp only [admitted, Bool.and_eq_true, beq_iff_eq, decide_eq_true_eq] at hadm
  obtain ⟨⟨⟨rfl, hbase⟩, -⟩, h4⟩ := hadm
  have hoff := eq_four_of_regAt_cmd h4 hreg
  rw [show addr = base + 0x004 by omega]

-- What a host operation does to STATUS

/-- STATUS is read-only, so a write of a register other than CMD does not reach it (R47, R203). -/
@[simp] theorem writeReg_status (s : State) (v : Word) (r : Reg) : (writeReg s v r).status = s.status := by
  cases r <;> rfl

/-- An operation that starts no command and is no reset changes REJ at most, and one that starts a command writes CMD. -/
def HostAct.ReachesStatus (s : State) (op : HostOp) : HostAct → Prop
  | .done t => op ≠ .reset → t.status = { s.status with rej := t.status.rej }
  | .refuse _ => True
  | .issue w _ => op = .memWrite (s.host.base + 0x004) 4 w

theorem hostAct_reachesStatus (op : HostOp) (s : State) : (hostAct op s).ReachesStatus s op := by
  cases op with
  | memWrite addr width v =>
    rw [hostAct]
    split
    · rename_i hadm
      rw [hostWrite]
      split
      · rename_i hreg
        split
        · exact fun _ => rfl
        · exact memWrite_of_admitted_cmd hadm hreg v
      · split
        · exact fun _ => rfl
        · exact fun _ => by rw [writeReg_status]
      · exact fun _ => rfl
    · trivial
  | memRead addr width =>
    rw [hostAct]
    split
    · obtain ⟨v, n, e⟩ := hostRead_host s (addr - s.host.base)
      rw [e]
      exact fun _ => rfl
    · trivial
  | wait =>
    rw [hostAct]
    split <;> exact fun _ => rfl
  | loadIn start bytes =>
    rw [hostAct]
    split
    · trivial
    · split
      · trivial
      · exact fun _ => rfl
  | reset => exact fun h => absurd rfl h

-- The error state

/-- In the error state only CLEAR's OP is accepted (R200, R201). -/
theorem wordOp_of_accepted {s : State} {w : Word} (he : s.status.err = true) (hr : rejects s w = false) :
    wordOp w = 0x01#8 := by
  by_contra hw
  rw [(rejects_iff s w).2 (.inr ⟨he, hw⟩)] at hr
  cases hr

/-- The error state stands under everything but the reset input and CLEAR (R232). -/
theorem step_keeps_error_status {s t : State} {op : HostOp} (he : s.status.err = true) (ht : step (s.issue op) = .next t)
    (hreset : op ≠ .reset) (hclear : ∀ w, op = .memWrite (s.host.base + 0x004) 4 w → wordOp w ≠ 0x01#8) :
    t.status = { s.status with rej := t.status.rej } := by
  have hstatus := hostAct_reachesStatus op s
  have hfits := hostAct_fits op s
  rw [step_issue] at ht
  cases ha : hostAct op s <;> rw [ha] at ht hstatus hfits
  case done u => cases ht; exact hstatus hreset
  case refuse r => cases ht
  case issue w u => exact absurd (wordOp_of_accepted he hfits.2) (hclear w hstatus)

/-- A CMD write of CLEAR to a block that is not busy runs CLEAR (R200, R202). -/
theorem step_writeCmd_clear {s : State} {w : Word} (hb : s.status.busy = false) (hw : wordOp w = 0x01#8) :
    step (s.issueWrite 0x004 w) = exec .clear (accept w s) := by
  have hr : rejects s w = false := by simp [rejects, hb, hw]
  rw [step_writeCmd_accepted hr, runWord, decode_clear hw]

/-- Settles O7: no other operation reaches the error fields (`step_keeps_error_status`); the reset input leaves STATUS at its
reset value, and so does CLEAR but for DONE and REJ (`clearStartsAFreshSession`). -/
theorem onlyClearAndResetLeaveTheErrorState : Obligations.OnlyClearAndResetLeaveTheErrorState := by
  intro s t op hb he ht
  refine ⟨step_keeps_error_status he ht, ?_⟩
  rintro (rfl | ⟨w, rfl, hw⟩)
  · cases ht
    exact ⟨rfl, rfl, rfl, rfl⟩
  · have hstep : step (s.issue (.memWrite (s.host.base + 0x004) 4 w)) = exec .clear (accept w s) :=
      step_writeCmd_clear hb hw
    rw [hstep, clearStartsAFreshSession] at ht
    cases ht
    exact ⟨rfl, rfl, rfl, rfl⟩

end Sys2Proof.Machine
